-- ==== Sys2Proof/Word.lean ====
section
/-! DEFINITION. The word types of the block and its plainest arithmetic (00_scope.md R11: bits are
numbered from 0 at the least significant end, every number is unsigned). -/

namespace Sys2Proof

/-- One byte: SRC, CT, CBUF, IDX cells and the four channels of a pixel (20_memory.md R62 to R65). -/
abbrev Byte := BitVec 8

/-- One register word (10_state.md R21). -/
abbrev Word := BitVec 32

/-- A natural number narrowed to a register word: pseudocode arithmetic is on unbounded naturals and
a width is applied where a value is stored (00_scope.md R11). -/
def word (n : Nat) : Word := BitVec.ofNat 32 n

/-- A flag as the number its bit contributes. -/
def bit (b : Bool) : Nat := if b then 1 else 0

end Sys2Proof
end

