-- ==== Sys2Proof/Config.lean ====
section
/-! DEFINITION. What an implementation fixes, and the free values the spec leaves open. The capacities are
NOT here: they are readable registers that any legal machine may hold other values in, so they stand in
State (00_scope.md R9, log 1). -/

namespace Sys2Proof.Config

/-- The constant `ID` reads (10_state.md R22). -/
def idWord : Word := 0x4D474946

/-- Dictionary capacity (00_scope.md R6). -/
abbrev dictSize : Nat := 4096

/-- Maximum code width (00_scope.md R6). -/
abbrev maxWidth : Nat := 12

/-- Bytes of the colour-table RAM (20_memory.md R63). -/
abbrev ctBytes : Nat := 768

/-- Bytes of the register window (20_memory.md R61). -/
abbrev regsBytes : Nat := 256

/-- DESIGN CHOICE (log 1): the capacities `State.reset` holds; the spec leaves them open. -/
def resetCapacity : Word := 65536

/-- DESIGN CHOICE (log 2): what a byte that nothing has written reads as; 70_reset_and_hazards.md R283
leaves it free. -/
def unwrittenByte : Byte := 0

/-- FREE VALUE (log 6): the n-th value drawn for a host read of a register made while `BUSY = 1`
(20_memory.md R76: a free draw under no law). -/
opaque freeWord : Nat → Word

/-- FREE VALUE (log 6): the n-th value drawn for a host read of a SNAP byte made while `BUSY = 1`
(20_memory.md R76). -/
opaque freeByte : Nat → Byte

end Sys2Proof.Config
end

