-- ==== Sys2Proof/Syntax.lean ====
section
/-! DEFINITION. The instructions of spec/opcode_table.json, one constructor per row (30_encoding.md R90), and
the decoder phase a code's class depends on (R100, R105). -/

namespace Sys2Proof

/-- The position of the LZW decoder in its algorithm (10_state.md R55, 30_encoding.md R105). -/
inductive Phase where
  | idle
  | expectClear
  | afterClear
  | normal
  | done
  deriving DecidableEq, Repr

/-- Every row of the opcode table: the eight command words (30_encoding.md R92), the two length-byte
classes (R98) and the six legal code classes (R100). A class whose code the context fixes carries no
operand; the two classes that hold many codes carry theirs. -/
inductive Instr where
  /-- CMD32 0x00 (44_control.md R234). -/
  | nop
  /-- CMD32 0x01 (44_control.md R235). -/
  | softReset
  /-- CMD32 0x02 (43_compositor.md R190). -/
  | beginDoc
  /-- CMD32 0x03 (40_subblock.md R120). -/
  | assemble
  /-- CMD32 0x04 (42_lzw.md R150). -/
  | lzwDecode
  /-- CMD32 0x05 (43_compositor.md R192). -/
  | compose
  /-- CMD32 0x06 (44_control.md R237). -/
  | image
  /-- CMD32 0x07 (44_control.md R236). -/
  | endDoc
  /-- SB8 length byte 0 (40_subblock.md R124). -/
  | sbTerm
  /-- SB8 length byte `n`, 1 to 255 (40_subblock.md R125). -/
  | sbData (n : Byte)
  /-- LZWc, the clear code that opens a stream (42_lzw.md R159). -/
  | clearFirst
  /-- LZWc, the base code `c` after a clear code (42_lzw.md R160). -/
  | baseAfterClear (c : BitVec 12)
  /-- LZWc, end of information (42_lzw.md R161). -/
  | eoi
  /-- LZWc, a clear code inside the stream (42_lzw.md R162). -/
  | clear
  /-- LZWc, a code `c` below `NEXT` (42_lzw.md R163). -/
  | known (c : BitVec 12)
  /-- LZWc, the code equal to `NEXT` (42_lzw.md R164). -/
  | kwkwk
  deriving DecidableEq, Repr

end Sys2Proof
end

