-- ==== Sys2Proof/WellFormed.lean ====
section
/-! DEFINITION. When an instruction is one the encoding can spell: on its own, and at one point of a code
stream (30_encoding.md R98, R100, R101). -/

namespace Sys2Proof

/-- What the meaning of a code depends on besides its value (30_encoding.md R100, R101): the phase, the
latched minimum code size, the width the next code is taken with, and the next free index. -/
structure CodeCtx where
  phase : Phase
  mcs   : Nat
  width : Nat
  next  : Nat
  deriving DecidableEq, Repr

/-- `CLEAR = 2^MCS_L` (10_state.md R55). -/
def CodeCtx.clear (k : CodeCtx) : Nat := 2 ^ k.mcs

/-- `EOI = CLEAR + 1` (10_state.md R55). -/
def CodeCtx.eoi (k : CodeCtx) : Nat := k.clear + 1

/-- The code space a running decode has (42_lzw.md R169, first two points). -/
def CodeCtx.ok (k : CodeCtx) : Bool :=
  decide (1 ≤ k.mcs) && decide (k.mcs ≤ 8) && decide (k.mcs + 1 ≤ k.width) &&
  decide (k.width ≤ Config.maxWidth) && decide (k.eoi + 1 ≤ k.next) &&
  decide (k.next ≤ Config.dictSize) && decide (k.next ≤ 2 ^ k.width)

/-- Well-formed on its own: SB_DATA has a non-zero length (30_encoding.md R98), and a base code is below
256 whatever the minimum code size (00_scope.md R8). -/
def Instr.wf (i : Instr) : Bool :=
  match i with
  | .nop => true
  | .softReset => true
  | .beginDoc => true
  | .assemble => true
  | .lzwDecode => true
  | .compose => true
  | .image => true
  | .endDoc => true
  | .sbTerm => true
  | .sbData n => n != 0
  | .clearFirst => true
  | .baseAfterClear c => decide (c.toNat < 256)
  | .eoi => true
  | .clear => true
  | .known _ => true
  | .kwkwk => true

/-- A code that `WIDTH` bits can hold (30_encoding.md R99). -/
def CodeCtx.fits (k : CodeCtx) (c : Nat) : Bool := decide (c < 2 ^ k.width)

/-- Well-formed at a point of the code stream: the conditions of the table of 30_encoding.md R100. A
command or a length byte needs no context. -/
def Instr.wfIn (k : CodeCtx) (i : Instr) : Bool :=
  match i with
  | .nop => true
  | .softReset => true
  | .beginDoc => true
  | .assemble => true
  | .lzwDecode => true
  | .compose => true
  | .image => true
  | .endDoc => true
  | .sbTerm => true
  | .sbData n => n != 0
  | .clearFirst => decide (k.phase = .expectClear) && k.fits k.clear
  | .baseAfterClear c => decide (k.phase = .afterClear) && decide (c.toNat < k.clear) && k.fits c.toNat
  | .eoi => decide (k.phase = .normal) && k.fits k.eoi
  | .clear => decide (k.phase = .normal) && k.fits k.clear
  | .known c =>
    decide (k.phase = .normal) && decide (c.toNat < k.next) && decide (c.toNat ≠ k.clear) &&
    decide (c.toNat ≠ k.eoi) && k.fits c.toNat
  | .kwkwk =>
    decide (k.phase = .normal) && decide (k.eoi < k.next) && decide (k.next < Config.dictSize) &&
    k.fits k.next

end Sys2Proof
end

