-- ==== Sys2Proof/Decode.lean ====
section
/-! DEFINITION. The decoder of the block's three formats (30_encoding.md R90 to R101), total and rejecting by
name, and the encoder written from the same tables. -/

namespace Sys2Proof

/-- An instruction as encoded: a command word (30_encoding.md R91), a length byte (R97), or the bits of one
code, first stream bit first (R99). -/
inductive Encoded where
  | cmd32 (v : Word)
  | sb8 (n : Byte)
  | lzwc (bits : List Bool)
  deriving DecidableEq, Repr

/-- Why an encoding spells no instruction. -/
inductive Reject where
  /-- A command word of no opcode, or with a reserved bit set (30_encoding.md R93). -/
  | badCommand (v : Word)
  /-- EXPECT_CLEAR and the code is not CLEAR (30_encoding.md R100). -/
  | firstNotClear (c : Nat)
  /-- AFTER_CLEAR and the code is not a base code (30_encoding.md R100). -/
  | afterClearNotBase (c : Nat)
  /-- NORMAL and the code is above NEXT (30_encoding.md R100). -/
  | codeBeyondNext (c : Nat)
  /-- The decoder is IDLE or DONE and takes no code (30_encoding.md R100 has no such row). -/
  | noCodeExpected (c : Nat)
  /-- The number of bits is not the width the decoder takes (30_encoding.md R101). -/
  | wrongWidth (n : Nat)
  deriving DecidableEq, Repr

/-- The number spelled by bits given least significant first (30_encoding.md R99). -/
def bitsValue : List Bool → Nat
  | [] => 0
  | b :: bs => bit b + 2 * bitsValue bs

/-- The `w` low bits of a code, least significant first (30_encoding.md R99). -/
def codeBits (w c : Nat) : List Bool := (List.range w).map c.testBit

/-- The command words (30_encoding.md R92): all 32 bits count, so a reserved bit set spells nothing. -/
def decodeCommand (v : Word) : Except Reject Instr :=
  match v.toNat with
  | 0x00 => .ok .nop
  | 0x01 => .ok .softReset
  | 0x02 => .ok .beginDoc
  | 0x03 => .ok .assemble
  | 0x04 => .ok .lzwDecode
  | 0x05 => .ok .compose
  | 0x06 => .ok .image
  | 0x07 => .ok .endDoc
  | _ => .error (.badCommand v)

/-- The length-byte classes (30_encoding.md R98): every byte is one of the two. -/
def decodeLength (n : Byte) : Instr := if n = 0 then .sbTerm else .sbData n

/-- The code classes, in the order of the table of 30_encoding.md R100. -/
def decodeCode (k : CodeCtx) (c : Nat) : Except Reject Instr :=
  match k.phase with
  | .expectClear => if c = k.clear then .ok .clearFirst else .error (.firstNotClear c)
  | .afterClear =>
    if c < k.clear then .ok (.baseAfterClear (BitVec.ofNat 12 c)) else .error (.afterClearNotBase c)
  | .normal =>
    if c = k.eoi then .ok .eoi
    else if c = k.clear then .ok .clear
    else if c < k.next then .ok (.known (BitVec.ofNat 12 c))
    else if c = k.next then .ok .kwkwk
    else .error (.codeBeyondNext c)
  | .idle => .error (.noCodeExpected c)
  | .done => .error (.noCodeExpected c)

/-- The decoder: total on every encoding. -/
def decode (k : CodeCtx) (e : Encoded) : Except Reject Instr :=
  match e with
  | .cmd32 v => decodeCommand v
  | .sb8 n => .ok (decodeLength n)
  | .lzwc bits =>
    if bits.length = k.width then decodeCode k (bitsValue bits) else .error (.wrongWidth bits.length)

/-- The encoder, from the same tables: R92 for commands, R98 for length bytes, R99 and R100 for codes. -/
def encode (k : CodeCtx) (i : Instr) : Encoded :=
  match i with
  | .nop => .cmd32 0x00000000
  | .softReset => .cmd32 0x00000001
  | .beginDoc => .cmd32 0x00000002
  | .assemble => .cmd32 0x00000003
  | .lzwDecode => .cmd32 0x00000004
  | .compose => .cmd32 0x00000005
  | .image => .cmd32 0x00000006
  | .endDoc => .cmd32 0x00000007
  | .sbTerm => .sb8 0x00
  | .sbData n => .sb8 n
  | .clearFirst => .lzwc (codeBits k.width k.clear)
  | .baseAfterClear c => .lzwc (codeBits k.width c.toNat)
  | .eoi => .lzwc (codeBits k.width k.eoi)
  | .clear => .lzwc (codeBits k.width k.clear)
  | .known c => .lzwc (codeBits k.width c.toNat)
  | .kwkwk => .lzwc (codeBits k.width k.next)

/-- The instruction the decoder reads from a row's bits numbered as spec/opcode_table.json numbers them: a
CMD32 row has 32 bits, an SB8 row 8. The LZWc rows have no bits of their own in the table (a code's width
and class come from the decoder's context), so no bare number spells one (log 15). -/
def decodeTableWord (nbits w : Nat) : Option Instr :=
  if nbits = 32 ∧ w < 2 ^ 32 then (decodeCommand (word w)).toOption
  else if nbits = 8 ∧ w < 2 ^ 8 then some (decodeLength (BitVec.ofNat 8 w))
  else none

end Sys2Proof
end

