-- ==== Sys2Proof/Machine/State.lean ====
section
/-! DEFINITION. Everything the spec gives the machine (10_state.md R20 to R58, 44_control.md R230), as plain
data, and the machine right after reset (70_reset_and_hazards.md R281 to R283). -/

namespace Sys2Proof.Machine

/-- The error names of 60_exceptions.md R250. `none` is the reset value of `ERR_CODE`. -/
inductive ErrCode where
  | none
  | badCmd
  | sequence
  | badMcs
  | badDisposal
  | sbOverrun
  | bitOverrun
  | pixelRange
  | frameBounds
  | length
  | firstNotClear
  | afterClearNotBase
  | codeBeyondNext
  | dictOverflow
  | resSrc
  | resCbuf
  | resIdx
  | resCanvas
  deriving DecidableEq, Repr

/-- The four disposal methods (30_encoding.md R95). -/
inductive Disposal where
  | none
  | doNotDispose
  | restoreBackground
  | restorePrevious
  deriving DecidableEq, Repr

/-- A 32-bit RGBA cell, its four bytes in order (30_encoding.md R103). -/
structure Pixel where
  r : Byte
  g : Byte
  b : Byte
  a : Byte
  deriving DecidableEq, Repr

/-- A dictionary entry (10_state.md R56). -/
structure DictEntry where
  byte : Byte
  pred : BitVec 12
  deriving DecidableEq, Repr

/-- A pair of 16-bit pixel counts (10_state.md R41, R43, R51). -/
structure Extent where
  w : BitVec 16
  h : BitVec 16
  deriving DecidableEq, Repr

/-- A position on the canvas (10_state.md R42). -/
structure Position where
  left : BitVec 16
  top  : BitVec 16
  deriving DecidableEq, Repr

/-- The fields of `FRM_CTRL` (10_state.md R44). -/
structure FrmCtrl where
  interlace : Bool
  transEn   : Bool
  disposal  : BitVec 3
  ctSize    : BitVec 3
  deriving DecidableEq, Repr

/-- The stored bits of `STATUS` (10_state.md R25 to R32). `IRQ` is computed (R33). -/
@[ext] structure Status where
  busy      : Bool
  done      : Bool
  err       : Bool
  docOpen   : Bool
  cbufValid : Bool
  idxValid  : Bool
  snapValid : Bool
  wbusy     : Bool
  deriving DecidableEq, Repr

/-- The four flags of STATUS that say what the block holds (10_state.md R28 to R31). -/
structure Holdings where
  docOpen   : Bool
  cbufValid : Bool
  idxValid  : Bool
  snapValid : Bool
  deriving DecidableEq, Repr

/-- What STATUS says the block holds. -/
def Status.holdings (t : Status) : Holdings :=
  { docOpen := t.docOpen, cbufValid := t.cbufValid, idxValid := t.idxValid, snapValid := t.snapValid }

/-- The error registers (10_state.md R35 to R37), written only by the error entry. -/
structure ErrRegs where
  code : ErrCode
  info : Word
  aux  : Word
  deriving DecidableEq, Repr

/-- The registers only the host writes (10_state.md R38, R40 to R46). -/
structure Operands where
  srcLen     : Word
  lzwMcs     : Byte
  canvasSize : Extent
  frmPos     : Position
  frmSize    : Extent
  frmCtrl    : FrmCtrl
  frmTrans   : Byte
  frmDelay   : BitVec 16
  deriving DecidableEq, Repr

/-- The LZW working registers (10_state.md R55). -/
@[ext] structure Lzw where
  mcsL   : BitVec 4
  width  : BitVec 4
  next   : BitVec 13
  prev   : BitVec 12
  phase  : Phase
  expLen : Word
  deriving DecidableEq, Repr

/-- The capacity registers (10_state.md R54): constants of the implementation. -/
structure Caps where
  src    : Word
  cbuf   : Word
  idx    : Word
  canvas : Word
  deriving DecidableEq, Repr

/-- The eight memories (20_memory.md R60), each a list of (address, value) pairs in the canonical form of
`Mem.wf`: addresses rising, no pair equal to what an unlisted address reads as. -/
@[ext] structure Memory where
  src    : List Host.Cell
  ct     : List Host.Cell
  cbuf   : List Host.Cell
  idx    : List Host.Cell
  dict   : List (Nat × DictEntry)
  canvas : List (Nat × Pixel)
  save   : List (Nat × Pixel)
  snap   : List (Nat × Pixel)
  deriving DecidableEq, Repr

/-- What the core runs next (44_control.md R230, R232): nothing; an accepted command word; or, within a
running ASSEMBLE or LZW_DECODE body, the next length byte (40_subblock.md R123) or the next code
(42_lzw.md R158). `image` says the body runs inside an IMAGE command (44_control.md R237). -/
inductive Pending where
  | none
  | word (v : Word)
  | subBlock (image : Bool)
  | code (image : Bool)
  deriving DecidableEq, Repr

/-- The two agents (00_scope.md R5). -/
inductive Agent where
  | host
  | core
  deriving DecidableEq, Repr

/-- The host-visible spaces (20_memory.md R60). -/
inductive Space where
  | regs
  | src
  | ct
  | snap
  deriving DecidableEq, Repr

/-- The registers of the map of 10_state.md, in its order. -/
inductive Reg where
  | id
  | cmd
  | status
  | irqEn
  | errCode
  | errInfo
  | errAux
  | srcLen
  | srcPtr
  | lzwMcs
  | canvasSize
  | frmPos
  | frmSize
  | frmCtrl
  | frmTrans
  | frmDelay
  | cbufLen
  | idxLen
  | frameCount
  | snapDelay
  | docSize
  | lzwState
  | brPos
  | capSrc
  | capCbuf
  | capIdx
  | capCanvas
  deriving DecidableEq, Repr

/-- What a host access does (20_memory.md R74). -/
inductive BusOp where
  | read
  | write (v : Word)
  deriving DecidableEq, Repr

/-- One host access: a (space, offset) pair (20_memory.md R66), the number of bytes it is wide, and what it
does. Any shape can be written down here; R71 says which exist. -/
structure BusAccess where
  space  : Space
  offset : Nat
  bytes  : Nat
  op     : BusOp
  deriving DecidableEq, Repr

/-- One thing the outside world does: an access, one round of waiting for `BUSY = 0` (30_encoding.md R108,
WAIT), or a hardware reset that carries the memory contents drawn for it (70_reset_and_hazards.md R283). -/
inductive HostEvent where
  | access (a : BusAccess)
  | wait
  | hardReset (drawn : Memory)
  deriving DecidableEq, Repr

/-- The model's own fields: whose turn is next (log 4); how many instructions each of the core's coming steps
runs (log 5); the host's events to come and the values its reads returned, newest first (log 3); how many free
values have been drawn (log 6); and the holdings STATUS shows while a command runs, those at its acceptance
(log 16). -/
@[ext] structure Env where
  turns : List Agent
  paces : List Nat
  host  : List HostEvent
  reads : List Word
  draws : Nat
  shown : Holdings
  deriving DecidableEq, Repr

/-- The whole machine. -/
@[ext]
structure State where
  status     : Status
  irqEn      : Bool
  err        : ErrRegs
  op         : Operands
  srcPtr     : Word
  cbufLen    : Word
  idxLen     : Word
  frameCount : Word
  snapDelay  : BitVec 16
  docSize    : Extent
  brPos      : Word
  lzw        : Lzw
  caps       : Caps
  mem        : Memory
  pending    : Pending
  env        : Env
  deriving DecidableEq, Repr

/-- Where the machine stops. Both are raised by core steps in states no run reaches; no state that meets
`Inv` (Safety.lean) raises one. -/
inductive Fault where
  /-- A dictionary chain longer than the dictionary (42_lzw.md R154, R155): the hardware loop would not end.
  Raised by KNOWN and KWKWK. Safe. -/
  | chainUnbounded
  /-- A code is to be taken while PHASE is IDLE or DONE, for which 30_encoding.md R100 has no row. Raised by
  the core's code step. Safe. -/
  | codeOutsideDecode
  deriving DecidableEq, Repr

/-- What the machine has no move for. -/
inductive Refusal where
  /-- An instruction without a meaning; no arm of exec answers it. Safe. -/
  | notModelled (mnemonic : String)
  /-- A host access whose width or alignment 20_memory.md R71 does not have; R72 says the model refuses
  it. Raised by the host's turn. Safe. -/
  | accessShape
  /-- A register access at an offset outside the 256 bytes of REGS (20_memory.md R61): it is an access to no
  space. Raised by the host's turn. Safe. -/
  | outsideRegs
  deriving DecidableEq, Repr

/-- What a step or a meaning answers. -/
abbrev Res := Host.Outcome State Fault Refusal

/-- What a memory with nothing listed holds. -/
def Memory.empty : Memory :=
  { src := [], ct := [], cbuf := [], idx := [], dict := [], canvas := [], save := [], snap := [] }

/-- STATUS after reset (70_reset_and_hazards.md R281). -/
def Status.reset : Status :=
  { busy := false, done := false, err := false, docOpen := false, cbufValid := false,
    idxValid := false, snapValid := false, wbusy := false }

/-- The error registers after reset (R281). -/
def ErrRegs.reset : ErrRegs := { code := .none, info := 0, aux := 0 }

/-- The host's registers after reset (R281). -/
def Operands.reset : Operands :=
  { srcLen := 0, lzwMcs := 0, canvasSize := ⟨0, 0⟩, frmPos := ⟨0, 0⟩, frmSize := ⟨0, 0⟩,
    frmCtrl := { interlace := false, transEn := false, disposal := 0, ctSize := 0 },
    frmTrans := 0, frmDelay := 0 }

/-- The LZW working registers after reset (R282). -/
def Lzw.reset : Lzw :=
  { mcsL := 0, width := 0, next := 0, prev := 0, phase := .idle, expLen := 0 }

/-- DESIGN CHOICE (log 1): the capacities of the machine `State.reset` names. -/
def Caps.reset : Caps :=
  { src := Config.resetCapacity, cbuf := Config.resetCapacity, idx := Config.resetCapacity,
    canvas := Config.resetCapacity }

/-- DESIGN CHOICE (logs 3, 4, 5, 6, 16): no input has been given yet and no command accepted. -/
def Env.reset : Env :=
  { turns := [], paces := [], host := [], reads := [], draws := 0, shown := Status.reset.holdings }

/-- Every register and internal state element at its reset value (70_reset_and_hazards.md R281, R282), on
given memories, capacities and surroundings. -/
def State.resetOn (caps : Caps) (mem : Memory) (env : Env) : State :=
  { status := Status.reset, irqEn := false, err := ErrRegs.reset, op := Operands.reset,
    srcPtr := 0, cbufLen := 0, idxLen := 0, frameCount := 0, snapDelay := 0, docSize := ⟨0, 0⟩,
    brPos := 0, lzw := Lzw.reset, caps := caps, mem := mem, pending := .none, env := env }

/-- The machine right after a hardware reset (70_reset_and_hazards.md R280 to R283); the memory contents are
a DESIGN CHOICE (log 2). -/
def State.reset : State := State.resetOn Caps.reset Memory.empty Env.reset

end Sys2Proof.Machine
end

