-- ==== Sys2Proof/Machine/Ops.lean ====
section
/-! DEFINITION. The named operations over memory and registers, the error entry every command shares
(60_exceptions.md R268), and beside it what leaves the error state (R270): SOFT_RESET's restore and the
hardware reset. -/

namespace Sys2Proof.Machine

/-! ## Sparse memories -/

section Sparse
variable {α : Type} [DecidableEq α]

/-- The value at `a`; `d` is what an unlisted address reads as. -/
def Mem.read (d : α) : List (Nat × α) → Nat → α
  | [], _ => d
  | (k, x) :: m, a => if k = a then x else Mem.read d m a

/-- `v` stored at `a`, keeping addresses rising and no pair equal to the unlisted value. -/
def Mem.write (d : α) : List (Nat × α) → Nat → α → List (Nat × α)
  | [], a, v => if v = d then [] else [(a, v)]
  | (k, x) :: m, a, v =>
    if a < k then (if v = d then (k, x) :: m else (a, v) :: (k, x) :: m)
    else if a = k then (if v = d then m else (a, v) :: m)
    else (k, x) :: Mem.write d m a v

/-- Stores made one after the other, first pair first. -/
def Mem.writeAll (d : α) (m : List (Nat × α)) (ps : List (Nat × α)) : List (Nat × α) :=
  ps.foldl (fun m p => Mem.write d m p.1 p.2) m

/-- The canonical form from address `lo` on. -/
def Mem.wfFrom (d : α) : Nat → List (Nat × α) → Bool
  | _, [] => true
  | lo, (k, x) :: m => decide (lo ≤ k) && decide (x ≠ d) && Mem.wfFrom d (k + 1) m

/-- The canonical form: addresses strictly rising, no pair equal to what an unlisted address reads as. -/
def Mem.wf (d : α) (m : List (Nat × α)) : Bool := Mem.wfFrom d 0 m

/-- Every listed address is below `cap`. -/
def Mem.within (cap : Nat) (m : List (Nat × α)) : Bool := m.all fun p => decide (p.1 < cap)

/-- The canonical memory that holds a list of drawn pairs, those at `cap` and above left out. -/
def Mem.canon (d : α) (cap : Nat) (ps : List (Nat × α)) : List (Nat × α) :=
  Mem.writeAll d [] (ps.filter fun p => decide (p.1 < cap))

end Sparse

/-- What an unlisted pixel cell reads as (log 2). -/
def unwrittenPixel : Pixel :=
  ⟨Config.unwrittenByte, Config.unwrittenByte, Config.unwrittenByte, Config.unwrittenByte⟩

/-- What an unlisted dictionary entry reads as (log 2). -/
def unwrittenEntry : DictEntry := ⟨Config.unwrittenByte, 0⟩

/-- The canonical form of all eight memories. -/
def Memory.wf (m : Memory) : Bool :=
  Mem.wf Config.unwrittenByte m.src && Mem.wf Config.unwrittenByte m.ct &&
  Mem.wf Config.unwrittenByte m.cbuf && Mem.wf Config.unwrittenByte m.idx &&
  Mem.wf unwrittenEntry m.dict && Mem.wf unwrittenPixel m.canvas &&
  Mem.wf unwrittenPixel m.save && Mem.wf unwrittenPixel m.snap

/-- Every listed address exists: the sizes of 20_memory.md R62 to R65. -/
def Memory.within (c : Caps) (m : Memory) : Bool :=
  Mem.within c.src.toNat m.src && Mem.within Config.ctBytes m.ct &&
  Mem.within c.cbuf.toNat m.cbuf && Mem.within c.idx.toNat m.idx &&
  Mem.within Config.dictSize m.dict && Mem.within c.canvas.toNat m.canvas &&
  Mem.within c.canvas.toNat m.save && Mem.within c.canvas.toNat m.snap

/-- The memories after a hardware reset that drew these contents (70_reset_and_hazards.md R283). -/
def Memory.canon (c : Caps) (m : Memory) : Memory :=
  { src := Mem.canon Config.unwrittenByte c.src.toNat m.src,
    ct := Mem.canon Config.unwrittenByte Config.ctBytes m.ct,
    cbuf := Mem.canon Config.unwrittenByte c.cbuf.toNat m.cbuf,
    idx := Mem.canon Config.unwrittenByte c.idx.toNat m.idx,
    dict := Mem.canon unwrittenEntry Config.dictSize m.dict,
    canvas := Mem.canon unwrittenPixel c.canvas.toNat m.canvas,
    save := Mem.canon unwrittenPixel c.canvas.toNat m.save,
    snap := Mem.canon unwrittenPixel c.canvas.toNat m.snap }

/-! ## Reads of one cell (00_scope.md R12) -/

/-- `MemRead(SRC, a, 1)`. -/
def State.srcAt (s : State) (a : Nat) : Byte := Mem.read Config.unwrittenByte s.mem.src a

/-- `MemRead(CT, a, 1)`. -/
def State.ctAt (s : State) (a : Nat) : Byte := Mem.read Config.unwrittenByte s.mem.ct a

/-- `MemRead(CBUF, a, 1)`. -/
def State.cbufAt (s : State) (a : Nat) : Byte := Mem.read Config.unwrittenByte s.mem.cbuf a

/-- `IDX[k]`. -/
def State.idxAt (s : State) (k : Nat) : Byte := Mem.read Config.unwrittenByte s.mem.idx k

/-- `DICT[e]`. -/
def State.dictAt (s : State) (e : Nat) : DictEntry := Mem.read unwrittenEntry s.mem.dict e

/-- CANVAS cell `a`. -/
def State.canvasAt (s : State) (a : Nat) : Pixel := Mem.read unwrittenPixel s.mem.canvas a

/-- SAVE cell `a`. -/
def State.saveAt (s : State) (a : Nat) : Pixel := Mem.read unwrittenPixel s.mem.save a

/-- SNAP cell `a`. -/
def State.snapAt (s : State) (a : Nat) : Pixel := Mem.read unwrittenPixel s.mem.snap a

/-! ## Stores to one space -/

/-- Stores to SRC. -/
def State.storeSrc (s : State) (ps : List Host.Cell) : State :=
  { s with mem := { s.mem with src := Mem.writeAll Config.unwrittenByte s.mem.src ps } }

/-- Stores to CT. -/
def State.storeCt (s : State) (ps : List Host.Cell) : State :=
  { s with mem := { s.mem with ct := Mem.writeAll Config.unwrittenByte s.mem.ct ps } }

/-- Stores to CBUF. -/
def State.storeCbuf (s : State) (ps : List Host.Cell) : State :=
  { s with mem := { s.mem with cbuf := Mem.writeAll Config.unwrittenByte s.mem.cbuf ps } }

/-- Stores to IDX. -/
def State.storeIdx (s : State) (ps : List Host.Cell) : State :=
  { s with mem := { s.mem with idx := Mem.writeAll Config.unwrittenByte s.mem.idx ps } }

/-- A store to DICT. -/
def State.storeDict (s : State) (e : Nat) (x : DictEntry) : State :=
  { s with mem := { s.mem with dict := Mem.write unwrittenEntry s.mem.dict e x } }

/-- Stores to CANVAS. -/
def State.storeCanvas (s : State) (ps : List (Nat × Pixel)) : State :=
  { s with mem := { s.mem with canvas := Mem.writeAll unwrittenPixel s.mem.canvas ps } }

/-- Stores to SAVE. -/
def State.storeSave (s : State) (ps : List (Nat × Pixel)) : State :=
  { s with mem := { s.mem with save := Mem.writeAll unwrittenPixel s.mem.save ps } }

/-- Stores to SNAP. -/
def State.storeSnap (s : State) (ps : List (Nat × Pixel)) : State :=
  { s with mem := { s.mem with snap := Mem.writeAll unwrittenPixel s.mem.snap ps } }

/-- The bytes `bs` at the addresses from `a` on. -/
def placed {α : Type} (a : Nat) : List α → List (Nat × α)
  | [] => []
  | b :: bs => (a, b) :: placed (a + 1) bs

/-! ## Ways a command ends -/

/-- Is the running body part of an IMAGE command (44_control.md R237)? -/
def Pending.inImage : Pending → Bool
  | .none => false
  | .word _ => false
  | .subBlock image => image
  | .code image => image

/-- Completion without error of a command other than SOFT_RESET (44_control.md R233 (a)). -/
def State.complete (s : State) : State :=
  { s with status := { s.status with busy := false, done := true }, pending := .none }

/-- The error entry (60_exceptions.md R268): the one way an error is taken, by every command. -/
def State.errorEntry (code : ErrCode) (info aux : Word) (s : State) : State :=
  { s with
    err := { code := code, info := info, aux := aux },
    status := { s.status with err := true, done := false, docOpen := false, cbufValid := false,
                              idxValid := false, snapValid := false, busy := false },
    pending := .none }

/-- `raise Error(code, info, aux)` (00_scope.md R12): nothing of the command follows. The context words are
naturals narrowed to their registers (log 13). -/
def raise (code : ErrCode) (info aux : Nat) (s : State) : Res :=
  .next (s.errorEntry code (word info) (word aux))

/-- SOFT_RESET's restore (70_reset_and_hazards.md R284): registers and internal state to their reset values,
memories kept; `BUSY` and `DONE` end 0 (44_control.md R235). -/
def State.softReset (s : State) : State := State.resetOn s.caps s.mem s.env

/-- The hardware reset (70_reset_and_hazards.md R280, R283): as SOFT_RESET, but the memories take the drawn
contents, and a running command ends without an error entry. -/
def State.hardReset (drawn : Memory) (s : State) : State :=
  State.resetOn s.caps (drawn.canon s.caps) s.env

end Sys2Proof.Machine
end

