-- ==== Sys2Proof/Machine/Flags.lean ====
section
/-! DEFINITION. Every flag computation: the interrupt level (60_exceptions.md R274), the STATUS word
(10_state.md R24), the numeric codes of errors and phases, and the violation bits of the frame bounds check
(43_compositor.md R194). -/

namespace Sys2Proof.Machine

/-- The interrupt output, `IRQ_EN.EN AND (DONE OR ERR)` (60_exceptions.md R274). -/
def State.irq (s : State) : Bool := s.irqEn && (s.status.done || s.status.err)

/-- The holdings STATUS shows. While `BUSY = 1` they are those at the command's acceptance, whatever the
command has done to them since: no effect of it but `BUSY` is observable before its end (20_memory.md R77,
log 16). -/
def State.heldSeen (s : State) : Holdings := if s.status.busy then s.env.shown else s.status.holdings

/-- The STATUS word (10_state.md R24 to R33, 20_memory.md R76, R77). -/
def State.statusWord (s : State) : Word :=
  word (bit s.status.busy + 2 * bit s.status.done + 4 * bit s.status.err + 8 * bit s.heldSeen.docOpen +
    16 * bit s.heldSeen.cbufValid + 32 * bit s.heldSeen.idxValid + 64 * bit s.heldSeen.snapValid +
    128 * bit s.status.wbusy + 256 * bit s.irq)

/-- The numeric error codes (60_exceptions.md R250). -/
def ErrCode.byte : ErrCode → Byte
  | .none => 0x00
  | .badCmd => 0x01
  | .sequence => 0x02
  | .badMcs => 0x03
  | .badDisposal => 0x04
  | .sbOverrun => 0x10
  | .bitOverrun => 0x11
  | .pixelRange => 0x12
  | .frameBounds => 0x13
  | .length => 0x14
  | .firstNotClear => 0x20
  | .afterClearNotBase => 0x21
  | .codeBeyondNext => 0x22
  | .dictOverflow => 0x23
  | .resSrc => 0x30
  | .resCbuf => 0x31
  | .resIdx => 0x32
  | .resCanvas => 0x33

/-- The numeric phases (30_encoding.md R105). -/
def phaseNumber : Phase → Nat
  | .idle => 0
  | .expectClear => 1
  | .afterClear => 2
  | .normal => 3
  | .done => 4

/-- The disposal methods by code (30_encoding.md R95); 4 to 7 name none. -/
def disposalOf (d : BitVec 3) : Option Disposal :=
  match d.toNat with
  | 0 => some .none
  | 1 => some .doNotDispose
  | 2 => some .restoreBackground
  | 3 => some .restorePrevious
  | _ => none

/-- `hb`: the frame passes the canvas's right edge (43_compositor.md R194 step 2), on naturals. -/
def State.beyondRight (s : State) : Bool :=
  decide (s.op.frmPos.left.toNat + s.op.frmSize.w.toNat > s.docSize.w.toNat)

/-- `vb`: the frame passes the canvas's bottom edge (43_compositor.md R194 step 2), on naturals. -/
def State.beyondBottom (s : State) : Bool :=
  decide (s.op.frmPos.top.toNat + s.op.frmSize.h.toNat > s.docSize.h.toNat)

/-- The code width an added entry calls for (42_lzw.md R167): one more when the next index no longer fits,
up to 12. -/
def grownWidth (width next : Nat) : Nat :=
  if next ≥ 2 ^ width ∧ width < Config.maxWidth then width + 1 else width

end Sys2Proof.Machine
end

