-- ==== Sys2Proof/Machine/Operands.lean ====
section
/-! DEFINITION. Every operand form: register words packed from and unpacked to their fields (10_state.md R21
to R54), the code space (R55), the bit reader (41_bitreader.md), the frame rectangle, the row map and the
pixels a frame paints (43_compositor.md R195 to R201). -/

namespace Sys2Proof.Machine

/-! ## Register words -/

/-- The word of two 16-bit halves, the low half first (10_state.md R41 to R43, R51). -/
def halves (lo hi : BitVec 16) : Word := word (lo.toNat + 2 ^ 16 * hi.toNat)

/-- Bits [lo + n - 1 : lo] of a register word (00_scope.md R11). -/
def field (lo n : Nat) (v : Word) : BitVec n := v.extractLsb' lo n

/-- The FRM_CTRL word; reserved bits read 0 (10_state.md R44). -/
def FrmCtrl.pack (c : FrmCtrl) : Word :=
  word (bit c.interlace + 2 * bit c.transEn + 4 * c.disposal.toNat + 256 * c.ctSize.toNat)

/-- FRM_CTRL from a written word; reserved bits are dropped (10_state.md R21, R44). -/
def frmCtrlOf (v : Word) : FrmCtrl :=
  { interlace := v.getLsbD 0, transEn := v.getLsbD 1, disposal := field 2 3 v, ctSize := field 8 3 v }

/-- The LZW_STATE word (10_state.md R52). -/
def Lzw.pack (l : Lzw) : Word :=
  word (l.width.toNat + 2 ^ 4 * l.next.toNat + 2 ^ 17 * phaseNumber l.phase + 2 ^ 20 * l.prev.toNat)

/-- The FRM_POS word (10_state.md R42). -/
def Position.pack (p : Position) : Word := halves p.left p.top

/-- The word of CANVAS_SIZE, FRM_SIZE or DOC_SIZE (10_state.md R41, R43, R51). -/
def Extent.pack (e : Extent) : Word := halves e.w e.h

/-- The pixel count of an extent, a natural product (30_encoding.md R94). -/
abbrev Extent.area (e : Extent) : Nat := e.w.toNat * e.h.toNat

/-- The two fields of a written CANVAS_SIZE or FRM_SIZE word (10_state.md R41, R43). -/
def extentOf (v : Word) : Extent := { w := field 0 16 v, h := field 16 16 v }

/-- The two fields of a written FRM_POS word (10_state.md R42). -/
def positionOf (v : Word) : Position := { left := field 0 16 v, top := field 16 16 v }

/-- The offset of a register (10_state.md, register map). -/
def Reg.offset : Reg → Nat
  | .id => 0x00
  | .cmd => 0x04
  | .status => 0x08
  | .irqEn => 0x0C
  | .errCode => 0x10
  | .errInfo => 0x14
  | .errAux => 0x18
  | .srcLen => 0x20
  | .srcPtr => 0x24
  | .lzwMcs => 0x28
  | .canvasSize => 0x2C
  | .frmPos => 0x30
  | .frmSize => 0x34
  | .frmCtrl => 0x38
  | .frmTrans => 0x3C
  | .frmDelay => 0x40
  | .cbufLen => 0x44
  | .idxLen => 0x48
  | .frameCount => 0x4C
  | .snapDelay => 0x50
  | .docSize => 0x54
  | .lzwState => 0x58
  | .brPos => 0x5C
  | .capSrc => 0x60
  | .capCbuf => 0x64
  | .capIdx => 0x68
  | .capCanvas => 0x6C

/-- The registers in the order of the map. -/
def Reg.all : List Reg :=
  [.id, .cmd, .status, .irqEn, .errCode, .errInfo, .errAux, .srcLen, .srcPtr, .lzwMcs, .canvasSize,
   .frmPos, .frmSize, .frmCtrl, .frmTrans, .frmDelay, .cbufLen, .idxLen, .frameCount, .snapDelay,
   .docSize, .lzwState, .brPos, .capSrc, .capCbuf, .capIdx, .capCanvas]

/-- The register at an offset; none at a reserved offset (10_state.md R21). -/
def regAt (offset : Nat) : Option Reg := Reg.all.find? fun r => r.offset == offset

/-- The exact value of a register (10_state.md R22 to R54). -/
def State.regWord (s : State) : Reg → Word
  | .id => Config.idWord
  | .cmd => 0
  | .status => s.statusWord
  | .irqEn => word (bit s.irqEn)
  | .errCode => word s.err.code.byte.toNat
  | .errInfo => s.err.info
  | .errAux => s.err.aux
  | .srcLen => s.op.srcLen
  | .srcPtr => s.srcPtr
  | .lzwMcs => word s.op.lzwMcs.toNat
  | .canvasSize => s.op.canvasSize.pack
  | .frmPos => s.op.frmPos.pack
  | .frmSize => s.op.frmSize.pack
  | .frmCtrl => s.op.frmCtrl.pack
  | .frmTrans => word s.op.frmTrans.toNat
  | .frmDelay => word s.op.frmDelay.toNat
  | .cbufLen => s.cbufLen
  | .idxLen => s.idxLen
  | .frameCount => s.frameCount
  | .snapDelay => word s.snapDelay.toNat
  | .docSize => s.docSize.pack
  | .lzwState => s.lzw.pack
  | .brPos => s.brPos
  | .capSrc => s.caps.src
  | .capCbuf => s.caps.cbuf
  | .capIdx => s.caps.idx
  | .capCanvas => s.caps.canvas

/-- A write to a register other than CMD: writable fields store exactly the bits written, read-only
registers ignore it (10_state.md R21, R34, R38 to R46; 44_control.md R240). -/
def State.setReg (s : State) (r : Reg) (v : Word) : State :=
  match r with
  | .id => s
  | .cmd => s
  | .status => s
  | .irqEn => { s with irqEn := v.getLsbD 0 }
  | .errCode => s
  | .errInfo => s
  | .errAux => s
  | .srcLen => { s with op := { s.op with srcLen := v } }
  | .srcPtr => { s with srcPtr := v }
  | .lzwMcs => { s with op := { s.op with lzwMcs := field 0 8 v } }
  | .canvasSize => { s with op := { s.op with canvasSize := extentOf v } }
  | .frmPos => { s with op := { s.op with frmPos := positionOf v } }
  | .frmSize => { s with op := { s.op with frmSize := extentOf v } }
  | .frmCtrl => { s with op := { s.op with frmCtrl := frmCtrlOf v } }
  | .frmTrans => { s with op := { s.op with frmTrans := field 0 8 v } }
  | .frmDelay => { s with op := { s.op with frmDelay := field 0 16 v } }
  | .cbufLen => s
  | .idxLen => s
  | .frameCount => s
  | .snapDelay => s
  | .docSize => s
  | .lzwState => s
  | .brPos => s
  | .capSrc => s
  | .capCbuf => s
  | .capIdx => s
  | .capCanvas => s

/-! ## The code space (10_state.md R55) -/

/-- The context the next code is decoded in (30_encoding.md R100, R101). -/
def Lzw.ctx (l : Lzw) : CodeCtx :=
  { phase := l.phase, mcs := l.mcsL.toNat, width := l.width.toNat, next := l.next.toNat }

/-- `CLEAR = 2^MCS_L`. -/
def State.clearCode (s : State) : Nat := s.lzw.ctx.clear

/-- `EOI = CLEAR + 1`. -/
def State.eoiCode (s : State) : Nat := s.lzw.ctx.eoi

/-- `p0 = BR_POS - WIDTH`: the bit offset at which the code just taken started (42_lzw.md R158); read before
the step changes `WIDTH`. -/
def State.codeStart (s : State) : Nat := s.brPos.toNat - s.lzw.width.toNat

/-! ## The bit reader (41_bitreader.md) -/

/-- Bit `q` of the stream: bit `q mod 8` of CBUF byte `q div 8` (20_memory.md R68). -/
def State.streamBit (s : State) (q : Nat) : Bool := (s.cbufAt (q / 8)).getLsbD (q % 8)

/-- The `w` stream bits from the cursor on (41_bitreader.md R141). -/
def State.bitsAhead (s : State) (w : Nat) : List Bool :=
  (List.range w).map fun i => s.streamBit (s.brPos.toNat + i)

/-- Fewer than `w` bits remain (41_bitreader.md R142). -/
def State.bitsShort (s : State) (w : Nat) : Bool := decide (s.brPos.toNat + w > 8 * s.cbufLen.toNat)

/-- The cursor moved past a code of `w` bits (41_bitreader.md R141). -/
def State.advanceBits (s : State) (w : Nat) : State := { s with brPos := word (s.brPos.toNat + w) }

/-- `take(w)` (41_bitreader.md R141, R142): the code and the state after it, or the error entry with the
cursor unmoved. -/
def State.take (s : State) (w : Nat) : Except Res (Nat × State) :=
  if s.bitsShort w then .error (raise .bitOverrun s.brPos.toNat w s)
  else .ok (bitsValue (s.bitsAhead w), s.advanceBits w)

/-! ## The frame -/

/-- `CT_LEN = 2^(CT_SIZE + 1)` (30_encoding.md R94). -/
def State.ctLen (s : State) : Nat := 2 ^ (s.op.frmCtrl.ctSize.toNat + 1)

/-- Canvas cell of pixel `(x, y)` (20_memory.md R65). -/
def State.cellOf (s : State) (x y : Nat) : Nat := y * s.docSize.w.toNat + x

/-- Cell of pixel `x` of row `r` of the frame rectangle. -/
def State.frameCell (s : State) (x r : Nat) : Nat :=
  s.cellOf (s.op.frmPos.left.toNat + x) (s.op.frmPos.top.toNat + r)

/-- The cells of the frame rectangle, row by row (43_compositor.md R198, R204, R205). -/
def State.frameCells (s : State) : List Nat :=
  (List.range s.op.frmSize.h.toNat).flatMap fun r =>
    (List.range s.op.frmSize.w.toNat).map fun x => s.frameCell x r

/-- Rows of one interlace pass (43_compositor.md R195). -/
def passRows (h start stride : Nat) : Nat := if h > start then (h - start - 1) / stride + 1 else 0

/-- The row map over the passes still to come (43_compositor.md R195). -/
def rowmapFrom (h : Nat) : List (Nat × Nat) → Nat → Nat
  | [], k => k
  | (start, stride) :: ps, k =>
    if k < passRows h start stride then start + k * stride
    else rowmapFrom h ps (k - passRows h start stride)

/-- The true row of decoded row `r` of an interlaced frame of height `h` (43_compositor.md R195): pass starts
0, 4, 2, 1 and strides 8, 8, 4, 2. -/
def rowmap (r h : Nat) : Nat := rowmapFrom h [(0, 8), (4, 8), (2, 4), (1, 2)] r

/-- The row of the frame rectangle that decoded row `r` is drawn on (43_compositor.md R197). -/
def State.drawnRow (s : State) (r : Nat) : Nat :=
  if s.op.frmCtrl.interlace then rowmap r s.op.frmSize.h.toNat else r

/-- The decoded index of pixel `x` of decoded row `r` (30_encoding.md R104). -/
def State.frameIndex (s : State) (x r : Nat) : Byte := s.idxAt (r * s.op.frmSize.w.toNat + x)

/-- Transparent-colour keying (43_compositor.md R200). -/
def State.transparent (s : State) (i : Byte) : Bool :=
  s.op.frmCtrl.transEn && decide (i = s.op.frmTrans)

/-- The fully transparent cell `T` (43_compositor.md R191). -/
def transparentCell : Pixel := ⟨0, 0, 0, 0⟩

/-- The colour a pixel of index `i` paints (43_compositor.md R201). -/
def State.colour (s : State) (i : Byte) : Pixel :=
  ⟨s.ctAt (3 * i.toNat), s.ctAt (3 * i.toNat + 1), s.ctAt (3 * i.toNat + 2), 0xFF⟩

/-- The pixels the frame paints, in drawing order; transparent ones are skipped (43_compositor.md R192,
R199 to R201). -/
def State.painted (s : State) : List (Nat × Pixel) :=
  (List.range s.op.frmSize.h.toNat).flatMap fun r =>
    (List.range s.op.frmSize.w.toNat).filterMap fun x =>
      if s.transparent (s.frameIndex x r) then none
      else some (s.frameCell x (s.drawnRow r), s.colour (s.frameIndex x r))

/-- The lowest index position out of the active colour table (43_compositor.md R194 step 4). -/
def State.firstOutOfRange (s : State) : Option Nat :=
  (List.range s.idxLen.toNat).find? fun k => decide (s.ctLen ≤ (s.idxAt k).toNat)

/-- Byte `b` (0 to 3) of a cell, in the order R, G, B, A (30_encoding.md R103). -/
def Pixel.byteAt (p : Pixel) (b : Nat) : Byte :=
  match b with
  | 0 => p.r
  | 1 => p.g
  | 2 => p.b
  | _ => p.a

end Sys2Proof.Machine
end

