-- ==== Sys2Proof/Machine/Compositor.lean ====
section
/-! DEFINITION. The Frame Compositor's commands (43_compositor.md): BEGIN_DOC and COMPOSE. -/

namespace Sys2Proof.Machine

/-- Every cell of the open document's canvas. -/
def State.documentCells (s : State) : List Nat := List.range s.docSize.area

/-- BEGIN_DOC's effects once the canvas fits (43_compositor.md R190). -/
def State.openDocument (s : State) : State :=
  let s1 := { s with
    docSize := s.op.canvasSize,
    frameCount := 0,
    status := { s.status with snapValid := false, cbufValid := false, idxValid := false, docOpen := true } }
  s1.storeCanvas (s1.documentCells.map fun a => (a, transparentCell))

/-- BEGIN_DOC (43_compositor.md R190). -/
def execBeginDoc (s : State) : Res :=
  if s.op.canvasSize.area > s.caps.canvas.toNat then
    raise .resCanvas s.op.canvasSize.area s.caps.canvas.toNat s
  else .next s.openDocument.complete

/-- The pre-frame save of RestorePrevious (43_compositor.md R198). -/
def State.savePreFrame (d : Disposal) (s : State) : State :=
  match d with
  | .none => s
  | .doNotDispose => s
  | .restoreBackground => s
  | .restorePrevious => s.storeSave (s.frameCells.map fun a => (a, s.canvasAt a))

/-- The frame drawn on the canvas (43_compositor.md R197, R199). -/
def State.drawFrame (s : State) : State := s.storeCanvas s.painted

/-- The snapshot with its delay, and the frame count (43_compositor.md R202, R206). -/
def State.takeSnapshot (s : State) : State :=
  let s1 := s.storeSnap (s.documentCells.map fun a => (a, s.canvasAt a))
  { s1 with
    snapDelay := s1.op.frmDelay,
    status := { s1.status with snapValid := true },
    frameCount := word ((s1.frameCount.toNat + 1) % 2 ^ 32) }

/-- The disposal, after the snapshot (43_compositor.md R203 to R205). -/
def State.dispose (d : Disposal) (s : State) : State :=
  match d with
  | .none => s
  | .doNotDispose => s
  | .restoreBackground => s.storeCanvas (s.frameCells.map fun a => (a, transparentCell))
  | .restorePrevious => s.storeCanvas (s.frameCells.map fun a => (a, s.saveAt a))

/-- COMPOSE's effects once every check has passed (43_compositor.md R192). -/
def State.composite (d : Disposal) (s : State) : State :=
  let s1 := (((s.savePreFrame d).drawFrame).takeSnapshot).dispose d
  { s1 with status := { s1.status with idxValid := false } }

/-- The body of COMPOSE: the checks of 43_compositor.md R193 and R194 in order, then its effects. -/
def composeBody (s : State) : Res :=
  if s.status.docOpen = false then raise .sequence 0x05 1 s
  else if s.status.idxValid = false then raise .sequence 0x05 2 s
  else match disposalOf s.op.frmCtrl.disposal with
    | .none => raise .badDisposal s.op.frmCtrl.disposal.toNat 0 s
    | .some d =>
      if s.beyondRight || s.beyondBottom then
        raise .frameBounds s.op.frmPos.pack.toNat (bit s.beyondRight + 2 * bit s.beyondBottom) s
      else if s.idxLen.toNat ≠ s.op.frmSize.area then
        raise .length s.idxLen.toNat s.op.frmSize.area s
      else match s.firstOutOfRange with
        | .some k => raise .pixelRange k (s.idxAt k).toNat s
        | .none => .next (s.composite d).complete

/-- COMPOSE (43_compositor.md R192). -/
def execCompose (s : State) : Res := composeBody s

end Sys2Proof.Machine
end

