-- ==== Sys2Proof/Machine/Lzw.lean ====
section
/-! DEFINITION. The LZW Decompressor (42_lzw.md): LZW_DECODE and the six code classes. A code class runs after
`take` has moved the bit cursor past its code (R158). -/

namespace Sys2Proof.Machine

/-! ## Dictionary operations -/

/-- The loop of `translate` (42_lzw.md R154): `fuel` bounds the chain by the dictionary's capacity; `acc` is
the string read so far, in forward order. -/
def walkChain (dict : List (Nat × DictEntry)) (eoi : Nat) : Nat → Nat → List Byte → Option (List Byte)
  | 0, _, _ => none
  | fuel + 1, e, acc =>
    if e > eoi then
      walkChain dict eoi fuel (Mem.read unwrittenEntry dict e).pred.toNat
        ((Mem.read unwrittenEntry dict e).byte :: acc)
    else some (BitVec.ofNat 8 e :: acc)

/-- `translate(c)` (42_lzw.md R153 to R155); none where the chain is longer than the dictionary. -/
def State.translate (s : State) (c : Nat) : Option (List Byte) :=
  walkChain s.mem.dict s.eoiCode Config.dictSize c []

/-- Would `n` more indices pass the expected count (42_lzw.md R156)? -/
def State.emitOverflows (s : State) (n : Nat) : Bool := decide (s.idxLen.toNat + n > s.lzw.expLen.toNat)

/-- The append of `emit` (42_lzw.md R156), after its check. -/
def State.emit (s : State) (bs : List Byte) : State :=
  let s1 := s.storeIdx (placed s.idxLen.toNat bs)
  { s1 with idxLen := word (s.idxLen.toNat + bs.length) }

/-- `raise` of `emit` (42_lzw.md R156). -/
def raiseLength (n : Nat) (s : State) : Res :=
  raise .length (s.idxLen.toNat + n) s.lzw.expLen.toNat s

/-- `reset_dict()` (42_lzw.md R157): the entries stay. -/
def State.resetDict (s : State) : State :=
  { s with lzw := { s.lzw with width := BitVec.ofNat 4 (s.lzw.mcsL.toNat + 1),
                               next := BitVec.ofNat 13 (s.eoiCode + 1) } }

/-- `add_entry(b, p)` (42_lzw.md R167). -/
def State.addEntry (s : State) (b : Byte) (p : BitVec 12) : State :=
  let s1 := s.storeDict s.lzw.next.toNat { byte := b, pred := p }
  { s1 with lzw := { s1.lzw with
      next := BitVec.ofNat 13 (s.lzw.next.toNat + 1),
      width := BitVec.ofNat 4 (grownWidth s.lzw.width.toNat (s.lzw.next.toNat + 1)) } }

/-- The phase, moved. -/
def State.toPhase (s : State) (p : Phase) : State := { s with lzw := { s.lzw with phase := p } }

/-- `PREV <- c`. -/
def State.setPrev (s : State) (c : BitVec 12) : State := { s with lzw := { s.lzw with prev := c } }

/-! ## LZW_DECODE -/

/-- The initialisation of LZW_DECODE (42_lzw.md R152). -/
def State.startDecode (image : Bool) (s : State) : State :=
  { s with
    status := { s.status with idxValid := false },
    idxLen := 0,
    brPos := 0,
    lzw := { mcsL := BitVec.ofNat 4 s.op.lzwMcs.toNat,
             width := BitVec.ofNat 4 (s.op.lzwMcs.toNat + 1),
             next := BitVec.ofNat 13 (2 ^ s.op.lzwMcs.toNat + 2),
             prev := 0,
             phase := .expectClear,
             expLen := word s.op.frmSize.area },
    pending := .code image }

/-- The body of LZW_DECODE up to its first code (42_lzw.md R150 to R152); the codes are instructions of
their own (R158, log 5). -/
def lzwBody (image : Bool) (s : State) : Res :=
  if s.status.cbufValid = false then raise .sequence 0x04 3 s
  else if s.op.lzwMcs.toNat < 1 ∨ s.op.lzwMcs.toNat > 8 then raise .badMcs s.op.lzwMcs.toNat 0 s
  else if s.op.frmSize.area > s.caps.idx.toNat then raise .resIdx s.op.frmSize.area s.caps.idx.toNat s
  else .next (s.startDecode image)

/-- LZW_DECODE (42_lzw.md R150). -/
def execLzwDecode (s : State) : Res := lzwBody false s

/-- The end of the body (42_lzw.md R168): IDX is valid; within IMAGE the COMPOSE body follows
(44_control.md R237), otherwise the command completes. -/
def finishDecode (s : State) : Res :=
  let s1 := { s with status := { s.status with idxValid := true } }
  if s.pending.inImage then composeBody s1 else .next s1.complete

/-! ## The code classes -/

/-- CLEAR_FIRST (42_lzw.md R159). -/
def execClearFirst (s : State) : Res := .next (s.resetDict.toPhase .afterClear)

/-- BASE_AFTER_CLEAR (42_lzw.md R160). -/
def execBaseAfterClear (c : BitVec 12) (s : State) : Res :=
  if s.emitOverflows 1 then raiseLength 1 s
  else .next (((s.emit [BitVec.ofNat 8 c.toNat]).setPrev c).toPhase .normal)

/-- EOI (42_lzw.md R161, R168). -/
def execEoi (s : State) : Res :=
  if s.idxLen ≠ s.lzw.expLen then raise .length s.idxLen.toNat s.lzw.expLen.toNat s
  else finishDecode (s.toPhase .done)

/-- CLEAR (42_lzw.md R162). -/
def execClear (s : State) : Res := .next (s.resetDict.toPhase .afterClear)

/-- The part KNOWN and KWKWK share (42_lzw.md R163, R164): emit the string of code `c`, add the entry of its
first byte and `PREV`, and remember `c`. -/
def decodeString (str : List Byte) (c : BitVec 12) (s : State) : Res :=
  if s.emitOverflows str.length then raiseLength str.length s
  else .next (((s.emit str).addEntry (str.headD 0) s.lzw.prev).setPrev c)

/-- KNOWN (42_lzw.md R163, R166). -/
def execKnown (c : BitVec 12) (s : State) : Res :=
  if s.lzw.next.toNat = Config.dictSize then raise .dictOverflow s.codeStart c.toNat s
  else match s.translate c.toNat with
    | .none => .fault .chainUnbounded
    | .some str => decodeString str c s

/-- KWKWK (42_lzw.md R164): the code is `NEXT`. -/
def execKwkwk (s : State) : Res :=
  match s.translate s.lzw.prev.toNat with
  | .none => .fault .chainUnbounded
  | .some t => decodeString (t ++ [t.headD 0]) (BitVec.ofNat 12 s.lzw.next.toNat) s

end Sys2Proof.Machine
end

