-- ==== Sys2Proof/Machine/SubBlock.lean ====
section
/-! DEFINITION. The Sub-block Assembler (40_subblock.md): ASSEMBLE and the two length-byte classes. -/

namespace Sys2Proof.Machine

/-- ASSEMBLE's start (40_subblock.md R122): the first length byte is read next. -/
def State.startAssemble (image : Bool) (s : State) : State :=
  { s with status := { s.status with cbufValid := false }, cbufLen := 0, pending := .subBlock image }

/-- The body of ASSEMBLE up to its first length byte (40_subblock.md R120 to R122); the sub-blocks are
instructions of their own (R123, log 5). -/
def assembleBody (image : Bool) (s : State) : Res :=
  if s.op.srcLen.toNat > s.caps.src.toNat then raise .resSrc s.op.srcLen.toNat s.caps.src.toNat s
  else .next (s.startAssemble image)

/-- ASSEMBLE (40_subblock.md R120). -/
def execAssemble (s : State) : Res := assembleBody false s

/-- The end of the body (40_subblock.md R126): CBUF is valid; within IMAGE the LZW_DECODE body follows
(44_control.md R237), otherwise the command completes. -/
def finishAssemble (s : State) : Res :=
  let s1 := { s with status := { s.status with cbufValid := true } }
  if s.pending.inImage then lzwBody true s1 else .next s1.complete

/-- SB_TERM (40_subblock.md R124): the cursor moves past the terminator. -/
def execSbTerm (s : State) : Res := finishAssemble { s with srcPtr := word (s.srcPtr.toNat + 1) }

/-- The `n` payload bytes after the length byte at `p` (40_subblock.md R125). -/
def State.payload (s : State) (p n : Nat) : List Byte := (List.range n).map fun i => s.srcAt (p + 1 + i)

/-- The copy of one sub-block (40_subblock.md R125). -/
def State.copySubBlock (s : State) (n : Nat) : State :=
  let s1 := s.storeCbuf (placed s.cbufLen.toNat (s.payload s.srcPtr.toNat n))
  { s1 with cbufLen := word (s.cbufLen.toNat + n), srcPtr := word (s.srcPtr.toNat + 1 + n) }

/-- SB_DATA (40_subblock.md R125): overrun before capacity, then the copy. -/
def execSbData (n : Byte) (s : State) : Res :=
  if s.srcPtr.toNat + 1 + n.toNat > s.op.srcLen.toNat then raise .sbOverrun s.srcPtr.toNat n.toNat s
  else if s.cbufLen.toNat + n.toNat > s.caps.cbuf.toNat then
    raise .resCbuf (s.cbufLen.toNat + n.toNat) s.caps.cbuf.toNat s
  else .next (s.copySubBlock n.toNat)

end Sys2Proof.Machine
end

