-- ==== Sys2Proof/Machine/Control.lean ====
section
/-! DEFINITION. The commands of no unit (44_control.md R234 to R237) and acceptance (R230, R231). -/

namespace Sys2Proof.Machine

/-- NOP (44_control.md R234): nothing but its completion. -/
def execNop (s : State) : Res := .next s.complete

/-- SOFT_RESET (44_control.md R235). -/
def execSoftReset (s : State) : Res := .next s.softReset

/-- END_DOC (44_control.md R236). -/
def execEndDoc (s : State) : Res :=
  .next { s with status := { s.status with docOpen := false } }.complete

/-- IMAGE (44_control.md R237): its document check, then the ASSEMBLE body; the other two bodies follow as
the ones before them finish. -/
def execImage (s : State) : Res :=
  if s.status.docOpen = false then raise .sequence 0x06 1 s else assembleBody true s

/-- The word that is accepted even in the error state (44_control.md R231). -/
def softResetWord : Word := 0x00000001

/-- A host write of `v` to CMD (44_control.md R230): dropped while busy, ignored in the error state, else
accepted, with the holdings STATUS goes on showing kept aside (20_memory.md R77, log 16). -/
def State.issue (s : State) (v : Word) : State :=
  if s.status.busy then { s with status := { s.status with wbusy := true } }
  else if s.status.err = true ∧ v ≠ softResetWord then s
  else { s with status := { s.status with done := false, busy := true }, pending := .word v,
                env := { s.env with shown := s.status.holdings } }

end Sys2Proof.Machine
end

