-- ==== Sys2Proof/Machine/Dispatch.lean ====
section
/-! DEFINITION. One arm per instruction, each a direct call of its meaning. -/

namespace Sys2Proof.Machine

def exec (i : Instr) (s : State) : Host.Outcome State Fault Refusal :=
  match i with
  | .nop => Sys2Proof.Machine.execNop s
  | .softReset => Sys2Proof.Machine.execSoftReset s
  | .beginDoc => Sys2Proof.Machine.execBeginDoc s
  | .assemble => Sys2Proof.Machine.execAssemble s
  | .lzwDecode => Sys2Proof.Machine.execLzwDecode s
  | .compose => Sys2Proof.Machine.execCompose s
  | .image => Sys2Proof.Machine.execImage s
  | .endDoc => Sys2Proof.Machine.execEndDoc s
  | .sbTerm => Sys2Proof.Machine.execSbTerm s
  | .sbData n => Sys2Proof.Machine.execSbData n s
  | .clearFirst => Sys2Proof.Machine.execClearFirst s
  | .baseAfterClear c => Sys2Proof.Machine.execBaseAfterClear c s
  | .eoi => Sys2Proof.Machine.execEoi s
  | .clear => Sys2Proof.Machine.execClear s
  | .known c => Sys2Proof.Machine.execKnown c s
  | .kwkwk => Sys2Proof.Machine.execKwkwk s

end Sys2Proof.Machine
end

