-- ==== Sys2Proof/Machine/HostBus.lean ====
section
/-! DEFINITION. The host's accesses (20_memory.md R60 to R76, R288) and the other events of the outside world
(log 3). -/

namespace Sys2Proof.Machine

/-- The shapes of access that exist (20_memory.md R71). -/
def BusAccess.shapeOk (a : BusAccess) : Bool :=
  match a.space with
  | .regs => decide (a.bytes = 4) && decide (a.offset % 4 = 0)
  | .src => decide (a.bytes = 1)
  | .ct => decide (a.bytes = 1)
  | .snap => decide (a.bytes = 1)

/-- A register access lies in the 256 bytes of REGS (20_memory.md R61). -/
def BusAccess.inRegs (a : BusAccess) : Bool :=
  match a.space with
  | .regs => decide (a.offset < Config.regsBytes)
  | .src => true
  | .ct => true
  | .snap => true

/-- The exact value at a register offset; reserved offsets read 0 (10_state.md R21). -/
def State.readRegs (s : State) (offset : Nat) : Word :=
  match regAt offset with
  | .some r => s.regWord r
  | .none => 0

/-- A host read of SRC (20_memory.md R62). -/
def State.readSrc (s : State) (a : Nat) : Byte := if a < s.caps.src.toNat then s.srcAt a else 0

/-- A host read of CT (20_memory.md R63). -/
def State.readCt (s : State) (a : Nat) : Byte := if a < Config.ctBytes then s.ctAt a else 0

/-- A host read of SNAP (20_memory.md R64), whether or not `SNAP_VALID`. -/
def State.readSnap (s : State) (a : Nat) : Byte :=
  if a < 4 * s.docSize.area then (s.snapAt (a / 4)).byteAt (a % 4) else 0

/-- The registers whose reads stay exact while a command runs (20_memory.md R76). -/
def exactWhileBusy (offset : Nat) : Bool :=
  match regAt offset with
  | .some .status => true
  | .some .id => true
  | .some .capSrc => true
  | .some .capCbuf => true
  | .some .capIdx => true
  | .some .capCanvas => true
  | _ => false

/-- Is the value a read returns a free draw (20_memory.md R76, 70_reset_and_hazards.md R288)? -/
def State.readIsDraw (s : State) (a : BusAccess) : Bool :=
  match a.space with
  | .regs => s.status.busy && !exactWhileBusy a.offset
  | .src => false
  | .ct => false
  | .snap => s.status.busy

/-- The exact value of a read, a byte as a number (20_memory.md R62 to R64). -/
def State.readExact (s : State) (a : BusAccess) : Word :=
  match a.space with
  | .regs => s.readRegs a.offset
  | .src => word (s.readSrc a.offset).toNat
  | .ct => word (s.readCt a.offset).toNat
  | .snap => word (s.readSnap a.offset).toNat

/-- The value drawn for a read (log 6). -/
def State.readDrawn (s : State) (a : BusAccess) : Word :=
  match a.space with
  | .regs => Config.freeWord s.env.draws
  | .src => s.readExact a
  | .ct => s.readExact a
  | .snap => word (Config.freeByte s.env.draws).toNat

/-- A value the host has read, recorded. -/
def State.record (s : State) (v : Word) : State := { s with env := { s.env with reads := v :: s.env.reads } }

/-- A host read: it changes nothing of the block (20_memory.md R74). -/
def State.hostRead (s : State) (a : BusAccess) : State :=
  if s.readIsDraw a then
    let s1 := s.record (s.readDrawn a)
    { s1 with env := { s1.env with draws := s1.env.draws + 1 } }
  else s.record (s.readExact a)

/-- A write dropped while a command runs (20_memory.md R75, 44_control.md R239). -/
def State.dropWrite (s : State) : State := { s with status := { s.status with wbusy := true } }

/-- A register write (10_state.md R21, R23; 44_control.md R230, R240). -/
def State.writeRegs (s : State) (offset : Nat) (v : Word) : State :=
  match regAt offset with
  | .some .cmd => s.issue v
  | .some r => s.setReg r v
  | .none => s

/-- A host write (20_memory.md R62 to R64, R74, R75): the byte spaces take the low byte, SNAP takes none. -/
def State.hostWrite (s : State) (a : BusAccess) (v : Word) : State :=
  if s.status.busy then s.dropWrite
  else match a.space with
    | .regs => s.writeRegs a.offset v
    | .src => if a.offset < s.caps.src.toNat then s.storeSrc [(a.offset, field 0 8 v)] else s
    | .ct => if a.offset < Config.ctBytes then s.storeCt [(a.offset, field 0 8 v)] else s
    | .snap => s

/-- One host access (20_memory.md R71, R72). -/
def hostAccess (a : BusAccess) (s : State) : Res :=
  if a.shapeOk = false then .refused .accessShape
  else if a.inRegs = false then .refused .outsideRegs
  else match a.op with
    | .read => .next (s.hostRead a)
    | .write v => .next (s.hostWrite a v)

/-- The read of STATUS. -/
def statusRead : BusAccess := { space := .regs, offset := 0x08, bytes := 4, op := .read }

/-- One event of the outside world, taken off the list of events to come. A WAIT reads STATUS and stays on
the list while `BUSY = 1` (30_encoding.md R108, log 10). -/
def hostEvent (e : HostEvent) (s : State) : Res :=
  match e with
  | .access a => hostAccess a s
  | .wait =>
    let s1 := s.hostRead statusRead
    if s.status.busy then .next { s1 with env := { s1.env with host := .wait :: s1.env.host } } else .next s1
  | .hardReset drawn => .next (s.hardReset drawn)

/-- The host's turn: its first event to come; none if it has none. -/
def hostTurn (s : State) : Res :=
  match s.env.host with
  | [] => .next s
  | e :: es => hostEvent e { s with env := { s.env with host := es } }

end Sys2Proof.Machine
end

