-- ==== Sys2Proof/Machine/Fetch.lean ====
section
/-! DEFINITION. What the core reads to know its next instruction: the pending command word (44_control.md
R230, R238), the length byte at SRC_PTR (40_subblock.md R123), or the code at BR_POS (42_lzw.md R158); who
moves next; and how a word is put where the next fetch finds it. -/

namespace Sys2Proof.Machine

/-- What a fetch gives: an instruction with the state it runs in, or how the step ends instead. -/
inductive Fetched where
  | instr (i : Instr) (s : State)
  | stop (r : Res)

/-- The error an illegal code raises (30_encoding.md R100; 42_lzw.md R159, R160, R165), in the state after
`take`. -/
def illegalCode (r : Reject) (s : State) : Res :=
  match r with
  | .firstNotClear c => raise .firstNotClear s.codeStart c s
  | .afterClearNotBase c => raise .afterClearNotBase s.codeStart c s
  | .codeBeyondNext c => raise .codeBeyondNext s.codeStart c s
  | .badCommand _ => .fault .codeOutsideDecode
  | .noCodeExpected _ => .fault .codeOutsideDecode
  | .wrongWidth _ => .fault .codeOutsideDecode

/-- The pending command word (44_control.md R232, R238). -/
def fetchCommand (v : Word) (s : State) : Fetched :=
  match decodeCommand v with
  | .ok i => .instr i s
  | .error _ => .stop (raise .badCmd v.toNat 0 s)

/-- The length byte at SRC_PTR (40_subblock.md R123). -/
def fetchLength (s : State) : Fetched :=
  if s.srcPtr.toNat ≥ s.op.srcLen.toNat then .stop (raise .sbOverrun s.srcPtr.toNat 0x100 s)
  else .instr (decodeLength (s.srcAt s.srcPtr.toNat)) s

/-- The code at BR_POS (42_lzw.md R158), classified in the context before it is taken. -/
def fetchCode (s : State) : Fetched :=
  match s.take s.lzw.width.toNat with
  | .error r => .stop r
  | .ok (c, s1) =>
    match decodeCode s.lzw.ctx c with
    | .ok i => .instr i s1
    | .error e => .stop (illegalCode e s1)

/-- The core's next instruction. -/
def coreFetch (s : State) : Fetched :=
  match s.pending with
  | .none => .stop (.next s)
  | .word v => fetchCommand v s
  | .subBlock _ => fetchLength s
  | .code _ => fetchCode s

/-- The core has a command to run. -/
def State.coreReady (s : State) : Bool := decide (s.pending ≠ .none)

/-- The host has an event to come. -/
def State.hostReady (s : State) : Bool := decide (s.env.host ≠ [])

/-- Who moves next (44_control.md R232, log 4): the agent whose turn it is if it has a move, else the other;
with no turn given, the core. -/
def State.mover (s : State) : Option Agent :=
  if s.coreReady && s.hostReady then some (s.env.turns.headD .core)
  else if s.coreReady then some .core
  else if s.hostReady then some .host
  else none

/-- The turn taken off the list. -/
def State.popTurn (s : State) : State := { s with env := { s.env with turns := s.env.turns.tail } }

/-- The core put to run one instruction of `p` next, as after an acceptance in this state. -/
def State.coreNext (s : State) (p : Pending) : State :=
  { s with pending := p, status := { s.status with busy := true },
           env := { s.env with turns := .core :: s.env.turns, paces := 1 :: s.env.paces,
                               shown := s.status.holdings } }

/-- A command word accepted and waiting for its first core step (44_control.md R230). -/
def State.placeCommand (s : State) (v : Word) : State := s.coreNext (.word v)

/-- A length byte at SRC_PTR, its payload bytes zeros, within SRC_LEN (40_subblock.md R123). -/
def State.placeLength (s : State) (n : Byte) : State :=
  let p := s.srcPtr.toNat
  let s1 := s.storeSrc (placed p (n :: List.replicate n.toNat 0))
  { s1 with op := { s1.op with srcLen := word (max s1.op.srcLen.toNat (p + 1 + n.toNat)) } }.coreNext
    (.subBlock false)

end Sys2Proof.Machine
end

