-- ==== Sys2Proof/Machine/CoreStep.lean ====
section
/-! DEFINITION. The core's steps (44_control.md R232): one instruction, a run of instructions, and the core
step, which runs as many instructions as the list of paces gives it, so that a command takes any number of
core steps (00_scope.md R10, log 5). -/

namespace Sys2Proof.Machine

/-- The core's next instruction, run. -/
def coreStep (s : State) : Host.Outcome State Fault Refusal :=
  match coreFetch s with
  | .instr i s1 => exec i s1
  | .stop r => r

/-- At most `k` instructions, with no host step between them, ending when the command ends. -/
def coreRun : Nat → State → Res
  | 0, s => .next s
  | k + 1, s =>
    if s.pending = .none then .next s
    else match coreStep s with
      | .next t => coreRun k t
      | .fault f => .fault f
      | .refused r => .refused r

/-- The pending word names no command (44_control.md R238). -/
def Pending.illegal : Pending → Bool
  | .none => false
  | .word v => match decodeCommand v with
    | .ok _ => false
    | .error _ => true
  | .subBlock _ => false
  | .code _ => false

/-- How many instructions the core's next step runs: the first of the paces, one where none is given. An
illegal word is no command: its first core step runs it (44_control.md R238). -/
def State.pace (s : State) : Nat := if s.pending.illegal then 1 else s.env.paces.headD 1

/-- The pace taken off the list. -/
def State.popPace (s : State) : State := { s with env := { s.env with paces := s.env.paces.tail } }

/-- The core's turn: one core step of 44_control.md R232. At pace 0 it shows nothing; at a pace that reaches
the command's end it does the rest of the command at once. -/
def coreTurn (s : State) : Res := coreRun s.pace s.popPace

end Sys2Proof.Machine
end

