-- ==== Sys2Proof/Machine/Step.lean ====
section
/-! DEFINITION. One step of the block and its surroundings: one host event or one core step (44_control.md
R232). -/

namespace Sys2Proof.Machine

/-- One step. When neither agent has a move nothing changes: no command runs, so the core takes no step
(70_reset_and_hazards.md R285, 60_exceptions.md R279; log 7). -/
def step (s : State) : Host.Outcome State Fault Refusal :=
  match s.mover with
  | .none => .next s
  | .some .host => hostTurn s.popTurn
  | .some .core => coreTurn s.popTurn

/-- The state with an instruction of the opcode table stored where the next step fetches it (log 9): a CMD32
word as the accepted command, an SB8 byte as the length byte at SRC_PTR with zeros after it. The LZWc rows
have no bits of their own (log 15). -/
def State.withFetchWord (s : State) (nbits w : Nat) : State :=
  if nbits = 32 then s.placeCommand (word w)
  else if nbits = 8 then s.placeLength (BitVec.ofNat 8 w)
  else s

end Sys2Proof.Machine
end

