-- ==== Sys2Proof/Safety.lean ====
section
/-! DEFINITION. What counts as a safe state and a safe run, in the terms the statements use: the invariant of
the block, the invariant of a running decode (42_lzw.md R169), runs of the core alone, and the reference
readings of a sub-block chain and of a writable register that statements compare the machine with. -/

namespace Sys2Proof.Machine

/-- Legal capacities (00_scope.md R9). -/
def Caps.ok (c : Caps) : Prop :=
  1 ≤ c.src.toNat ∧ 1 ≤ c.cbuf.toNat ∧ c.cbuf.toNat ≤ 2 ^ 29 - 1 ∧ 1 ≤ c.idx.toNat ∧ 1 ≤ c.canvas.toNat

/-- A code that stands for a string below `next`: a base code or a live entry (42_lzw.md R153, R154). -/
def State.stringCode (s : State) (c : Nat) : Prop :=
  c < s.lzw.next.toNat ∧ c ≠ s.clearCode ∧ c ≠ s.eoiCode

/-- The invariant of a running decode, true before every code (42_lzw.md R169). -/
structure LzwInv (s : State) : Prop where
  mcsLegal   : 1 ≤ s.lzw.mcsL.toNat ∧ s.lzw.mcsL.toNat ≤ 8
  widthRange : s.lzw.mcsL.toNat + 1 ≤ s.lzw.width.toNat ∧ s.lzw.width.toNat ≤ 12
  nextRange  : s.eoiCode + 1 ≤ s.lzw.next.toNat ∧ s.lzw.next.toNat ≤ 4096
  nextFits   : s.lzw.next.toNat ≤ 2 ^ s.lzw.width.toNat
  nextEdge   : s.lzw.next.toNat = 2 ^ s.lzw.width.toNat →
    (s.lzw.width.toNat = 12 ∧ s.lzw.next.toNat = 4096) ∨
    (s.lzw.mcsL.toNat = 1 ∧ s.lzw.width.toNat = 2 ∧ s.lzw.next.toNat = 4)
  chains     : ∀ e, s.eoiCode < e → e < s.lzw.next.toNat →
    (s.dictAt e).pred.toNat < e ∧ (s.dictAt e).pred.toNat ≠ s.clearCode ∧
    (s.dictAt e).pred.toNat ≠ s.eoiCode ∧ (s.dictAt e).byte.toNat < s.clearCode
  phases     : s.lzw.phase = .expectClear ∨ s.lzw.phase = .afterClear ∨ s.lzw.phase = .normal
  fresh      : s.lzw.phase ≠ .normal →
    s.lzw.width.toNat = s.lzw.mcsL.toNat + 1 ∧ s.lzw.next.toNat = s.eoiCode + 1
  prevString : s.lzw.phase = .normal → s.stringCode s.lzw.prev.toNat
  counted    : s.idxLen.toNat ≤ s.lzw.expLen.toNat ∧ s.lzw.expLen.toNat ≤ s.caps.idx.toNat
  indices    : ∀ k, k < s.idxLen.toNat → (s.idxAt k).toNat < s.clearCode
  cursor     : s.brPos.toNat ≤ 8 * s.cbufLen.toNat

/-- The invariant of the block: it holds at reset and every step keeps it. -/
structure Inv (s : State) : Prop where
  capsLegal  : s.caps.ok
  canonical  : s.mem.wf = true
  inBounds   : s.mem.within s.caps = true
  busyExact  : s.status.busy = true ↔ s.pending ≠ .none
  busyUndone : s.status.busy = true → s.status.done = false
  oneSource  : ¬ (s.status.done = true ∧ s.status.err = true)
  errVoids   : s.status.err = true →
    s.status.docOpen = false ∧ s.status.cbufValid = false ∧ s.status.idxValid = false ∧
    s.status.snapValid = false
  errNamed   : s.status.err = true ↔ s.err.code ≠ .none
  errOnly    : s.status.err = true → s.pending = .none ∨ s.pending = .word softResetWord
  docFits    : s.docSize.area ≤ s.caps.canvas.toNat
  cbufFits   : s.cbufLen.toNat ≤ s.caps.cbuf.toNat
  idxFits    : s.idxLen.toNat ≤ s.caps.idx.toNat
  assembling : ∀ image, s.pending = .subBlock image →
    s.op.srcLen.toNat ≤ s.caps.src.toNat ∧ (image = true → s.status.docOpen = true)
  decoding   : ∀ image, s.pending = .code image →
    LzwInv s ∧ s.status.cbufValid = true ∧ (image = true → s.status.docOpen = true)

/-- At most `n` core steps, with no host step between them, ending when the command ends. -/
def coreTurns : Nat → State → Res
  | 0, s => .next s
  | n + 1, s =>
    if s.pending = .none then .next s
    else match coreTurn s with
      | .next t => coreTurns n t
      | .fault f => .fault f
      | .refused r => .refused r

/-- The state with its core steps to come at other paces. -/
def State.withPaces (s : State) (ps : List Nat) : State := { s with env := { s.env with paces := ps } }

/-- `v` is the last value a list of drawn pairs has for address `a`. -/
def lastDrawn {α : Type} (ps : List (Nat × α)) (a : Nat) (v : α) : Prop :=
  ∃ pre post, ps = pre ++ (a, v) :: post ∧ ∀ w, (a, w) ∉ post

/-- More instructions than any command runs from `s` on (44_control.md R241): the sub-blocks of one chain, the
codes of one stream, and the command's own, each with its last failing one. -/
def State.stepBound (s : State) : Nat := s.op.srcLen.toNat / 2 + 4 * s.caps.cbuf.toNat + 3

/-- The payload of the sub-block chain at SRC offset `p` and the offset after its terminator
(30_encoding.md R97); none where the chain is cut off by SRC_LEN. `fuel` bounds the number of sub-blocks. -/
def State.chainAt (s : State) : Nat → Nat → Option (List Byte × Nat)
  | 0, _ => none
  | fuel + 1, p =>
    if p ≥ s.op.srcLen.toNat then none
    else if (s.srcAt p).toNat = 0 then some ([], p + 1)
    else if p + 1 + (s.srcAt p).toNat > s.op.srcLen.toNat then none
    else match s.chainAt fuel (p + 1 + (s.srcAt p).toNat) with
      | .some (bs, q) => some (s.payload p (s.srcAt p).toNat ++ bs, q)
      | .none => none

/-- The bits of a register that a host write stores (10_state.md R34, R38 to R46); none for a register the
host does not write. -/
def Reg.writeMask : Reg → Option Word
  | .irqEn => some 0x00000001
  | .srcLen => some 0xFFFFFFFF
  | .srcPtr => some 0xFFFFFFFF
  | .lzwMcs => some 0x000000FF
  | .canvasSize => some 0xFFFFFFFF
  | .frmPos => some 0xFFFFFFFF
  | .frmSize => some 0xFFFFFFFF
  | .frmCtrl => some 0x0000071F
  | .frmTrans => some 0x000000FF
  | .frmDelay => some 0x0000FFFF
  | .id => none
  | .cmd => none
  | .status => none
  | .errCode => none
  | .errInfo => none
  | .errAux => none
  | .cbufLen => none
  | .idxLen => none
  | .frameCount => none
  | .snapDelay => none
  | .docSize => none
  | .lzwState => none
  | .brPos => none
  | .capSrc => none
  | .capCbuf => none
  | .capIdx => none
  | .capCanvas => none

/-- The bits of a register that some field names (10_state.md, register map); the others are reserved. -/
def Reg.fieldMask : Reg → Word
  | .id => 0xFFFFFFFF
  | .cmd => 0x00000000
  | .status => 0x000001FF
  | .irqEn => 0x00000001
  | .errCode => 0x000000FF
  | .errInfo => 0xFFFFFFFF
  | .errAux => 0xFFFFFFFF
  | .srcLen => 0xFFFFFFFF
  | .srcPtr => 0xFFFFFFFF
  | .lzwMcs => 0x000000FF
  | .canvasSize => 0xFFFFFFFF
  | .frmPos => 0xFFFFFFFF
  | .frmSize => 0xFFFFFFFF
  | .frmCtrl => 0x0000071F
  | .frmTrans => 0x000000FF
  | .frmDelay => 0x0000FFFF
  | .cbufLen => 0xFFFFFFFF
  | .idxLen => 0xFFFFFFFF
  | .frameCount => 0xFFFFFFFF
  | .snapDelay => 0x0000FFFF
  | .docSize => 0xFFFFFFFF
  | .lzwState => 0xFFFFFFFF
  | .brPos => 0xFFFFFFFF
  | .capSrc => 0xFFFFFFFF
  | .capCbuf => 0xFFFFFFFF
  | .capIdx => 0xFFFFFFFF
  | .capCanvas => 0xFFFFFFFF

/-- The state after `v` was accepted (44_control.md R230), whatever ran before, the surroundings as they were. -/
def State.acceptedAs (s : State) (v : Word) : State :=
  { s with status := { s.status with done := false, busy := true }, pending := .word v }

/-- The state with the surroundings and the sticky WBUSY left out: what a running command may depend on
(20_memory.md R75, R77). -/
def State.blind (s : State) : State :=
  { s with status := { s.status with wbusy := false }, env := Env.reset }

/-- A cell of the frame rectangle. -/
def State.inFrame (s : State) (a : Nat) : Prop :=
  ∃ x r, x < s.op.frmSize.w.toNat ∧ r < s.op.frmSize.h.toNat ∧ a = s.frameCell x r

/-- Every check of COMPOSE passes, for the disposal method `d` (43_compositor.md R193, R194). -/
structure ComposeReady (s : State) (d : Disposal) : Prop where
  document : s.status.docOpen = true
  decoded  : s.status.idxValid = true
  method   : disposalOf s.op.frmCtrl.disposal = some d
  right    : s.op.frmPos.left.toNat + s.op.frmSize.w.toNat ≤ s.docSize.w.toNat
  bottom   : s.op.frmPos.top.toNat + s.op.frmSize.h.toNat ≤ s.docSize.h.toNat
  length   : s.idxLen.toNat = s.op.frmSize.w.toNat * s.op.frmSize.h.toNat
  range    : ∀ k, k < s.idxLen.toNat → (s.idxAt k).toNat < 2 ^ (s.op.frmCtrl.ctSize.toNat + 1)

end Sys2Proof.Machine
end

