-- ==== Sys2Proof/Certificates/Slice0/Obligations.lean ====
section
/-! DEFINITION. The statements about the block, one `def Obligations.<Name> : Prop` each. They are listed in
OBLIGATIONS.json. A frame is written as an equation: the next state with the written fields put back equals
the state before. -/

open Sys2Proof Sys2Proof.Machine

/-! ## Encodings -/

/-- Decoding the encoding of a well-formed instruction gives it back, at every point of a code stream and
with every operand the encoding admits (30_encoding.md R90 to R101). -/
def Obligations.DecodeOfEncodeIsIdentity : Prop :=
  ∀ (k : CodeCtx) (i : Instr), i.wfIn k = true → decode k (encode k i) = .ok i

/-- What decodes is well-formed and encodes to the same bits, so no two encodings share a meaning. -/
def Obligations.EncodeOfDecodeIsIdentity : Prop :=
  ∀ (k : CodeCtx) (e : Encoded) (i : Instr), k.ok = true → decode k e = .ok i →
    i.wfIn k = true ∧ encode k i = e

/-- The opcode map and the legal command words (30_encoding.md R92). -/
def Obligations.CommandWordsAreTheOpcodeMap : Prop :=
  (decodeCommand 0x00 = .ok .nop ∧ decodeCommand 0x01 = .ok .softReset ∧
    decodeCommand 0x02 = .ok .beginDoc ∧ decodeCommand 0x03 = .ok .assemble ∧
    decodeCommand 0x04 = .ok .lzwDecode ∧ decodeCommand 0x05 = .ok .compose ∧
    decodeCommand 0x06 = .ok .image ∧ decodeCommand 0x07 = .ok .endDoc) ∧
  ∀ v : Word, (∃ i, decodeCommand v = .ok i) ↔
    (v.extractLsb' 8 24).toNat = 0 ∧ (v.extractLsb' 0 8).toNat ≤ 0x07

/-- Words written out from the encodings decode to the instructions they stand for (sanity). -/
def Obligations.SampleWordsDecode : Prop :=
  decodeTableWord 32 0x00000006 = some .image ∧ decodeTableWord 32 0x00000101 = none ∧
  decodeTableWord 8 0x00 = some .sbTerm ∧ decodeTableWord 8 0xFF = some (.sbData 0xFF) ∧
  decode { phase := .expectClear, mcs := 2, width := 3, next := 6 } (.lzwc [false, false, true]) =
    .ok .clearFirst ∧
  decode { phase := .normal, mcs := 2, width := 3, next := 6 } (.lzwc [true, false, true]) = .ok .eoi ∧
  decode { phase := .normal, mcs := 2, width := 3, next := 6 } (.lzwc [false, true, true]) = .ok .kwkwk

/-! ## One step -/

/-- A core step runs as many instructions as its pace says (the model's parameter for CMD_STEPS, log 5). At
pace 1, the pace where the list gives none, it is exec of the instruction fetched: the pending word, the length
byte at SRC_PTR, or the code at BR_POS with the cursor moved past it. At pace 0 it shows nothing. Around exec,
step takes one turn off the list of turns (the model's scheduling, log 4) and one pace off the list of paces. -/
def Obligations.CoreStepRunsTheFetchedInstruction : Prop :=
  ∀ s : State, s.mover = some .core →
    let s1 := s.popTurn.popPace
    step s = coreRun s.pace s1 ∧ (s.pace = 0 → step s = .next s1) ∧
    (s.env.paces = [] → s.pace = 1) ∧
    (s.pace = 1 → step s = coreStep s1 ∧
      (∀ v i, s.pending = .word v → decodeCommand v = .ok i → step s = exec i s1) ∧
      (∀ image, s.pending = .subBlock image → s.srcPtr.toNat < s.op.srcLen.toNat →
        step s = exec (decodeLength (s.srcAt s.srcPtr.toNat)) s1) ∧
      (∀ image i, s.pending = .code image →
        s.brPos.toNat + s.lzw.width.toNat ≤ 8 * s.cbufLen.toNat →
        decodeCode s.lzw.ctx (bitsValue (s.bitsAhead s.lzw.width.toNat)) = .ok i →
        step s = exec i { s1 with brPos := word (s.brPos.toNat + s.lzw.width.toNat) }))

/-- An agent with a move moves when the other has none, and the list of turns decides when both have one
(the model's scheduling, log 4); with no move at all nothing changes (log 7). -/
def Obligations.StepGivesTheTurnToAReadyAgent : Prop :=
  ∀ s : State,
    (s.pending = .none → s.env.host = [] → step s = .next s) ∧
    (s.pending ≠ .none → s.env.host = [] → step s = coreTurn s.popTurn) ∧
    (s.pending = .none → s.env.host ≠ [] → step s = hostTurn s.popTurn) ∧
    (∀ ts, s.pending ≠ .none → s.env.host ≠ [] → s.env.turns = .core :: ts →
      step s = coreTurn s.popTurn) ∧
    (∀ ts, s.pending ≠ .none → s.env.host ≠ [] → s.env.turns = .host :: ts →
      step s = hostTurn s.popTurn)

/-- An illegal command word fails in its first core step, whatever its pace, with E_BAD_CMD (44_control.md
R238, 60_exceptions.md R251). -/
def Obligations.IllegalCommandWordRaisesBadCmd : Prop :=
  ∀ (s : State) (v : Word), s.mover = some .core → s.pending = .word v →
    ((v.extractLsb' 8 24).toNat ≠ 0 ∨ (v.extractLsb' 0 8).toNat ≥ 0x08) →
    step s = .next (s.popTurn.popPace.errorEntry .badCmd v 0)

/-! ## Errors, reset, completion -/

/-- What the error entry writes, and that it writes nothing else (60_exceptions.md R268). -/
def Obligations.ErrorEntryRecordsAndVoids : Prop :=
  ∀ (s : State) (c : ErrCode) (info aux : Word),
    let t := s.errorEntry c info aux
    t.err = { code := c, info := info, aux := aux } ∧
    t.status.err = true ∧ t.status.done = false ∧ t.status.docOpen = false ∧
    t.status.cbufValid = false ∧ t.status.idxValid = false ∧ t.status.snapValid = false ∧
    t.status.busy = false ∧ t.pending = .none ∧ t.status.wbusy = s.status.wbusy ∧
    { t with err := s.err, status := s.status, pending := s.pending } = s

/-- Every error reads at ERR_CODE as its number, with its context words beside it (60_exceptions.md R250,
10_state.md R35 to R37). -/
def Obligations.ErrorRegistersReadTheErrorEntry : Prop :=
  (∀ (s : State) (c : ErrCode) (info aux : Word),
    (s.errorEntry c info aux).readRegs 0x10 = word c.byte.toNat ∧
    (s.errorEntry c info aux).readRegs 0x14 = info ∧ (s.errorEntry c info aux).readRegs 0x18 = aux) ∧
  [ErrCode.badCmd, .sequence, .badMcs, .badDisposal, .sbOverrun, .bitOverrun, .pixelRange, .frameBounds,
    .length, .firstNotClear, .afterClearNotBase, .codeBeyondNext, .dictOverflow, .resSrc, .resCbuf,
    .resIdx, .resCanvas].map (fun c => c.byte.toNat) =
  [0x01, 0x02, 0x03, 0x04, 0x10, 0x11, 0x12, 0x13, 0x14, 0x20, 0x21, 0x22, 0x23, 0x30, 0x31, 0x32, 0x33]

/-- SOFT_RESET sets every register and internal element to its reset value and keeps every memory
(70_reset_and_hazards.md R284, 44_control.md R235); SNAP then reads 0. -/
def Obligations.SoftResetRestoresRegistersAndKeepsMemory : Prop :=
  ∀ s : State, ∃ t, exec .softReset s = .next t ∧
    t.status = { busy := false, done := false, err := false, docOpen := false, cbufValid := false,
                 idxValid := false, snapValid := false, wbusy := false } ∧
    t.irqEn = false ∧ t.err = { code := .none, info := 0, aux := 0 } ∧
    t.op = { srcLen := 0, lzwMcs := 0, canvasSize := ⟨0, 0⟩, frmPos := ⟨0, 0⟩, frmSize := ⟨0, 0⟩,
             frmCtrl := ⟨false, false, 0, 0⟩, frmTrans := 0, frmDelay := 0 } ∧
    t.srcPtr = 0 ∧ t.cbufLen = 0 ∧ t.idxLen = 0 ∧ t.frameCount = 0 ∧ t.snapDelay = 0 ∧
    t.docSize = ⟨0, 0⟩ ∧ t.brPos = 0 ∧
    t.lzw = { mcsL := 0, width := 0, next := 0, prev := 0, phase := .idle, expLen := 0 } ∧
    t.pending = .none ∧ t.mem = s.mem ∧ t.caps = s.caps ∧ t.env = s.env ∧ ∀ a, t.readSnap a = 0

/-- A hardware reset sets the same registers, ends a running command without an error entry, and gives every
cell that exists, of each of the eight memories, the value drawn for it (70_reset_and_hazards.md R280, R283).
That the drawn contents come with the reset as a list, whose last value for an address counts, is the model's
choice (log 2). -/
def Obligations.HardResetRestoresRegistersAndDrawsMemory : Prop :=
  ∀ (s : State) (drawn : Memory), ∃ t, hostEvent (.hardReset drawn) s = .next t ∧
    (∀ u, exec .softReset s = .next u → { t with mem := u.mem } = u) ∧
    t.pending = .none ∧ t.status.err = false ∧ t.mem.wf = true ∧ t.mem.within s.caps = true ∧
    (∀ a v, a < s.caps.src.toNat → lastDrawn drawn.src a v → t.srcAt a = v) ∧
    (∀ a v, a < 768 → lastDrawn drawn.ct a v → t.ctAt a = v) ∧
    (∀ a v, a < s.caps.cbuf.toNat → lastDrawn drawn.cbuf a v → t.cbufAt a = v) ∧
    (∀ a v, a < s.caps.idx.toNat → lastDrawn drawn.idx a v → t.idxAt a = v) ∧
    (∀ a v, a < 4096 → lastDrawn drawn.dict a v → t.dictAt a = v) ∧
    (∀ a v, a < s.caps.canvas.toNat → lastDrawn drawn.canvas a v → t.canvasAt a = v) ∧
    (∀ a v, a < s.caps.canvas.toNat → lastDrawn drawn.save a v → t.saveAt a = v) ∧
    (∀ a v, a < s.caps.canvas.toNat → lastDrawn drawn.snap a v → t.snapAt a = v)

/-- Register values after reset (70_reset_and_hazards.md R281) and the internal state (R282). -/
def Obligations.ResetLeavesTheTabledValues : Prop :=
  State.reset.regWord .id = 0x4D474946 ∧
  (∀ r : Reg, r ≠ .id → r ≠ .capSrc → r ≠ .capCbuf → r ≠ .capIdx → r ≠ .capCanvas →
    State.reset.regWord r = 0) ∧
  State.reset.regWord .capSrc = State.reset.caps.src ∧
  State.reset.regWord .capCbuf = State.reset.caps.cbuf ∧
  State.reset.regWord .capIdx = State.reset.caps.idx ∧
  State.reset.regWord .capCanvas = State.reset.caps.canvas ∧
  (∀ offset, regAt offset = none → State.reset.readRegs offset = 0) ∧
  State.reset.pending = .none ∧ State.reset.irq = false ∧
  State.reset.lzw = { mcsL := 0, width := 0, next := 0, prev := 0, phase := .idle, expLen := 0 }

/-! ## The host's accesses -/

/-- Acceptance of a host write to CMD (44_control.md R230, R231). The copy of the holdings that STATUS goes on
showing is the model's own field (log 16). -/
def Obligations.CommandAcceptance : Prop :=
  ∀ (s : State) (v : Word),
    let cmd : BusAccess := { space := .regs, offset := 0x04, bytes := 4, op := .write v }
    (s.status.busy = true →
      hostAccess cmd s = .next { s with status := { s.status with wbusy := true } }) ∧
    (s.status.busy = false → s.status.err = true → v ≠ 0x00000001 → hostAccess cmd s = .next s) ∧
    (s.status.busy = false → s.status.err = false ∨ v = 0x00000001 →
      hostAccess cmd s =
        .next { s with status := { s.status with done := false, busy := true }, pending := .word v,
                       env := { s.env with shown := s.status.holdings } })

/-- While BUSY = 1 every host write is dropped and only sets WBUSY (20_memory.md, host accesses while a command
runs). That this holds also of a write to SNAP, to a read-only register and to a reserved offset is the model's
reading of "every host write" (DEDUCED, log 14). -/
def Obligations.WritesWhileBusyOnlySetWbusy : Prop :=
  ∀ (s : State) (a : BusAccess) (v : Word), a.shapeOk = true → a.inRegs = true → a.op = .write v →
    s.status.busy = true → hostAccess a s = .next { s with status := { s.status with wbusy := true } }

/-- A host read changes nothing of the block (20_memory.md R74); while BUSY = 1 it is exact for STATUS, ID,
CAP_*, SRC and CT (R76); a reserved offset reads 0 while BUSY = 0 (10_state.md R21). The record of the values
read is the model's own (log 3). -/
def Obligations.ReadsHaveNoSideEffect : Prop :=
  ∀ (s : State) (a : BusAccess), a.shapeOk = true → a.inRegs = true → a.op = .read →
    ∃ v t, hostAccess a s = .next t ∧ t.env.reads = v :: s.env.reads ∧ { t with env := s.env } = s ∧
      t.env.host = s.env.host ∧ t.env.turns = s.env.turns ∧
      (a.space = .src → v = word (s.readSrc a.offset).toNat) ∧
      (a.space = .ct → v = word (s.readCt a.offset).toNat) ∧
      (∀ r : Reg, a.space = .regs → a.offset = r.offset →
        s.status.busy = false ∨ r ∈ [Reg.status, .id, .capSrc, .capCbuf, .capIdx, .capCanvas] →
        v = s.regWord r) ∧
      (a.space = .regs → regAt a.offset = none → s.status.busy = false → v = 0) ∧
      (a.space = .snap → s.status.busy = false → v = word (s.readSnap a.offset).toNat)

/-- An access of a shape R71 does not have is refused (20_memory.md R72). -/
def Obligations.MisshapenAccessIsRefused : Prop :=
  ∀ (s : State) (a : BusAccess),
    ((a.space = .regs ∧ (a.bytes ≠ 4 ∨ a.offset % 4 ≠ 0)) ∨ (a.space ≠ .regs ∧ a.bytes ≠ 1)) →
    hostAccess a s = .refused .accessShape

/-- Register access (10_state.md R21): aligned words only; a write stores exactly the bits of the writable
fields and changes no other register; a read-only register and a reserved offset ignore it; a reserved offset
and a reserved bit read 0; a word for CMD with a reserved bit set becomes an illegal command. -/
def Obligations.RegisterWritesStoreTheirFields : Prop :=
  (∀ (s : State) (r : Reg) (v : Word), s.status.busy = false → r ≠ .cmd →
    ∃ t, hostAccess { space := .regs, offset := r.offset, bytes := 4, op := .write v } s = .next t ∧
      t.regWord r = (match r.writeMask with | .some m => v &&& m | .none => s.regWord r) ∧
      (∀ r', r' ≠ r → ¬ (r' = .status ∧ r = .irqEn) → t.regWord r' = s.regWord r') ∧
      (r.writeMask = none → t = s) ∧
      { t with irqEn := s.irqEn, op := s.op, srcPtr := s.srcPtr } = s) ∧
  (∀ (s : State) (offset : Nat) (v : Word), regAt offset = none → s.status.busy = false →
    offset % 4 = 0 → offset < 0x100 → s.readRegs offset = 0 ∧
    hostAccess { space := .regs, offset := offset, bytes := 4, op := .write v } s = .next s) ∧
  (∀ (s : State) (r : Reg), s.regWord r &&& ~~~r.fieldMask = 0) ∧
  (∀ offset r, regAt offset = some r → offset = r.offset ∧ offset % 4 = 0 ∧ offset < 0x100) ∧
  (∀ (s : State) (a : BusAccess), a.space = .regs → a.bytes ≠ 4 ∨ a.offset % 4 ≠ 0 →
    hostAccess a s = .refused .accessShape) ∧
  (∀ (s : State) (v : Word), s.status.busy = false → s.status.err = false →
    (v.extractLsb' 8 24).toNat ≠ 0 →
    ∃ t, hostAccess { space := .regs, offset := 0x04, bytes := 4, op := .write v } s = .next t ∧
      coreStep t = .next (t.errorEntry .badCmd v 0))

/-- Writes to the byte spaces while idle: SRC and CT store the byte within their size and ignore it beyond,
where reads give 0 (20_memory.md R62, R63). -/
def Obligations.ByteWritesLandInSrcAndCt : Prop :=
  ∀ (s : State) (off : Nat) (v : Byte), s.mem.wf = true → s.status.busy = false →
    (∃ t, hostAccess { space := .src, offset := off, bytes := 1, op := .write (word v.toNat) } s = .next t ∧
      (∀ a, t.readSrc a = if a = off ∧ a < s.caps.src.toNat then v else s.readSrc a) ∧
      { t with mem := { t.mem with src := s.mem.src } } = s) ∧
    (∃ t, hostAccess { space := .ct, offset := off, bytes := 1, op := .write (word v.toNat) } s = .next t ∧
      (∀ a, t.readCt a = if a = off ∧ a < 768 then v else s.readCt a) ∧
      { t with mem := { t.mem with ct := s.mem.ct } } = s) ∧
    (s.caps.src.toNat ≤ off → s.readSrc off = 0) ∧ (768 ≤ off → s.readCt off = 0)

/-- SNAP as the host sees it (20_memory.md R64): the four bytes of pixel (x, y) in the order R, G, B, A, 0
beyond the document, writes ignored. -/
def Obligations.SnapReadsPixelBytes : Prop :=
  ∀ s : State,
    (∀ x y, x < s.docSize.w.toNat → y < s.docSize.h.toNat →
      let a := 4 * (y * s.docSize.w.toNat + x)
      let p := s.snapAt (y * s.docSize.w.toNat + x)
      s.readSnap (a + 0) = p.r ∧ s.readSnap (a + 1) = p.g ∧ s.readSnap (a + 2) = p.b ∧
      s.readSnap (a + 3) = p.a) ∧
    (∀ off, 4 * s.docSize.w.toNat * s.docSize.h.toNat ≤ off → s.readSnap off = 0) ∧
    (∀ off v, s.status.busy = false →
      hostAccess { space := .snap, offset := off, bytes := 1, op := .write v } s = .next s)

/-- The STATUS word shows its nine bits and nothing else; its IRQ bit is IRQ_EN.EN AND (DONE OR ERR)
(10_state.md R24 to R33, 60_exceptions.md R274). While BUSY = 1 the four holdings are those kept at the
command's acceptance (20_memory.md R77; where they are kept is the model's, log 16). -/
def Obligations.StatusWordShowsItsBits : Prop :=
  ∀ s : State,
    (List.range 9).map (s.readRegs 0x08).getLsbD =
      [s.status.busy, s.status.done, s.status.err,
       if s.status.busy then s.env.shown.docOpen else s.status.docOpen,
       if s.status.busy then s.env.shown.cbufValid else s.status.cbufValid,
       if s.status.busy then s.env.shown.idxValid else s.status.idxValid,
       if s.status.busy then s.env.shown.snapValid else s.status.snapValid,
       s.status.wbusy, s.irqEn && (s.status.done || s.status.err)] ∧
    (s.readRegs 0x08).toNat < 2 ^ 9 ∧ State.reset.readRegs 0x08 = 0

/-- LZW_STATE shows WIDTH, NEXT, PHASE and PREV in their fields (10_state.md R52, 30_encoding.md R105). -/
def Obligations.LzwStateWordShowsItsFields : Prop :=
  (∀ s : State,
    let v := s.readRegs 0x58
    v.extractLsb' 0 4 = s.lzw.width ∧ v.extractLsb' 4 13 = s.lzw.next ∧
    (v.extractLsb' 17 3).toNat = (match s.lzw.phase with
      | .idle => 0 | .expectClear => 1 | .afterClear => 2 | .normal => 3 | .done => 4) ∧
    v.extractLsb' 20 12 = s.lzw.prev) ∧
  State.reset.readRegs 0x58 = 0

/-! ## Commands with no unit -/

/-- NOP does nothing but complete (44_control.md R234). -/
def Obligations.NopOnlyCompletes : Prop :=
  ∀ s : State, exec .nop s =
    .next { s with status := { s.status with busy := false, done := true }, pending := .none }

/-- END_DOC closes the document and changes nothing else; it also completes with none open (44_control.md
R236). -/
def Obligations.EndDocClosesTheDocument : Prop :=
  ∀ s : State, exec .endDoc s =
    .next { s with status := { s.status with docOpen := false, busy := false, done := true },
                   pending := .none }

/-- IMAGE (44_control.md R237): its document check, then the ASSEMBLE body, then at the terminator the
LZW_DECODE body, then at EOI the COMPOSE body. The split into core steps is the model's choice (log 5). -/
def Obligations.ImageRunsTheThreeBodies : Prop :=
  ∀ s : State,
    (s.status.docOpen = false → exec .image s = .next (s.errorEntry .sequence 0x06 1)) ∧
    (s.status.docOpen = true → s.op.srcLen.toNat > s.caps.src.toNat →
      exec .image s = .next (s.errorEntry .resSrc s.op.srcLen s.caps.src)) ∧
    (s.status.docOpen = true → s.op.srcLen.toNat ≤ s.caps.src.toNat →
      exec .image s = .next { s with status := { s.status with cbufValid := false }, cbufLen := 0,
                                     pending := .subBlock true }) ∧
    (s.pending = .subBlock true →
      let s1 := { s with srcPtr := s.srcPtr + 1, status := { s.status with cbufValid := true } }
      ((1 ≤ s.op.lzwMcs.toNat ∧ s.op.lzwMcs.toNat ≤ 8 ∧
          s.op.frmSize.w.toNat * s.op.frmSize.h.toNat ≤ s.caps.idx.toNat) →
        ∃ t, exec .lzwDecode s1 = .next t ∧ exec .sbTerm s = .next { t with pending := .code true }) ∧
      (¬ (1 ≤ s.op.lzwMcs.toNat ∧ s.op.lzwMcs.toNat ≤ 8 ∧
          s.op.frmSize.w.toNat * s.op.frmSize.h.toNat ≤ s.caps.idx.toNat) →
        exec .sbTerm s = exec .lzwDecode s1)) ∧
    (s.pending = .code true → s.idxLen = s.lzw.expLen →
      exec .eoi s = exec .compose { s with lzw := { s.lzw with phase := .done },
                                           status := { s.status with idxValid := true } })

/-! ## The Sub-block Assembler -/

/-- ASSEMBLE's source-length check and start (40_subblock.md R121, R122). -/
def Obligations.AssembleChecksThenStarts : Prop :=
  ∀ s : State,
    (s.op.srcLen.toNat > s.caps.src.toNat →
      exec .assemble s = .next (s.errorEntry .resSrc s.op.srcLen s.caps.src)) ∧
    (s.op.srcLen.toNat ≤ s.caps.src.toNat →
      exec .assemble s = .next { s with status := { s.status with cbufValid := false }, cbufLen := 0,
                                        pending := .subBlock false })

/-- The length-byte step (40_subblock.md R123). -/
def Obligations.LengthByteStep : Prop :=
  ∀ (s : State) (image : Bool), s.pending = .subBlock image →
    (s.srcPtr.toNat ≥ s.op.srcLen.toNat →
      coreStep s = .next (s.errorEntry .sbOverrun s.srcPtr 0x100)) ∧
    (s.srcPtr.toNat < s.op.srcLen.toNat → s.srcAt s.srcPtr.toNat = 0 → coreStep s = exec .sbTerm s) ∧
    (s.srcPtr.toNat < s.op.srcLen.toNat → s.srcAt s.srcPtr.toNat ≠ 0 →
      coreStep s = exec (.sbData (s.srcAt s.srcPtr.toNat)) s)

/-- SB_TERM of an ASSEMBLE command: the cursor passes the terminator, CBUF is valid, the command completes
(40_subblock.md R124, R126). -/
def Obligations.SbTermCompletesAssemble : Prop :=
  ∀ s : State, s.pending.inImage = false → exec .sbTerm s =
    .next { s with srcPtr := s.srcPtr + 1,
                   status := { s.status with cbufValid := true, busy := false, done := true },
                   pending := .none }

/-- SB_DATA (40_subblock.md R125): overrun, then capacity, then the copy of exactly `n` bytes to the end of
CBUF, with both cursors moved and nothing else changed. -/
def Obligations.SbDataAppendsItsPayload : Prop :=
  ∀ (s : State) (n : Byte), s.mem.wf = true →
    (s.srcPtr.toNat + 1 + n.toNat > s.op.srcLen.toNat →
      exec (.sbData n) s = .next (s.errorEntry .sbOverrun s.srcPtr (word n.toNat))) ∧
    (s.srcPtr.toNat + 1 + n.toNat ≤ s.op.srcLen.toNat →
      s.cbufLen.toNat + n.toNat > s.caps.cbuf.toNat →
      exec (.sbData n) s =
        .next (s.errorEntry .resCbuf (word (s.cbufLen.toNat + n.toNat)) s.caps.cbuf)) ∧
    (s.srcPtr.toNat + 1 + n.toNat ≤ s.op.srcLen.toNat →
      s.cbufLen.toNat + n.toNat ≤ s.caps.cbuf.toNat →
      ∃ t, exec (.sbData n) s = .next t ∧
        t.srcPtr.toNat = s.srcPtr.toNat + 1 + n.toNat ∧ t.cbufLen.toNat = s.cbufLen.toNat + n.toNat ∧
        (∀ a, t.cbufAt a =
          if s.cbufLen.toNat ≤ a ∧ a < s.cbufLen.toNat + n.toNat
          then s.srcAt (s.srcPtr.toNat + 1 + (a - s.cbufLen.toNat)) else s.cbufAt a) ∧
        { t with srcPtr := s.srcPtr, cbufLen := s.cbufLen,
                 mem := { t.mem with cbuf := s.mem.cbuf } } = s)

/-- A whole ASSEMBLE over a chain that ends: CBUF holds the payload bytes of the chain in the order they
stand in SRC, and SRC_PTR names the byte after the terminator (20_memory.md R69, 40_subblock.md R126). -/
def Obligations.AssembleJoinsTheWholeChain : Prop :=
  ∀ (s : State) (bs : List Byte) (q : Nat), s.mem.wf = true → s.pending = .word 0x03 →
    s.op.srcLen.toNat ≤ s.caps.src.toNat →
    s.chainAt (s.op.srcLen.toNat + 1) s.srcPtr.toNat = some (bs, q) →
    bs.length ≤ s.caps.cbuf.toNat →
    ∃ k t, coreRun k s = .next t ∧ t.pending = .none ∧
      t.status = { s.status with cbufValid := true, busy := false, done := true } ∧ t.cbufLen.toNat = bs.length ∧ t.srcPtr.toNat = q ∧
      (∀ j (h : j < bs.length), t.cbufAt j = bs[j]) ∧
      (∀ a, bs.length ≤ a → t.cbufAt a = s.cbufAt a) ∧
      { t with srcPtr := s.srcPtr, cbufLen := s.cbufLen, status := s.status, pending := s.pending,
               mem := { t.mem with cbuf := s.mem.cbuf } } = s

/-! ## The Bit Reader -/

/-- The closed form of `take` (41_bitreader.md, "Equivalent closed form"): the code is the field of the
buffer read as one little-endian number, and the cursor moves by its width. -/
def Obligations.TakeReadsTheLittleEndianField : Prop :=
  ∀ (s : State) (w : Nat), s.brPos.toNat + w ≤ 8 * s.cbufLen.toNat → s.cbufLen.toNat ≤ 2 ^ 29 - 1 →
    ∃ t, s.take w =
      .ok (((List.range s.cbufLen.toNat).map fun j => (s.cbufAt j).toNat * 2 ^ (8 * j)).sum /
            2 ^ s.brPos.toNat % 2 ^ w, t) ∧
      t.brPos.toNat = s.brPos.toNat + w ∧ { t with brPos := s.brPos } = s

/-- A code that would pass the end of CBUF raises E_BIT_OVERRUN with the cursor unmoved (41_bitreader.md
R142, 60_exceptions.md R256). -/
def Obligations.ShortStreamRaisesBitOverrun : Prop :=
  ∀ (s : State) (image : Bool), s.pending = .code image →
    s.brPos.toNat + s.lzw.width.toNat > 8 * s.cbufLen.toNat →
    coreStep s = .next (s.errorEntry .bitOverrun s.brPos (word s.lzw.width.toNat))

/-! ## The LZW Decompressor -/

/-- LZW_DECODE's start checks in order, and its initialisation (42_lzw.md R151, R152). -/
def Obligations.LzwDecodeChecksThenInitialises : Prop :=
  ∀ s : State,
    (s.status.cbufValid = false → exec .lzwDecode s = .next (s.errorEntry .sequence 0x04 3)) ∧
    (s.status.cbufValid = true → ¬ (1 ≤ s.op.lzwMcs.toNat ∧ s.op.lzwMcs.toNat ≤ 8) →
      exec .lzwDecode s = .next (s.errorEntry .badMcs (word s.op.lzwMcs.toNat) 0)) ∧
    (s.status.cbufValid = true → 1 ≤ s.op.lzwMcs.toNat → s.op.lzwMcs.toNat ≤ 8 →
      s.op.frmSize.w.toNat * s.op.frmSize.h.toNat > s.caps.idx.toNat →
      exec .lzwDecode s =
        .next (s.errorEntry .resIdx (word (s.op.frmSize.w.toNat * s.op.frmSize.h.toNat)) s.caps.idx)) ∧
    (s.status.cbufValid = true → 1 ≤ s.op.lzwMcs.toNat → s.op.lzwMcs.toNat ≤ 8 →
      s.op.frmSize.w.toNat * s.op.frmSize.h.toNat ≤ s.caps.idx.toNat →
      ∃ t, exec .lzwDecode s = .next t ∧
        t.lzw.mcsL.toNat = s.op.lzwMcs.toNat ∧ t.lzw.width.toNat = s.op.lzwMcs.toNat + 1 ∧
        t.lzw.next.toNat = 2 ^ s.op.lzwMcs.toNat + 2 ∧ t.lzw.prev = 0 ∧ t.lzw.phase = .expectClear ∧
        t.lzw.expLen.toNat = s.op.frmSize.w.toNat * s.op.frmSize.h.toNat ∧
        t.idxLen = 0 ∧ t.brPos = 0 ∧ t.pending = .code false ∧
        { t with lzw := s.lzw, idxLen := s.idxLen, brPos := s.brPos, pending := s.pending,
                 status := { t.status with idxValid := s.status.idxValid } } = s ∧
        t.status.idxValid = false)

/-- A clear code resets the code width and the next free index, erases no entry and changes nothing else
(42_lzw.md R157, R162; CLEAR_FIRST likewise, R159). -/
def Obligations.ClearCodesResetTheCodeSpace : Prop :=
  ∀ (s : State) (i : Instr), i = .clearFirst ∨ i = .clear →
    1 ≤ s.lzw.mcsL.toNat → s.lzw.mcsL.toNat ≤ 8 →
    ∃ t, exec i s = .next t ∧ t.lzw.width.toNat = s.lzw.mcsL.toNat + 1 ∧
      t.lzw.next.toNat = 2 ^ s.lzw.mcsL.toNat + 2 ∧ t.lzw.phase = .afterClear ∧
      { t with lzw := { t.lzw with width := s.lzw.width, next := s.lzw.next, phase := s.lzw.phase } } = s

/-- The illegal codes of each phase raise their errors at the bit offset the code started at, with nothing
written but the cursor (60_exceptions.md R260 to R262). -/
def Obligations.IllegalCodesRaiseTheirErrors : Prop :=
  ∀ (s : State) (image : Bool), s.pending = .code image →
    s.brPos.toNat + s.lzw.width.toNat ≤ 8 * s.cbufLen.toNat → s.cbufLen.toNat ≤ 2 ^ 29 - 1 →
    let c := bitsValue (s.bitsAhead s.lzw.width.toNat)
    let s1 := { s with brPos := word (s.brPos.toNat + s.lzw.width.toNat) }
    (s.lzw.phase = .expectClear → c ≠ 2 ^ s.lzw.mcsL.toNat →
      coreStep s = .next (s1.errorEntry .firstNotClear s.brPos (word c))) ∧
    (s.lzw.phase = .afterClear → c ≥ 2 ^ s.lzw.mcsL.toNat →
      coreStep s = .next (s1.errorEntry .afterClearNotBase s.brPos (word c))) ∧
    (s.lzw.phase = .normal → c > s.lzw.next.toNat → c ≠ 2 ^ s.lzw.mcsL.toNat →
      c ≠ 2 ^ s.lzw.mcsL.toNat + 1 →
      coreStep s = .next (s1.errorEntry .codeBeyondNext s.brPos (word c)))

/-- BASE_AFTER_CLEAR emits its one byte, remembers the code, enters NORMAL and adds no entry (42_lzw.md
R160). -/
def Obligations.BaseAfterClearEmitsItsByte : Prop :=
  ∀ (s : State) (c : BitVec 12), s.mem.wf = true → c.toNat < 256 →
    (s.idxLen.toNat + 1 ≤ s.lzw.expLen.toNat →
      ∃ t, exec (.baseAfterClear c) s = .next t ∧ t.idxLen.toNat = s.idxLen.toNat + 1 ∧
        (∀ k, (t.idxAt k).toNat = if k = s.idxLen.toNat then c.toNat else (s.idxAt k).toNat) ∧
        t.lzw.prev = c ∧ t.lzw.phase = .normal ∧
        { t with idxLen := s.idxLen, lzw := { t.lzw with prev := s.lzw.prev, phase := s.lzw.phase },
                 mem := { t.mem with idx := s.mem.idx } } = s) ∧
    (s.idxLen.toNat + 1 > s.lzw.expLen.toNat →
      exec (.baseAfterClear c) s =
        .next (s.errorEntry .length (word (s.idxLen.toNat + 1)) s.lzw.expLen))

/-- EOI: a short output is E_LENGTH; a full one makes IDX valid and changes nothing else but PHASE, and then an
LZW_DECODE completes (42_lzw.md R161, R168). That an IMAGE's COMPOSE body runs in the step of its EOI code is
the model's choice (DESIGN CHOICE, log 5). -/
def Obligations.EoiCompletesAFullImage : Prop :=
  ∀ s : State,
    (s.idxLen ≠ s.lzw.expLen → exec .eoi s = .next (s.errorEntry .length s.idxLen s.lzw.expLen)) ∧
    (s.idxLen = s.lzw.expLen → s.pending.inImage = false → exec .eoi s =
      .next { s with lzw := { s.lzw with phase := .done },
                     status := { s.status with idxValid := true, busy := false, done := true },
                     pending := .none }) ∧
    (s.idxLen = s.lzw.expLen → s.pending.inImage = true → exec .eoi s =
      exec .compose { s with lzw := { s.lzw with phase := .done },
                             status := { s.status with idxValid := true } })

/-- KNOWN (42_lzw.md R163, R166, with the growth of R167): a full dictionary traps before anything else, then
an output that would pass the expected count; otherwise emit the code's string, add the entry of its first
byte and PREV, grow the width if the next index needs it, remember the code. -/
def Obligations.KnownEmitsAndAddsAnEntry : Prop :=
  ∀ (s : State) (c : BitVec 12), s.mem.wf = true →
    (s.lzw.next.toNat = 4096 → s.lzw.width.toNat ≤ s.brPos.toNat →
      exec (.known c) s =
        .next (s.errorEntry .dictOverflow (word (s.brPos.toNat - s.lzw.width.toNat)) (word c.toNat))) ∧
    (∀ str, s.lzw.next.toNat < 4096 → s.translate c.toNat = some str →
      s.idxLen.toNat + str.length > s.lzw.expLen.toNat →
      exec (.known c) s =
        .next (s.errorEntry .length (word (s.idxLen.toNat + str.length)) s.lzw.expLen)) ∧
    (∀ str, s.lzw.next.toNat < 4096 → s.translate c.toNat = some str →
      s.idxLen.toNat + str.length ≤ s.lzw.expLen.toNat →
      ∃ t b rest, exec (.known c) s = .next t ∧ str = b :: rest ∧
        t.idxLen.toNat = s.idxLen.toNat + str.length ∧
        (∀ j (h : j < str.length), t.idxAt (s.idxLen.toNat + j) = str[j]) ∧
        (∀ k, k < s.idxLen.toNat ∨ s.idxLen.toNat + str.length ≤ k → t.idxAt k = s.idxAt k) ∧
        (∀ e, t.dictAt e =
          if e = s.lzw.next.toNat then { byte := b, pred := s.lzw.prev } else s.dictAt e) ∧
        t.lzw.next.toNat = s.lzw.next.toNat + 1 ∧
        t.lzw.width.toNat = (if s.lzw.next.toNat + 1 ≥ 2 ^ s.lzw.width.toNat ∧ s.lzw.width.toNat < 12
          then s.lzw.width.toNat + 1 else s.lzw.width.toNat) ∧
        t.lzw.prev = c ∧
        { t with idxLen := s.idxLen,
                 lzw := { t.lzw with next := s.lzw.next, width := s.lzw.width, prev := s.lzw.prev },
                 mem := { t.mem with idx := s.mem.idx, dict := s.mem.dict } } = s)

/-- KWKWK (42_lzw.md R164): the string of PREV followed by its own first byte; otherwise as KNOWN, with the
code NEXT, and the same trap on an output that would pass the expected count. -/
def Obligations.KwkwkExtendsThePreviousString : Prop :=
  ∀ (s : State) (t0 : List Byte), s.mem.wf = true → s.lzw.next.toNat < 4096 →
    s.translate s.lzw.prev.toNat = some t0 →
    (s.idxLen.toNat + (t0.length + 1) > s.lzw.expLen.toNat →
      exec .kwkwk s =
        .next (s.errorEntry .length (word (s.idxLen.toNat + (t0.length + 1))) s.lzw.expLen)) ∧
    (s.idxLen.toNat + (t0.length + 1) ≤ s.lzw.expLen.toNat →
      ∃ t b rest, exec .kwkwk s = .next t ∧ t0 = b :: rest ∧
        t.idxLen.toNat = s.idxLen.toNat + (t0.length + 1) ∧
        (∀ j (h : j < t0.length), t.idxAt (s.idxLen.toNat + j) = t0[j]) ∧
        t.idxAt (s.idxLen.toNat + t0.length) = b ∧
        (∀ k, k < s.idxLen.toNat ∨ s.idxLen.toNat + (t0.length + 1) ≤ k → t.idxAt k = s.idxAt k) ∧
        (∀ e, t.dictAt e =
          if e = s.lzw.next.toNat then { byte := b, pred := s.lzw.prev } else s.dictAt e) ∧
        t.lzw.next.toNat = s.lzw.next.toNat + 1 ∧
        t.lzw.width.toNat = (if s.lzw.next.toNat + 1 ≥ 2 ^ s.lzw.width.toNat ∧ s.lzw.width.toNat < 12
          then s.lzw.width.toNat + 1 else s.lzw.width.toNat) ∧
        t.lzw.prev.toNat = s.lzw.next.toNat ∧
        { t with idxLen := s.idxLen,
                 lzw := { t.lzw with next := s.lzw.next, width := s.lzw.width, prev := s.lzw.prev },
                 mem := { t.mem with idx := s.mem.idx, dict := s.mem.dict } } = s)

/-- In a running decode every base code and live entry translates (42_lzw.md R153, R154 and the bounds after
them): a base code to its own byte, an entry to its predecessor's string followed by its byte, all bytes base
codes, at most one byte more than the entries above EOI up to its own. -/
def Obligations.LiveCodesTranslate : Prop :=
  ∀ (s : State) (c : Nat), LzwInv s → s.stringCode c →
    ∃ str, s.translate c = some str ∧ 1 ≤ str.length ∧ str.length ≤ c - s.eoiCode + 1 ∧
      str.length ≤ 4093 ∧
      (∀ b ∈ str, b.toNat < s.clearCode) ∧
      (c < s.clearCode → str = [BitVec.ofNat 8 c]) ∧
      (s.eoiCode < c → ∃ p, s.translate (s.dictAt c).pred.toNat = some p ∧
        str = p ++ [(s.dictAt c).byte])

/-- An added entry stands for PREV's string followed by its byte, and no older code changes its string
(42_lzw.md R167, 00_scope.md R14 "Dictionary entry"). -/
def Obligations.AddedEntryExtendsTheDictionary : Prop :=
  ∀ (s : State) (b : Byte) (p : BitVec 12), LzwInv s → s.mem.wf = true → s.lzw.next.toNat < 4096 →
    s.stringCode p.toNat →
    (∀ c, s.stringCode c → (s.addEntry b p).translate c = s.translate c) ∧
    ∃ str, s.translate p.toNat = some str ∧
      (s.addEntry b p).translate s.lzw.next.toNat = some (str ++ [b])

/-- A running decode keeps its invariant from code to code (42_lzw.md, section 4, first list). -/
def Obligations.CodeStepsKeepTheDecodeInvariant : Prop :=
  ∀ (s t : State) (image image' : Bool), LzwInv s → s.caps.ok → s.mem.wf = true →
    s.cbufLen.toNat ≤ s.caps.cbuf.toNat → s.pending = .code image → coreStep s = .next t →
    t.pending = .code image' → LzwInv t

/-! ## The Frame Compositor -/

/-- BEGIN_DOC (43_compositor.md R190, R191): a canvas too large is E_RES_CANVAS; otherwise the size is latched,
every canvas cell of the document becomes RGBA(0, 0, 0, 0), the counts and flags are set, nothing else. -/
def Obligations.BeginDocOpensABlankCanvas : Prop :=
  ∀ s : State, s.mem.wf = true →
    (s.op.canvasSize.w.toNat * s.op.canvasSize.h.toNat > s.caps.canvas.toNat →
      exec .beginDoc s =
        .next (s.errorEntry .resCanvas (word (s.op.canvasSize.w.toNat * s.op.canvasSize.h.toNat))
          s.caps.canvas)) ∧
    (s.op.canvasSize.w.toNat * s.op.canvasSize.h.toNat ≤ s.caps.canvas.toNat →
      ∃ t, exec .beginDoc s = .next t ∧ t.docSize = s.op.canvasSize ∧ t.frameCount = 0 ∧
        (∀ a, t.canvasAt a = if a < s.op.canvasSize.w.toNat * s.op.canvasSize.h.toNat
          then { r := 0, g := 0, b := 0, a := 0 } else s.canvasAt a) ∧
        t.status = { s.status with docOpen := true, snapValid := false, cbufValid := false,
                                   idxValid := false, busy := false, done := true } ∧
        t.pending = .none ∧
        { t with docSize := s.docSize, frameCount := s.frameCount, status := s.status,
                 pending := s.pending, mem := { t.mem with canvas := s.mem.canvas } } = s)

/-- The interlace row map: the decoded rows run through the true rows 0, 8, 16, …, then 4, 12, 20, …, then 2, 6,
10, …, then 1, 3, 5, … (43_compositor.md R195); it is a bijection of the frame's rows, and the four passes hold
all of them (the property after it). -/
def Obligations.RowMapIsABijection : Prop :=
  ∀ h : Nat,
    let n0 := if h > 0 then (h - 0 - 1) / 8 + 1 else 0
    let n1 := if h > 4 then (h - 4 - 1) / 8 + 1 else 0
    let n2 := if h > 2 then (h - 2 - 1) / 4 + 1 else 0
    let n3 := if h > 1 then (h - 1 - 1) / 2 + 1 else 0
    n0 + n1 + n2 + n3 = h ∧
    (∀ k, k < n0 → rowmap k h = 0 + k * 8) ∧
    (∀ k, k < n1 → rowmap (n0 + k) h = 4 + k * 8) ∧
    (∀ k, k < n2 → rowmap (n0 + n1 + k) h = 2 + k * 4) ∧
    (∀ k, k < n3 → rowmap (n0 + n1 + n2 + k) h = 1 + k * 2) ∧
    (∀ r, r < h → rowmap r h < h) ∧ ∀ y, y < h → ∃! r, r < h ∧ rowmap r h = y

/-- COMPOSE's checks in order, before any write (43_compositor.md R193, R194). -/
def Obligations.ComposeChecksInOrder : Prop :=
  ∀ s : State,
    let L := s.op.frmPos.left.toNat
    let U := s.op.frmPos.top.toNat
    let fw := s.op.frmSize.w.toNat
    let fh := s.op.frmSize.h.toNat
    let W := s.docSize.w.toNat
    let H := s.docSize.h.toNat
    let d := s.op.frmCtrl.disposal.toNat
    (s.status.docOpen = false → exec .compose s = .next (s.errorEntry .sequence 0x05 1)) ∧
    (s.status.docOpen = true → s.status.idxValid = false →
      exec .compose s = .next (s.errorEntry .sequence 0x05 2)) ∧
    (s.status.docOpen = true → s.status.idxValid = true →
      (3 < d → exec .compose s = .next (s.errorEntry .badDisposal (word d) 0)) ∧
      (d ≤ 3 → L + fw > W ∨ U + fh > H →
        exec .compose s = .next (s.errorEntry .frameBounds (word (U * 2 ^ 16 + L))
          (word ((if L + fw > W then 1 else 0) + 2 * (if U + fh > H then 1 else 0))))) ∧
      (d ≤ 3 → L + fw ≤ W → U + fh ≤ H → s.idxLen.toNat ≠ fw * fh →
        exec .compose s = .next (s.errorEntry .length s.idxLen (word (fw * fh)))) ∧
      (d ≤ 3 → L + fw ≤ W → U + fh ≤ H → s.idxLen.toNat = fw * fh →
        ∀ k, k < s.idxLen.toNat → 2 ^ (s.op.frmCtrl.ctSize.toNat + 1) ≤ (s.idxAt k).toNat →
          (∀ j, j < k → (s.idxAt j).toNat < 2 ^ (s.op.frmCtrl.ctSize.toNat + 1)) →
          exec .compose s = .next (s.errorEntry .pixelRange (word k) (word (s.idxAt k).toNat))))

/-- COMPOSE draws and takes the snapshot (43_compositor.md R197, R200 to R202): each non-transparent frame
pixel shows its colour, opaque, on the row its decoded row maps to; every other cell of the document shows the
canvas as it was. -/
def Obligations.ComposeSnapshotShowsTheFrame : Prop :=
  ∀ (s : State) (d : Disposal), s.mem.wf = true → ComposeReady s d →
    ∃ t, exec .compose s = .next t ∧ t.snapDelay = s.op.frmDelay ∧ t.status.snapValid = true ∧
      (∀ x r, x < s.op.frmSize.w.toNat → r < s.op.frmSize.h.toNat →
        let y := s.op.frmPos.top.toNat +
          (if s.op.frmCtrl.interlace = true then rowmap r s.op.frmSize.h.toNat else r)
        let a := y * s.docSize.w.toNat + (s.op.frmPos.left.toNat + x)
        let i := s.idxAt (r * s.op.frmSize.w.toNat + x)
        t.snapAt a = if s.op.frmCtrl.transEn = true ∧ i = s.op.frmTrans then s.canvasAt a
          else { r := s.ctAt (3 * i.toNat), g := s.ctAt (3 * i.toNat + 1), b := s.ctAt (3 * i.toNat + 2),
                 a := 0xFF }) ∧
      (∀ a, a < s.docSize.w.toNat * s.docSize.h.toNat → ¬ s.inFrame a → t.snapAt a = s.canvasAt a) ∧
      (∀ a, s.docSize.w.toNat * s.docSize.h.toNat ≤ a → t.snapAt a = s.snapAt a)

/-- The canvas after COMPOSE, by disposal method (43_compositor.md R203 to R205): None and DoNotDispose leave
what the snapshot shows, RestoreBackground clears exactly the frame rectangle to RGBA(0, 0, 0, 0),
RestorePrevious gives back the canvas before the frame. -/
def Obligations.ComposeDisposalPreparesTheCanvas : Prop :=
  ∀ (s : State) (d : Disposal), s.mem.wf = true → ComposeReady s d →
    ∃ t, exec .compose s = .next t ∧
      (d = .none ∨ d = .doNotDispose →
        ∀ a, a < s.docSize.w.toNat * s.docSize.h.toNat → t.canvasAt a = t.snapAt a) ∧
      (d = .restoreBackground → ∀ a, a < s.docSize.w.toNat * s.docSize.h.toNat →
        (s.inFrame a → t.canvasAt a = { r := 0, g := 0, b := 0, a := 0 }) ∧
        (¬ s.inFrame a → t.canvasAt a = s.canvasAt a)) ∧
      (d = .restorePrevious → ∀ a, t.canvasAt a = s.canvasAt a) ∧
      (∀ a, s.docSize.w.toNat * s.docSize.h.toNat ≤ a → t.canvasAt a = s.canvasAt a)

/-- What COMPOSE leaves unchanged, its flags and its count (43_compositor.md R198, R206): SAVE is written only
by RestorePrevious and only in the frame rectangle, where it holds the canvas before the frame. -/
def Obligations.ComposeFrameAndCompletion : Prop :=
  ∀ (s : State) (d : Disposal), s.mem.wf = true → ComposeReady s d →
    ∃ t, exec .compose s = .next t ∧ t.frameCount = s.frameCount + 1 ∧
      t.status = { s.status with snapValid := true, idxValid := false, busy := false, done := true } ∧
      t.pending = .none ∧
      (∀ a, t.saveAt a = s.saveAt a ∨ (d = .restorePrevious ∧ s.inFrame a)) ∧
      (d = .restorePrevious → ∀ a, s.inFrame a → t.saveAt a = s.canvasAt a) ∧
      { t with frameCount := s.frameCount, snapDelay := s.snapDelay, status := s.status,
               pending := s.pending,
               mem := { t.mem with canvas := s.mem.canvas, save := s.mem.save, snap := s.mem.snap } } = s

/-! ## The whole machine -/

/-- ID and the capacities read the same after every step, a reset among them (10_state.md R22, R54). -/
def Obligations.IdAndCapacitiesAreConstants : Prop :=
  ∀ s t : State, step s = .next t →
    t.readRegs 0x00 = 0x4D474946 ∧ t.readRegs 0x60 = s.caps.src ∧ t.readRegs 0x64 = s.caps.cbuf ∧
    t.readRegs 0x68 = s.caps.idx ∧ t.readRegs 0x6C = s.caps.canvas ∧ t.caps = s.caps

/-- Which instructions may write what (10_state.md section 3, 41_bitreader.md R144): every register and memory
an instruction is not named for is as before. That the EOI of an IMAGE carries the COMPOSE body and its SB_TERM
the LZW_DECODE start, so that IMAGE, ASSEMBLE and LZW_DECODE write no more than their starts, is the model's
choice (DESIGN CHOICE, log 5). -/
def Obligations.InstructionsWriteOnlyTheirOwnState : Prop :=
  ∀ (i : Instr) (s t : State), exec i s = .next t →
    t.mem.src = s.mem.src ∧ t.mem.ct = s.mem.ct ∧ t.caps = s.caps ∧ t.env = s.env ∧
    ((∀ n, i ≠ .sbData n) → t.mem.cbuf = s.mem.cbuf) ∧
    (i ≠ .kwkwk → (∀ c, i ≠ .known c) → t.mem.dict = s.mem.dict ∧
      ((∀ c, i ≠ .baseAfterClear c) → t.mem.idx = s.mem.idx)) ∧
    (i ≠ .compose → i ≠ .eoi → t.mem.save = s.mem.save ∧ t.mem.snap = s.mem.snap ∧
      (i ≠ .beginDoc → t.mem.canvas = s.mem.canvas)) ∧
    (i ≠ .softReset →
      t.op = s.op ∧ t.irqEn = s.irqEn ∧ t.status.wbusy = s.status.wbusy ∧
      (i ≠ .beginDoc → t.docSize = s.docSize) ∧
      (i ≠ .compose → i ≠ .eoi → t.snapDelay = s.snapDelay ∧
        (i ≠ .beginDoc → t.frameCount = s.frameCount)) ∧
      (i ≠ .lzwDecode → i ≠ .sbTerm → t.brPos = s.brPos) ∧
      (i ≠ .sbTerm → (∀ n, i ≠ .sbData n) → t.srcPtr = s.srcPtr) ∧
      (i ≠ .assemble → i ≠ .image → (∀ n, i ≠ .sbData n) → t.cbufLen = s.cbufLen) ∧
      (i ∈ [.nop, .beginDoc, .assemble, .compose, .image, .endDoc] ∨ (∃ n, i = .sbData n) →
        t.lzw = s.lzw ∧ t.idxLen = s.idxLen))

/-- Every step keeps every memory in its canonical form, so equal memories are equal data. -/
def Obligations.StepKeepsMemoryCanonical : Prop :=
  ∀ s t : State, s.mem.wf = true → step s = .next t → t.mem.wf = true

/-- Reset meets the block's invariant. -/
def Obligations.ResetMeetsTheBlockInvariant : Prop := Inv State.reset

/-- Every step, of the host or of the core, keeps the block's invariant (Safety.lean): legal STATUS
combinations, an error state that voids everything and runs nothing but SOFT_RESET, buffers within their
capacities, and the decode invariant while a decode runs. -/
def Obligations.StepKeepsTheBlockInvariant : Prop :=
  ∀ s t : State, Inv s → step s = .next t → Inv t

/-- The error state is left only through SOFT_RESET or a hardware reset, and meanwhile the error registers keep
describing the first error (60_exceptions.md R270, 44_control.md R231). -/
def Obligations.OnlyResetLeavesTheErrorState : Prop :=
  ∀ s t : State, Inv s → s.status.err = true → step s = .next t →
    (t.status.err = true ∧ t.err = s.err) ∨ (s.pending = .word 0x00000001 ∧ t.status.err = false) ∨
    ∃ drawn es, s.env.host = .hardReset drawn :: es

/-- A command ends in one of two ways (44_control.md R233): done, or failed, SOFT_RESET neither; after an
instruction that does not end it it stays busy with neither flag. -/
def Obligations.CommandsEndDoneOrFailed : Prop :=
  ∀ s t : State, Inv s → s.pending ≠ .none → coreStep s = .next t →
    (t.pending ≠ .none → t.status.busy = true ∧ t.status.done = false ∧ t.status.err = false) ∧
    (t.pending = .none → t.status.busy = false ∧
      (s.pending = .word 0x00000001 → t.status.done = false ∧ t.status.err = false) ∧
      (s.pending ≠ .word 0x00000001 → t.status.done = !t.status.err))

/-- No step stops from a state that meets the invariant, unless the host makes an access that 20_memory.md R71
does not have: the machine raises no fault, and refuses nothing else. -/
def Obligations.InvariantStatesNeverStop : Prop :=
  ∀ s : State, Inv s →
    (∀ a, HostEvent.access a ∈ s.env.host → a.shapeOk = true ∧ a.inRegs = true) →
    ∃ t, step s = .next t

/-- Every accepted command ends, within the number of instructions that the length of its sub-block chain and
the size of its stream allow (44_control.md, termination). However its core steps are paced it ends, and in the
same state but for the surroundings; and it can take any number n of core steps from 1 on, an illegal word
apart, with its whole effect in the last of them (00_scope.md R10, 44_control.md R232, 20_memory.md R77). The
paces are the model's parameter for CMD_STEPS, and the bound counts the model's own instructions (log 5). -/
def Obligations.EveryCommandEnds : Prop :=
  ∀ s : State, Inv s → ∃ t,
    coreRun s.stepBound s = .next t ∧ t.pending = .none ∧ t.status.busy = false ∧
    (∀ ps : List Nat, ∃ u, coreTurns (ps.length + s.stepBound) (s.withPaces ps) = .next u ∧
      { u with env := t.env } = t) ∧
    (∀ n, 1 ≤ n → s.pending ≠ .none → s.pending.illegal = false → ∃ ps : List Nat,
      (∃ u, coreTurns n (s.withPaces ps) = .next u ∧ { u with env := t.env } = t) ∧
      ∀ m, m < n → ∃ u, coreTurns m (s.withPaces ps) = .next u ∧ { u with env := s.env } = s)

/-- An IMAGE leaves exactly what ASSEMBLE, LZW_DECODE and COMPOSE leave, run one after the other as commands of
their own, up to the first that fails (44_control.md R237). -/
def Obligations.ImageEqualsItsThreeCommands : Prop :=
  ∀ (s t : State) (k : Nat), Inv s → s.pending = .word 0x06 → s.status.docOpen = true →
    coreRun k s = .next t → t.pending = .none →
    ∃ ka a, coreRun ka (s.acceptedAs 0x03) = .next a ∧ a.pending = .none ∧
      (a.status.err = true → t = a) ∧
      (a.status.err = false →
        ∃ kb b, coreRun kb (a.acceptedAs 0x04) = .next b ∧ b.pending = .none ∧
          (b.status.err = true → t = b) ∧
          (b.status.err = false → coreStep (b.acceptedAs 0x05) = .next t))

/-- What the host does while a command runs cannot change its course (20_memory.md R75 to R77): two states
that differ only in WBUSY and in the surroundings run the core's next instruction to results that differ only
there. -/
def Obligations.CoreStepIgnoresTheHost : Prop :=
  ∀ s s' t : State, s.blind = s'.blind → coreStep s = .next t →
    ∃ t', coreStep s' = .next t' ∧ t'.blind = t.blind

/-- A host access made while BUSY = 1 touches only WBUSY and the surroundings, so the state a running command
sees is the one at its acceptance (20_memory.md R75, R76). -/
def Obligations.HostAccessWhileBusyIsInvisibleToTheCore : Prop :=
  ∀ (s t : State) (e : HostEvent), s.status.busy = true → (∀ m, e ≠ .hardReset m) →
    hostEvent e s = .next t → t.blind = s.blind

/-- Until a command ends the host sees nothing of it but BUSY (20_memory.md R77): its acceptance leaves every
STATUS bit but BUSY, DONE and IRQ as it was, a core step that does not end it leaves the interrupt line and every
read that is no free draw, STATUS among them, as they were, and a host step meanwhile can change no bit of STATUS
but WBUSY. That a read of STATUS meanwhile shows the four validity flags as at the acceptance, where R29 and R30
of 10_state.md clear two of them at the start, is the model's reading (DEDUCED, log 16); that a core step runs as
many instructions as its pace says is the model's choice (DESIGN CHOICE, log 5). -/
def Obligations.OnlyBusyShowsUntilTheEnd : Prop :=
  (∀ (s t : State) (v : Word), s.status.busy = false → t.status.busy = true →
    hostAccess { space := .regs, offset := 0x04, bytes := 4, op := .write v } s = .next t →
    t.readRegs 0x08 &&& 0xFC = s.readRegs 0x08 &&& 0xFC) ∧
  (∀ s t : State, s.status.busy = true → t.status.busy = true → coreTurn s = .next t →
    t.irq = s.irq ∧ ∀ a : BusAccess, t.readIsDraw a = s.readIsDraw a ∧
      (s.readIsDraw a = false → t.readExact a = s.readExact a)) ∧
  (∀ s t : State, s.status.busy = true → t.status.busy = true → hostTurn s = .next t →
    t.irq = s.irq ∧ t.readRegs 0x08 ||| 0x80 = s.readRegs 0x08 ||| 0x80)
end

