-- ==== Sys2Proof/Laws/Memory.lean ====
section
/-! SUPPORT. The laws of the sparse memories: a read after a write gives the value written, a write leaves
every other address alone, and every operation keeps the canonical form and the bounds. -/

namespace Sys2Proof.Machine

section Sparse
variable {α : Type} [DecidableEq α] {d : α}

theorem Mem.wfFrom_mono {m : List (Nat × α)} {lo lo' : Nat} (h : lo' ≤ lo)
    (hm : Mem.wfFrom d lo m = true) : Mem.wfFrom d lo' m = true := by
  cases m with
  | nil => rfl
  | cons p m =>
    obtain ⟨k, x⟩ := p
    simp only [Mem.wfFrom, Bool.and_eq_true, decide_eq_true_eq] at hm ⊢
    exact ⟨⟨by omega, hm.1.2⟩, hm.2⟩

theorem Mem.read_below {m : List (Nat × α)} {lo a : Nat} (hm : Mem.wfFrom d lo m = true)
    (ha : a < lo) : Mem.read d m a = d := by
  induction m generalizing lo with
  | nil => rfl
  | cons p m ih =>
    obtain ⟨k, x⟩ := p
    simp only [Mem.wfFrom, Bool.and_eq_true, decide_eq_true_eq] at hm
    rw [Mem.read, if_neg (by omega)]
    exact ih hm.2 (by omega)

theorem Mem.wfFrom_write {m : List (Nat × α)} {lo a : Nat} (v : α) (hm : Mem.wfFrom d lo m = true)
    (ha : lo ≤ a) : Mem.wfFrom d lo (Mem.write d m a v) = true := by
  induction m generalizing lo with
  | nil =>
    rw [Mem.write]
    split <;> simp [Mem.wfFrom, *]
  | cons p m ih =>
    obtain ⟨k, x⟩ := p
    have hm' := hm
    simp only [Mem.wfFrom, Bool.and_eq_true, decide_eq_true_eq] at hm
    rw [Mem.write]
    split
    · split
      · exact hm'
      · simp only [Mem.wfFrom, Bool.and_eq_true, decide_eq_true_eq]
        exact ⟨⟨ha, ‹_›⟩, ⟨by omega, hm.1.2⟩, hm.2⟩
    · split
      · subst_vars
        split
        · exact Mem.wfFrom_mono (by omega) hm.2
        · simp only [Mem.wfFrom, Bool.and_eq_true, decide_eq_true_eq]
          exact ⟨⟨hm.1.1, ‹_›⟩, hm.2⟩
      · simp only [Mem.wfFrom, Bool.and_eq_true, decide_eq_true_eq]
        exact ⟨hm.1, ih hm.2 (by omega)⟩

theorem Mem.wf_write {m : List (Nat × α)} (a : Nat) (v : α) (hm : Mem.wf d m = true) :
    Mem.wf d (Mem.write d m a v) = true :=
  Mem.wfFrom_write v hm (Nat.zero_le a)

theorem Mem.readFrom_write {m : List (Nat × α)} {lo : Nat} (a b : Nat) (v : α)
    (hm : Mem.wfFrom d lo m = true) :
    Mem.read d (Mem.write d m a v) b = if b = a then v else Mem.read d m b := by
  induction m generalizing lo with
  | nil =>
    rw [Mem.write]
    split
    · simp_all [Mem.read]
    · simp only [Mem.read, eq_comm]
  | cons p m ih =>
    obtain ⟨k, x⟩ := p
    simp only [Mem.wfFrom, Bool.and_eq_true, decide_eq_true_eq] at hm
    rw [Mem.write]
    split
    · have hb : ∀ b, b ≤ a → Mem.read d ((k, x) :: m) b = d := fun b hb =>
        Mem.read_below (lo := a + 1) (d := d)
          (by simp only [Mem.wfFrom, Bool.and_eq_true, decide_eq_true_eq]
              exact ⟨⟨by omega, hm.1.2⟩, hm.2⟩) (by omega)
      split
      · by_cases h : b = a
        · subst h; rw [if_pos rfl, hb _ le_rfl, ‹v = d›]
        · rw [if_neg h]
      · rw [Mem.read]
        by_cases h : b = a
        · rw [if_pos h.symm, if_pos h]
        · rw [if_neg (Ne.symm h), if_neg h]
    · split
      · subst_vars
        have hk : Mem.read d m k = d := Mem.read_below hm.2 (by omega)
        by_cases h : b = k
        · subst h
          split
          · rw [hk, if_pos rfl, ‹v = d›]
          · rw [Mem.read, if_pos rfl, if_pos rfl]
        · rw [if_neg h]
          split
          · rw [Mem.read, if_neg (Ne.symm h)]
          · rw [Mem.read, Mem.read, if_neg (Ne.symm h), if_neg (Ne.symm h)]
      · rw [Mem.read, Mem.read, ih hm.2]
        by_cases h : k = b
        · rw [if_pos h, if_pos h, if_neg (by omega)]
        · rw [if_neg h, if_neg h]

/-- A read after a write. -/
theorem Mem.read_write {m : List (Nat × α)} (a b : Nat) (v : α) (hm : Mem.wf d m = true) :
    Mem.read d (Mem.write d m a v) b = if b = a then v else Mem.read d m b :=
  Mem.readFrom_write a b v hm

theorem Mem.within_write {m : List (Nat × α)} {cap a : Nat} (v : α) (hm : Mem.within cap m = true)
    (ha : a < cap) : Mem.within cap (Mem.write d m a v) = true := by
  induction m with
  | nil =>
    rw [Mem.write]
    split <;> simp [Mem.within, ha]
  | cons p m ih =>
    obtain ⟨k, x⟩ := p
    simp only [Mem.within, List.all_cons, Bool.and_eq_true, decide_eq_true_eq] at hm ih ⊢
    rw [Mem.write]
    split
    · split <;> simp [hm, ha]
    · split
      · split <;> simp [hm, ha]
      · simp [hm.1, ih hm.2]

theorem Mem.writeAll_nil (m : List (Nat × α)) : Mem.writeAll d m [] = m := rfl

theorem Mem.writeAll_cons (m : List (Nat × α)) (p : Nat × α) (ps : List (Nat × α)) :
    Mem.writeAll d m (p :: ps) = Mem.writeAll d (Mem.write d m p.1 p.2) ps := rfl

theorem Mem.wf_writeAll {m : List (Nat × α)} (ps : List (Nat × α)) (hm : Mem.wf d m = true) :
    Mem.wf d (Mem.writeAll d m ps) = true := by
  induction ps generalizing m with
  | nil => exact hm
  | cons p ps ih => exact ih (Mem.wf_write _ _ hm)

theorem Mem.within_writeAll {m : List (Nat × α)} {cap : Nat} {ps : List (Nat × α)}
    (hm : Mem.within cap m = true) (hp : ∀ p ∈ ps, p.1 < cap) :
    Mem.within cap (Mem.writeAll d m ps) = true := by
  induction ps generalizing m with
  | nil => exact hm
  | cons p ps ih =>
    exact ih (Mem.within_write _ hm (hp p (by simp))) fun q hq => hp q (by simp [hq])

/-- An address none of the stores names keeps its value. -/
theorem Mem.read_writeAll_other {m : List (Nat × α)} {ps : List (Nat × α)} {b : Nat}
    (hm : Mem.wf d m = true) (hb : ∀ p ∈ ps, p.1 ≠ b) :
    Mem.read d (Mem.writeAll d m ps) b = Mem.read d m b := by
  induction ps generalizing m with
  | nil => rfl
  | cons p ps ih =>
    rw [Mem.writeAll_cons, ih (Mem.wf_write _ _ hm) fun q hq => hb q (by simp [hq]),
      Mem.read_write _ _ _ hm, if_neg (Ne.symm (hb p (by simp)))]

/-- An address that stores name holds the value they give it, if they all give it the same one. -/
theorem Mem.read_writeAll_agree {m : List (Nat × α)} {ps : List (Nat × α)} {b : Nat} {v : α}
    (hm : Mem.wf d m = true) (hmem : (b, v) ∈ ps) (hall : ∀ p ∈ ps, p.1 = b → p.2 = v) :
    Mem.read d (Mem.writeAll d m ps) b = v := by
  induction ps generalizing m with
  | nil => simp at hmem
  | cons p ps ih =>
    rw [Mem.writeAll_cons]
    by_cases hin : (b, v) ∈ ps
    · exact ih (Mem.wf_write _ _ hm) hin fun q hq => hall q (by simp [hq])
    · have hp : p = (b, v) := by
        rcases List.mem_cons.1 hmem with h | h
        · exact h.symm
        · exact absurd h hin
      have hrest : ∀ q ∈ ps, q.1 ≠ b := fun q hq hqb =>
        hin (by
          have h2 := hall q (by simp [hq]) hqb
          have : q = (b, v) := Prod.ext hqb h2
          exact this ▸ hq)
      rw [Mem.read_writeAll_other (Mem.wf_write _ _ hm) hrest, hp, Mem.read_write _ _ _ hm,
        if_pos rfl]

theorem Mem.wf_canon (cap : Nat) (ps : List (Nat × α)) : Mem.wf d (Mem.canon d cap ps) = true :=
  Mem.wf_writeAll _ rfl

theorem Mem.within_canon (cap : Nat) (ps : List (Nat × α)) :
    Mem.within cap (Mem.canon d cap ps) = true :=
  Mem.within_writeAll rfl fun p hp => by simpa using (List.mem_filter.1 hp).2

/-- Canonical memories that read alike are equal lists. -/
theorem Mem.ext_read {m m' : List (Nat × α)} {lo : Nat} (hm : Mem.wfFrom d lo m = true)
    (hm' : Mem.wfFrom d lo m' = true) (h : ∀ a, Mem.read d m a = Mem.read d m' a) : m = m' := by
  induction m generalizing lo m' with
  | nil =>
    cases m' with
    | nil => rfl
    | cons p m' =>
      obtain ⟨k, x⟩ := p
      simp only [Mem.wfFrom, Bool.and_eq_true, decide_eq_true_eq] at hm'
      have := h k
      simp [Mem.read] at this
      exact absurd this.symm hm'.1.2
  | cons p m ih =>
    obtain ⟨k, x⟩ := p
    cases m' with
    | nil =>
      simp only [Mem.wfFrom, Bool.and_eq_true, decide_eq_true_eq] at hm
      have := h k
      simp [Mem.read] at this
      exact absurd this hm.1.2
    | cons q m' =>
      obtain ⟨k', x'⟩ := q
      have hw := hm
      have hw' := hm'
      simp only [Mem.wfFrom, Bool.and_eq_true, decide_eq_true_eq] at hm hm'
      have hk : k = k' := by
        rcases Nat.lt_trichotomy k k' with hlt | heq | hgt
        · have h1 := h k
          rw [Mem.read_below (lo := k + 1) (a := k) (m := (k', x') :: m')
            (by simp only [Mem.wfFrom, Bool.and_eq_true, decide_eq_true_eq]
                exact ⟨⟨by omega, hm'.1.2⟩, hm'.2⟩) (by omega)] at h1
          simp [Mem.read] at h1
          exact absurd h1 hm.1.2
        · exact heq
        · have h1 := h k'
          rw [Mem.read_below (lo := k' + 1) (a := k') (m := (k, x) :: m)
            (by simp only [Mem.wfFrom, Bool.and_eq_true, decide_eq_true_eq]
                exact ⟨⟨by omega, hm.1.2⟩, hm.2⟩) (by omega)] at h1
          simp [Mem.read] at h1
          exact absurd h1.symm hm'.1.2
      subst hk
      have hx : x = x' := by simpa [Mem.read] using h k
      subst hx
      rw [ih hm.2 hm'.2 fun a => ?_]
      rcases Nat.lt_or_ge a (k + 1) with ha | ha
      · rw [Mem.read_below hm.2 ha, Mem.read_below hm'.2 ha]
      · have := h a
        rwa [Mem.read, Mem.read, if_neg (by omega), if_neg (by omega)] at this

end Sparse

/-! ## Bytes placed one after the other -/

section Placed
variable {α : Type}

theorem placed_length (a : Nat) (bs : List α) : (placed a bs).length = bs.length := by
  induction bs generalizing a with
  | nil => rfl
  | cons b bs ih => simp [placed, ih]

theorem mem_placed {a : Nat} {bs : List α} {p : Nat × α} :
    p ∈ placed a bs ↔ ∃ i, ∃ h : i < bs.length, p = (a + i, bs[i]) := by
  induction bs generalizing a with
  | nil => simp [placed]
  | cons b bs ih =>
    rw [placed, List.mem_cons, ih]
    constructor
    · rintro (rfl | ⟨i, hi, rfl⟩)
      · exact ⟨0, by simp, by simp⟩
      · exact ⟨i + 1, by simpa using hi, by simp; omega⟩
    · rintro ⟨i, hi, rfl⟩
      cases i with
      | zero => exact .inl (by simp)
      | succ i => exact .inr ⟨i, by simpa using hi, by simp; omega⟩

theorem placed_below {a cap : Nat} {bs : List α} (h : a + bs.length ≤ cap) :
    ∀ p ∈ placed a bs, p.1 < cap := by
  intro p hp
  obtain ⟨i, hi, rfl⟩ := mem_placed.1 hp
  simp; omega

variable [DecidableEq α] {d : α}

/-- Reading after bytes were stored one after the other from `a` on. -/
theorem Mem.read_writeAll_placed {m : List (Nat × α)} (hm : Mem.wf d m = true) (a : Nat)
    (bs : List α) (b : Nat) :
    Mem.read d (Mem.writeAll d m (placed a bs)) b =
      if h : a ≤ b ∧ b < a + bs.length then bs[b - a]'(by omega) else Mem.read d m b := by
  split
  · rename_i h
    refine Mem.read_writeAll_agree hm (mem_placed.2 ⟨b - a, by omega, ?_⟩) ?_
    · exact Prod.ext (by simp; omega) rfl
    · intro p hp hpb
      obtain ⟨i, hi, rfl⟩ := mem_placed.1 hp
      simp only at hpb ⊢
      subst hpb
      simp
  · rename_i h
    refine Mem.read_writeAll_other hm ?_
    intro p hp hpb
    obtain ⟨i, hi, rfl⟩ := mem_placed.1 hp
    simp only at hpb
    omega

end Placed

/-! ## All eight memories -/

theorem Memory.wf_empty : Memory.empty.wf = true := rfl

theorem Memory.within_empty (c : Caps) : Memory.empty.within c = true := rfl

theorem Memory.wf_canon (c : Caps) (m : Memory) : (m.canon c).wf = true := by
  simp [Memory.wf, Memory.canon, Mem.wf_canon]

theorem Memory.within_canon (c : Caps) (m : Memory) : (m.canon c).within c = true := by
  simp [Memory.within, Memory.canon, Mem.within_canon]

/-- The canonical form, one memory at a time. -/
theorem Memory.wf_iff (m : Memory) :
    m.wf = true ↔
      Mem.wf Config.unwrittenByte m.src = true ∧ Mem.wf Config.unwrittenByte m.ct = true ∧
      Mem.wf Config.unwrittenByte m.cbuf = true ∧ Mem.wf Config.unwrittenByte m.idx = true ∧
      Mem.wf unwrittenEntry m.dict = true ∧ Mem.wf unwrittenPixel m.canvas = true ∧
      Mem.wf unwrittenPixel m.save = true ∧ Mem.wf unwrittenPixel m.snap = true := by
  simp [Memory.wf, and_assoc]

/-- The bounds, one memory at a time. -/
theorem Memory.within_iff (c : Caps) (m : Memory) :
    m.within c = true ↔
      Mem.within c.src.toNat m.src = true ∧ Mem.within Config.ctBytes m.ct = true ∧
      Mem.within c.cbuf.toNat m.cbuf = true ∧ Mem.within c.idx.toNat m.idx = true ∧
      Mem.within Config.dictSize m.dict = true ∧ Mem.within c.canvas.toNat m.canvas = true ∧
      Mem.within c.canvas.toNat m.save = true ∧ Mem.within c.canvas.toNat m.snap = true := by
  simp [Memory.within, and_assoc]

end Sys2Proof.Machine
end

