-- ==== Sys2Proof/Laws/State.lean ====
section
/-! SUPPORT. What each named update of the state leaves in each field: one lemma per field per update. -/

namespace Sys2Proof.Machine

/-! ### `complete`: completion (44_control.md R233) -/

@[simp] theorem State.complete_status (s : State) : s.complete.status = { s.status with busy := false, done := true } := rfl
@[simp] theorem State.complete_irqEn (s : State) : s.complete.irqEn = s.irqEn := rfl
@[simp] theorem State.complete_err (s : State) : s.complete.err = s.err := rfl
@[simp] theorem State.complete_op (s : State) : s.complete.op = s.op := rfl
@[simp] theorem State.complete_srcPtr (s : State) : s.complete.srcPtr = s.srcPtr := rfl
@[simp] theorem State.complete_cbufLen (s : State) : s.complete.cbufLen = s.cbufLen := rfl
@[simp] theorem State.complete_idxLen (s : State) : s.complete.idxLen = s.idxLen := rfl
@[simp] theorem State.complete_frameCount (s : State) : s.complete.frameCount = s.frameCount := rfl
@[simp] theorem State.complete_snapDelay (s : State) : s.complete.snapDelay = s.snapDelay := rfl
@[simp] theorem State.complete_docSize (s : State) : s.complete.docSize = s.docSize := rfl
@[simp] theorem State.complete_brPos (s : State) : s.complete.brPos = s.brPos := rfl
@[simp] theorem State.complete_lzw (s : State) : s.complete.lzw = s.lzw := rfl
@[simp] theorem State.complete_caps (s : State) : s.complete.caps = s.caps := rfl
@[simp] theorem State.complete_mem (s : State) : s.complete.mem = s.mem := rfl
@[simp] theorem State.complete_pending (s : State) : s.complete.pending = .none := rfl
@[simp] theorem State.complete_env (s : State) : s.complete.env = s.env := rfl

/-! ### `errorEntry`: the error entry (60_exceptions.md R268) -/

@[simp] theorem State.errorEntry_status (s : State) (c : ErrCode) (i a : Word) : (s.errorEntry c i a).status = { s.status with err := true, done := false, docOpen := false, cbufValid := false, idxValid := false, snapValid := false, busy := false } := rfl
@[simp] theorem State.errorEntry_irqEn (s : State) (c : ErrCode) (i a : Word) : (s.errorEntry c i a).irqEn = s.irqEn := rfl
@[simp] theorem State.errorEntry_err (s : State) (c : ErrCode) (i a : Word) : (s.errorEntry c i a).err = ⟨c, i, a⟩ := rfl
@[simp] theorem State.errorEntry_op (s : State) (c : ErrCode) (i a : Word) : (s.errorEntry c i a).op = s.op := rfl
@[simp] theorem State.errorEntry_srcPtr (s : State) (c : ErrCode) (i a : Word) : (s.errorEntry c i a).srcPtr = s.srcPtr := rfl
@[simp] theorem State.errorEntry_cbufLen (s : State) (c : ErrCode) (i a : Word) : (s.errorEntry c i a).cbufLen = s.cbufLen := rfl
@[simp] theorem State.errorEntry_idxLen (s : State) (c : ErrCode) (i a : Word) : (s.errorEntry c i a).idxLen = s.idxLen := rfl
@[simp] theorem State.errorEntry_frameCount (s : State) (c : ErrCode) (i a : Word) : (s.errorEntry c i a).frameCount = s.frameCount := rfl
@[simp] theorem State.errorEntry_snapDelay (s : State) (c : ErrCode) (i a : Word) : (s.errorEntry c i a).snapDelay = s.snapDelay := rfl
@[simp] theorem State.errorEntry_docSize (s : State) (c : ErrCode) (i a : Word) : (s.errorEntry c i a).docSize = s.docSize := rfl
@[simp] theorem State.errorEntry_brPos (s : State) (c : ErrCode) (i a : Word) : (s.errorEntry c i a).brPos = s.brPos := rfl
@[simp] theorem State.errorEntry_lzw (s : State) (c : ErrCode) (i a : Word) : (s.errorEntry c i a).lzw = s.lzw := rfl
@[simp] theorem State.errorEntry_caps (s : State) (c : ErrCode) (i a : Word) : (s.errorEntry c i a).caps = s.caps := rfl
@[simp] theorem State.errorEntry_mem (s : State) (c : ErrCode) (i a : Word) : (s.errorEntry c i a).mem = s.mem := rfl
@[simp] theorem State.errorEntry_pending (s : State) (c : ErrCode) (i a : Word) : (s.errorEntry c i a).pending = .none := rfl
@[simp] theorem State.errorEntry_env (s : State) (c : ErrCode) (i a : Word) : (s.errorEntry c i a).env = s.env := rfl

/-! ### `softReset`: SOFT_RESET (70_reset_and_hazards.md R284) -/

@[simp] theorem State.softReset_status (s : State) : s.softReset.status = Status.reset := rfl
@[simp] theorem State.softReset_irqEn (s : State) : s.softReset.irqEn = false := rfl
@[simp] theorem State.softReset_err (s : State) : s.softReset.err = ErrRegs.reset := rfl
@[simp] theorem State.softReset_op (s : State) : s.softReset.op = Operands.reset := rfl
@[simp] theorem State.softReset_srcPtr (s : State) : s.softReset.srcPtr = 0 := rfl
@[simp] theorem State.softReset_cbufLen (s : State) : s.softReset.cbufLen = 0 := rfl
@[simp] theorem State.softReset_idxLen (s : State) : s.softReset.idxLen = 0 := rfl
@[simp] theorem State.softReset_frameCount (s : State) : s.softReset.frameCount = 0 := rfl
@[simp] theorem State.softReset_snapDelay (s : State) : s.softReset.snapDelay = 0 := rfl
@[simp] theorem State.softReset_docSize (s : State) : s.softReset.docSize = ⟨0, 0⟩ := rfl
@[simp] theorem State.softReset_brPos (s : State) : s.softReset.brPos = 0 := rfl
@[simp] theorem State.softReset_lzw (s : State) : s.softReset.lzw = Lzw.reset := rfl
@[simp] theorem State.softReset_caps (s : State) : s.softReset.caps = s.caps := rfl
@[simp] theorem State.softReset_mem (s : State) : s.softReset.mem = s.mem := rfl
@[simp] theorem State.softReset_pending (s : State) : s.softReset.pending = .none := rfl
@[simp] theorem State.softReset_env (s : State) : s.softReset.env = s.env := rfl

/-! ### `hardReset`: the hardware reset (70_reset_and_hazards.md R280) -/

@[simp] theorem State.hardReset_status (s : State) (m : Memory) : (s.hardReset m).status = Status.reset := rfl
@[simp] theorem State.hardReset_irqEn (s : State) (m : Memory) : (s.hardReset m).irqEn = false := rfl
@[simp] theorem State.hardReset_err (s : State) (m : Memory) : (s.hardReset m).err = ErrRegs.reset := rfl
@[simp] theorem State.hardReset_op (s : State) (m : Memory) : (s.hardReset m).op = Operands.reset := rfl
@[simp] theorem State.hardReset_srcPtr (s : State) (m : Memory) : (s.hardReset m).srcPtr = 0 := rfl
@[simp] theorem State.hardReset_cbufLen (s : State) (m : Memory) : (s.hardReset m).cbufLen = 0 := rfl
@[simp] theorem State.hardReset_idxLen (s : State) (m : Memory) : (s.hardReset m).idxLen = 0 := rfl
@[simp] theorem State.hardReset_frameCount (s : State) (m : Memory) : (s.hardReset m).frameCount = 0 := rfl
@[simp] theorem State.hardReset_snapDelay (s : State) (m : Memory) : (s.hardReset m).snapDelay = 0 := rfl
@[simp] theorem State.hardReset_docSize (s : State) (m : Memory) : (s.hardReset m).docSize = ⟨0, 0⟩ := rfl
@[simp] theorem State.hardReset_brPos (s : State) (m : Memory) : (s.hardReset m).brPos = 0 := rfl
@[simp] theorem State.hardReset_lzw (s : State) (m : Memory) : (s.hardReset m).lzw = Lzw.reset := rfl
@[simp] theorem State.hardReset_caps (s : State) (m : Memory) : (s.hardReset m).caps = s.caps := rfl
@[simp] theorem State.hardReset_mem (s : State) (m : Memory) : (s.hardReset m).mem = m.canon s.caps := rfl
@[simp] theorem State.hardReset_pending (s : State) (m : Memory) : (s.hardReset m).pending = .none := rfl
@[simp] theorem State.hardReset_env (s : State) (m : Memory) : (s.hardReset m).env = s.env := rfl

/-! ### `storeSrc`: stores to SRC -/

@[simp] theorem State.storeSrc_status (s : State) (ps : List Host.Cell) : (s.storeSrc ps).status = s.status := rfl
@[simp] theorem State.storeSrc_irqEn (s : State) (ps : List Host.Cell) : (s.storeSrc ps).irqEn = s.irqEn := rfl
@[simp] theorem State.storeSrc_err (s : State) (ps : List Host.Cell) : (s.storeSrc ps).err = s.err := rfl
@[simp] theorem State.storeSrc_op (s : State) (ps : List Host.Cell) : (s.storeSrc ps).op = s.op := rfl
@[simp] theorem State.storeSrc_srcPtr (s : State) (ps : List Host.Cell) : (s.storeSrc ps).srcPtr = s.srcPtr := rfl
@[simp] theorem State.storeSrc_cbufLen (s : State) (ps : List Host.Cell) : (s.storeSrc ps).cbufLen = s.cbufLen := rfl
@[simp] theorem State.storeSrc_idxLen (s : State) (ps : List Host.Cell) : (s.storeSrc ps).idxLen = s.idxLen := rfl
@[simp] theorem State.storeSrc_frameCount (s : State) (ps : List Host.Cell) : (s.storeSrc ps).frameCount = s.frameCount := rfl
@[simp] theorem State.storeSrc_snapDelay (s : State) (ps : List Host.Cell) : (s.storeSrc ps).snapDelay = s.snapDelay := rfl
@[simp] theorem State.storeSrc_docSize (s : State) (ps : List Host.Cell) : (s.storeSrc ps).docSize = s.docSize := rfl
@[simp] theorem State.storeSrc_brPos (s : State) (ps : List Host.Cell) : (s.storeSrc ps).brPos = s.brPos := rfl
@[simp] theorem State.storeSrc_lzw (s : State) (ps : List Host.Cell) : (s.storeSrc ps).lzw = s.lzw := rfl
@[simp] theorem State.storeSrc_caps (s : State) (ps : List Host.Cell) : (s.storeSrc ps).caps = s.caps := rfl
@[simp] theorem State.storeSrc_pending (s : State) (ps : List Host.Cell) : (s.storeSrc ps).pending = s.pending := rfl
@[simp] theorem State.storeSrc_env (s : State) (ps : List Host.Cell) : (s.storeSrc ps).env = s.env := rfl

@[simp] theorem State.storeSrc_mem_src (s : State) (ps : List Host.Cell) : (s.storeSrc ps).mem.src = Mem.writeAll Config.unwrittenByte s.mem.src ps := rfl
@[simp] theorem State.storeSrc_mem_ct (s : State) (ps : List Host.Cell) : (s.storeSrc ps).mem.ct = s.mem.ct := rfl
@[simp] theorem State.storeSrc_mem_cbuf (s : State) (ps : List Host.Cell) : (s.storeSrc ps).mem.cbuf = s.mem.cbuf := rfl
@[simp] theorem State.storeSrc_mem_idx (s : State) (ps : List Host.Cell) : (s.storeSrc ps).mem.idx = s.mem.idx := rfl
@[simp] theorem State.storeSrc_mem_dict (s : State) (ps : List Host.Cell) : (s.storeSrc ps).mem.dict = s.mem.dict := rfl
@[simp] theorem State.storeSrc_mem_canvas (s : State) (ps : List Host.Cell) : (s.storeSrc ps).mem.canvas = s.mem.canvas := rfl
@[simp] theorem State.storeSrc_mem_save (s : State) (ps : List Host.Cell) : (s.storeSrc ps).mem.save = s.mem.save := rfl
@[simp] theorem State.storeSrc_mem_snap (s : State) (ps : List Host.Cell) : (s.storeSrc ps).mem.snap = s.mem.snap := rfl

/-! ### `storeCt`: stores to CT -/

@[simp] theorem State.storeCt_status (s : State) (ps : List Host.Cell) : (s.storeCt ps).status = s.status := rfl
@[simp] theorem State.storeCt_irqEn (s : State) (ps : List Host.Cell) : (s.storeCt ps).irqEn = s.irqEn := rfl
@[simp] theorem State.storeCt_err (s : State) (ps : List Host.Cell) : (s.storeCt ps).err = s.err := rfl
@[simp] theorem State.storeCt_op (s : State) (ps : List Host.Cell) : (s.storeCt ps).op = s.op := rfl
@[simp] theorem State.storeCt_srcPtr (s : State) (ps : List Host.Cell) : (s.storeCt ps).srcPtr = s.srcPtr := rfl
@[simp] theorem State.storeCt_cbufLen (s : State) (ps : List Host.Cell) : (s.storeCt ps).cbufLen = s.cbufLen := rfl
@[simp] theorem State.storeCt_idxLen (s : State) (ps : List Host.Cell) : (s.storeCt ps).idxLen = s.idxLen := rfl
@[simp] theorem State.storeCt_frameCount (s : State) (ps : List Host.Cell) : (s.storeCt ps).frameCount = s.frameCount := rfl
@[simp] theorem State.storeCt_snapDelay (s : State) (ps : List Host.Cell) : (s.storeCt ps).snapDelay = s.snapDelay := rfl
@[simp] theorem State.storeCt_docSize (s : State) (ps : List Host.Cell) : (s.storeCt ps).docSize = s.docSize := rfl
@[simp] theorem State.storeCt_brPos (s : State) (ps : List Host.Cell) : (s.storeCt ps).brPos = s.brPos := rfl
@[simp] theorem State.storeCt_lzw (s : State) (ps : List Host.Cell) : (s.storeCt ps).lzw = s.lzw := rfl
@[simp] theorem State.storeCt_caps (s : State) (ps : List Host.Cell) : (s.storeCt ps).caps = s.caps := rfl
@[simp] theorem State.storeCt_pending (s : State) (ps : List Host.Cell) : (s.storeCt ps).pending = s.pending := rfl
@[simp] theorem State.storeCt_env (s : State) (ps : List Host.Cell) : (s.storeCt ps).env = s.env := rfl

@[simp] theorem State.storeCt_mem_src (s : State) (ps : List Host.Cell) : (s.storeCt ps).mem.src = s.mem.src := rfl
@[simp] theorem State.storeCt_mem_ct (s : State) (ps : List Host.Cell) : (s.storeCt ps).mem.ct = Mem.writeAll Config.unwrittenByte s.mem.ct ps := rfl
@[simp] theorem State.storeCt_mem_cbuf (s : State) (ps : List Host.Cell) : (s.storeCt ps).mem.cbuf = s.mem.cbuf := rfl
@[simp] theorem State.storeCt_mem_idx (s : State) (ps : List Host.Cell) : (s.storeCt ps).mem.idx = s.mem.idx := rfl
@[simp] theorem State.storeCt_mem_dict (s : State) (ps : List Host.Cell) : (s.storeCt ps).mem.dict = s.mem.dict := rfl
@[simp] theorem State.storeCt_mem_canvas (s : State) (ps : List Host.Cell) : (s.storeCt ps).mem.canvas = s.mem.canvas := rfl
@[simp] theorem State.storeCt_mem_save (s : State) (ps : List Host.Cell) : (s.storeCt ps).mem.save = s.mem.save := rfl
@[simp] theorem State.storeCt_mem_snap (s : State) (ps : List Host.Cell) : (s.storeCt ps).mem.snap = s.mem.snap := rfl

/-! ### `storeCbuf`: stores to CBUF -/

@[simp] theorem State.storeCbuf_status (s : State) (ps : List Host.Cell) : (s.storeCbuf ps).status = s.status := rfl
@[simp] theorem State.storeCbuf_irqEn (s : State) (ps : List Host.Cell) : (s.storeCbuf ps).irqEn = s.irqEn := rfl
@[simp] theorem State.storeCbuf_err (s : State) (ps : List Host.Cell) : (s.storeCbuf ps).err = s.err := rfl
@[simp] theorem State.storeCbuf_op (s : State) (ps : List Host.Cell) : (s.storeCbuf ps).op = s.op := rfl
@[simp] theorem State.storeCbuf_srcPtr (s : State) (ps : List Host.Cell) : (s.storeCbuf ps).srcPtr = s.srcPtr := rfl
@[simp] theorem State.storeCbuf_cbufLen (s : State) (ps : List Host.Cell) : (s.storeCbuf ps).cbufLen = s.cbufLen := rfl
@[simp] theorem State.storeCbuf_idxLen (s : State) (ps : List Host.Cell) : (s.storeCbuf ps).idxLen = s.idxLen := rfl
@[simp] theorem State.storeCbuf_frameCount (s : State) (ps : List Host.Cell) : (s.storeCbuf ps).frameCount = s.frameCount := rfl
@[simp] theorem State.storeCbuf_snapDelay (s : State) (ps : List Host.Cell) : (s.storeCbuf ps).snapDelay = s.snapDelay := rfl
@[simp] theorem State.storeCbuf_docSize (s : State) (ps : List Host.Cell) : (s.storeCbuf ps).docSize = s.docSize := rfl
@[simp] theorem State.storeCbuf_brPos (s : State) (ps : List Host.Cell) : (s.storeCbuf ps).brPos = s.brPos := rfl
@[simp] theorem State.storeCbuf_lzw (s : State) (ps : List Host.Cell) : (s.storeCbuf ps).lzw = s.lzw := rfl
@[simp] theorem State.storeCbuf_caps (s : State) (ps : List Host.Cell) : (s.storeCbuf ps).caps = s.caps := rfl
@[simp] theorem State.storeCbuf_pending (s : State) (ps : List Host.Cell) : (s.storeCbuf ps).pending = s.pending := rfl
@[simp] theorem State.storeCbuf_env (s : State) (ps : List Host.Cell) : (s.storeCbuf ps).env = s.env := rfl

@[simp] theorem State.storeCbuf_mem_src (s : State) (ps : List Host.Cell) : (s.storeCbuf ps).mem.src = s.mem.src := rfl
@[simp] theorem State.storeCbuf_mem_ct (s : State) (ps : List Host.Cell) : (s.storeCbuf ps).mem.ct = s.mem.ct := rfl
@[simp] theorem State.storeCbuf_mem_cbuf (s : State) (ps : List Host.Cell) : (s.storeCbuf ps).mem.cbuf = Mem.writeAll Config.unwrittenByte s.mem.cbuf ps := rfl
@[simp] theorem State.storeCbuf_mem_idx (s : State) (ps : List Host.Cell) : (s.storeCbuf ps).mem.idx = s.mem.idx := rfl
@[simp] theorem State.storeCbuf_mem_dict (s : State) (ps : List Host.Cell) : (s.storeCbuf ps).mem.dict = s.mem.dict := rfl
@[simp] theorem State.storeCbuf_mem_canvas (s : State) (ps : List Host.Cell) : (s.storeCbuf ps).mem.canvas = s.mem.canvas := rfl
@[simp] theorem State.storeCbuf_mem_save (s : State) (ps : List Host.Cell) : (s.storeCbuf ps).mem.save = s.mem.save := rfl
@[simp] theorem State.storeCbuf_mem_snap (s : State) (ps : List Host.Cell) : (s.storeCbuf ps).mem.snap = s.mem.snap := rfl

/-! ### `storeIdx`: stores to IDX -/

@[simp] theorem State.storeIdx_status (s : State) (ps : List Host.Cell) : (s.storeIdx ps).status = s.status := rfl
@[simp] theorem State.storeIdx_irqEn (s : State) (ps : List Host.Cell) : (s.storeIdx ps).irqEn = s.irqEn := rfl
@[simp] theorem State.storeIdx_err (s : State) (ps : List Host.Cell) : (s.storeIdx ps).err = s.err := rfl
@[simp] theorem State.storeIdx_op (s : State) (ps : List Host.Cell) : (s.storeIdx ps).op = s.op := rfl
@[simp] theorem State.storeIdx_srcPtr (s : State) (ps : List Host.Cell) : (s.storeIdx ps).srcPtr = s.srcPtr := rfl
@[simp] theorem State.storeIdx_cbufLen (s : State) (ps : List Host.Cell) : (s.storeIdx ps).cbufLen = s.cbufLen := rfl
@[simp] theorem State.storeIdx_idxLen (s : State) (ps : List Host.Cell) : (s.storeIdx ps).idxLen = s.idxLen := rfl
@[simp] theorem State.storeIdx_frameCount (s : State) (ps : List Host.Cell) : (s.storeIdx ps).frameCount = s.frameCount := rfl
@[simp] theorem State.storeIdx_snapDelay (s : State) (ps : List Host.Cell) : (s.storeIdx ps).snapDelay = s.snapDelay := rfl
@[simp] theorem State.storeIdx_docSize (s : State) (ps : List Host.Cell) : (s.storeIdx ps).docSize = s.docSize := rfl
@[simp] theorem State.storeIdx_brPos (s : State) (ps : List Host.Cell) : (s.storeIdx ps).brPos = s.brPos := rfl
@[simp] theorem State.storeIdx_lzw (s : State) (ps : List Host.Cell) : (s.storeIdx ps).lzw = s.lzw := rfl
@[simp] theorem State.storeIdx_caps (s : State) (ps : List Host.Cell) : (s.storeIdx ps).caps = s.caps := rfl
@[simp] theorem State.storeIdx_pending (s : State) (ps : List Host.Cell) : (s.storeIdx ps).pending = s.pending := rfl
@[simp] theorem State.storeIdx_env (s : State) (ps : List Host.Cell) : (s.storeIdx ps).env = s.env := rfl

@[simp] theorem State.storeIdx_mem_src (s : State) (ps : List Host.Cell) : (s.storeIdx ps).mem.src = s.mem.src := rfl
@[simp] theorem State.storeIdx_mem_ct (s : State) (ps : List Host.Cell) : (s.storeIdx ps).mem.ct = s.mem.ct := rfl
@[simp] theorem State.storeIdx_mem_cbuf (s : State) (ps : List Host.Cell) : (s.storeIdx ps).mem.cbuf = s.mem.cbuf := rfl
@[simp] theorem State.storeIdx_mem_idx (s : State) (ps : List Host.Cell) : (s.storeIdx ps).mem.idx = Mem.writeAll Config.unwrittenByte s.mem.idx ps := rfl
@[simp] theorem State.storeIdx_mem_dict (s : State) (ps : List Host.Cell) : (s.storeIdx ps).mem.dict = s.mem.dict := rfl
@[simp] theorem State.storeIdx_mem_canvas (s : State) (ps : List Host.Cell) : (s.storeIdx ps).mem.canvas = s.mem.canvas := rfl
@[simp] theorem State.storeIdx_mem_save (s : State) (ps : List Host.Cell) : (s.storeIdx ps).mem.save = s.mem.save := rfl
@[simp] theorem State.storeIdx_mem_snap (s : State) (ps : List Host.Cell) : (s.storeIdx ps).mem.snap = s.mem.snap := rfl

/-! ### `storeDict`: stores to DICT -/

@[simp] theorem State.storeDict_status (s : State) (e : Nat) (x : DictEntry) : (s.storeDict e x).status = s.status := rfl
@[simp] theorem State.storeDict_irqEn (s : State) (e : Nat) (x : DictEntry) : (s.storeDict e x).irqEn = s.irqEn := rfl
@[simp] theorem State.storeDict_err (s : State) (e : Nat) (x : DictEntry) : (s.storeDict e x).err = s.err := rfl
@[simp] theorem State.storeDict_op (s : State) (e : Nat) (x : DictEntry) : (s.storeDict e x).op = s.op := rfl
@[simp] theorem State.storeDict_srcPtr (s : State) (e : Nat) (x : DictEntry) : (s.storeDict e x).srcPtr = s.srcPtr := rfl
@[simp] theorem State.storeDict_cbufLen (s : State) (e : Nat) (x : DictEntry) : (s.storeDict e x).cbufLen = s.cbufLen := rfl
@[simp] theorem State.storeDict_idxLen (s : State) (e : Nat) (x : DictEntry) : (s.storeDict e x).idxLen = s.idxLen := rfl
@[simp] theorem State.storeDict_frameCount (s : State) (e : Nat) (x : DictEntry) : (s.storeDict e x).frameCount = s.frameCount := rfl
@[simp] theorem State.storeDict_snapDelay (s : State) (e : Nat) (x : DictEntry) : (s.storeDict e x).snapDelay = s.snapDelay := rfl
@[simp] theorem State.storeDict_docSize (s : State) (e : Nat) (x : DictEntry) : (s.storeDict e x).docSize = s.docSize := rfl
@[simp] theorem State.storeDict_brPos (s : State) (e : Nat) (x : DictEntry) : (s.storeDict e x).brPos = s.brPos := rfl
@[simp] theorem State.storeDict_lzw (s : State) (e : Nat) (x : DictEntry) : (s.storeDict e x).lzw = s.lzw := rfl
@[simp] theorem State.storeDict_caps (s : State) (e : Nat) (x : DictEntry) : (s.storeDict e x).caps = s.caps := rfl
@[simp] theorem State.storeDict_pending (s : State) (e : Nat) (x : DictEntry) : (s.storeDict e x).pending = s.pending := rfl
@[simp] theorem State.storeDict_env (s : State) (e : Nat) (x : DictEntry) : (s.storeDict e x).env = s.env := rfl

@[simp] theorem State.storeDict_mem_src (s : State) (e : Nat) (x : DictEntry) : (s.storeDict e x).mem.src = s.mem.src := rfl
@[simp] theorem State.storeDict_mem_ct (s : State) (e : Nat) (x : DictEntry) : (s.storeDict e x).mem.ct = s.mem.ct := rfl
@[simp] theorem State.storeDict_mem_cbuf (s : State) (e : Nat) (x : DictEntry) : (s.storeDict e x).mem.cbuf = s.mem.cbuf := rfl
@[simp] theorem State.storeDict_mem_idx (s : State) (e : Nat) (x : DictEntry) : (s.storeDict e x).mem.idx = s.mem.idx := rfl
@[simp] theorem State.storeDict_mem_dict (s : State) (e : Nat) (x : DictEntry) : (s.storeDict e x).mem.dict = Mem.write unwrittenEntry s.mem.dict e x := rfl
@[simp] theorem State.storeDict_mem_canvas (s : State) (e : Nat) (x : DictEntry) : (s.storeDict e x).mem.canvas = s.mem.canvas := rfl
@[simp] theorem State.storeDict_mem_save (s : State) (e : Nat) (x : DictEntry) : (s.storeDict e x).mem.save = s.mem.save := rfl
@[simp] theorem State.storeDict_mem_snap (s : State) (e : Nat) (x : DictEntry) : (s.storeDict e x).mem.snap = s.mem.snap := rfl

/-! ### `storeCanvas`: stores to CANVAS -/

@[simp] theorem State.storeCanvas_status (s : State) (ps : List (Nat × Pixel)) : (s.storeCanvas ps).status = s.status := rfl
@[simp] theorem State.storeCanvas_irqEn (s : State) (ps : List (Nat × Pixel)) : (s.storeCanvas ps).irqEn = s.irqEn := rfl
@[simp] theorem State.storeCanvas_err (s : State) (ps : List (Nat × Pixel)) : (s.storeCanvas ps).err = s.err := rfl
@[simp] theorem State.storeCanvas_op (s : State) (ps : List (Nat × Pixel)) : (s.storeCanvas ps).op = s.op := rfl
@[simp] theorem State.storeCanvas_srcPtr (s : State) (ps : List (Nat × Pixel)) : (s.storeCanvas ps).srcPtr = s.srcPtr := rfl
@[simp] theorem State.storeCanvas_cbufLen (s : State) (ps : List (Nat × Pixel)) : (s.storeCanvas ps).cbufLen = s.cbufLen := rfl
@[simp] theorem State.storeCanvas_idxLen (s : State) (ps : List (Nat × Pixel)) : (s.storeCanvas ps).idxLen = s.idxLen := rfl
@[simp] theorem State.storeCanvas_frameCount (s : State) (ps : List (Nat × Pixel)) : (s.storeCanvas ps).frameCount = s.frameCount := rfl
@[simp] theorem State.storeCanvas_snapDelay (s : State) (ps : List (Nat × Pixel)) : (s.storeCanvas ps).snapDelay = s.snapDelay := rfl
@[simp] theorem State.storeCanvas_docSize (s : State) (ps : List (Nat × Pixel)) : (s.storeCanvas ps).docSize = s.docSize := rfl
@[simp] theorem State.storeCanvas_brPos (s : State) (ps : List (Nat × Pixel)) : (s.storeCanvas ps).brPos = s.brPos := rfl
@[simp] theorem State.storeCanvas_lzw (s : State) (ps : List (Nat × Pixel)) : (s.storeCanvas ps).lzw = s.lzw := rfl
@[simp] theorem State.storeCanvas_caps (s : State) (ps : List (Nat × Pixel)) : (s.storeCanvas ps).caps = s.caps := rfl
@[simp] theorem State.storeCanvas_pending (s : State) (ps : List (Nat × Pixel)) : (s.storeCanvas ps).pending = s.pending := rfl
@[simp] theorem State.storeCanvas_env (s : State) (ps : List (Nat × Pixel)) : (s.storeCanvas ps).env = s.env := rfl

@[simp] theorem State.storeCanvas_mem_src (s : State) (ps : List (Nat × Pixel)) : (s.storeCanvas ps).mem.src = s.mem.src := rfl
@[simp] theorem State.storeCanvas_mem_ct (s : State) (ps : List (Nat × Pixel)) : (s.storeCanvas ps).mem.ct = s.mem.ct := rfl
@[simp] theorem State.storeCanvas_mem_cbuf (s : State) (ps : List (Nat × Pixel)) : (s.storeCanvas ps).mem.cbuf = s.mem.cbuf := rfl
@[simp] theorem State.storeCanvas_mem_idx (s : State) (ps : List (Nat × Pixel)) : (s.storeCanvas ps).mem.idx = s.mem.idx := rfl
@[simp] theorem State.storeCanvas_mem_dict (s : State) (ps : List (Nat × Pixel)) : (s.storeCanvas ps).mem.dict = s.mem.dict := rfl
@[simp] theorem State.storeCanvas_mem_canvas (s : State) (ps : List (Nat × Pixel)) : (s.storeCanvas ps).mem.canvas = Mem.writeAll unwrittenPixel s.mem.canvas ps := rfl
@[simp] theorem State.storeCanvas_mem_save (s : State) (ps : List (Nat × Pixel)) : (s.storeCanvas ps).mem.save = s.mem.save := rfl
@[simp] theorem State.storeCanvas_mem_snap (s : State) (ps : List (Nat × Pixel)) : (s.storeCanvas ps).mem.snap = s.mem.snap := rfl

/-! ### `storeSave`: stores to SAVE -/

@[simp] theorem State.storeSave_status (s : State) (ps : List (Nat × Pixel)) : (s.storeSave ps).status = s.status := rfl
@[simp] theorem State.storeSave_irqEn (s : State) (ps : List (Nat × Pixel)) : (s.storeSave ps).irqEn = s.irqEn := rfl
@[simp] theorem State.storeSave_err (s : State) (ps : List (Nat × Pixel)) : (s.storeSave ps).err = s.err := rfl
@[simp] theorem State.storeSave_op (s : State) (ps : List (Nat × Pixel)) : (s.storeSave ps).op = s.op := rfl
@[simp] theorem State.storeSave_srcPtr (s : State) (ps : List (Nat × Pixel)) : (s.storeSave ps).srcPtr = s.srcPtr := rfl
@[simp] theorem State.storeSave_cbufLen (s : State) (ps : List (Nat × Pixel)) : (s.storeSave ps).cbufLen = s.cbufLen := rfl
@[simp] theorem State.storeSave_idxLen (s : State) (ps : List (Nat × Pixel)) : (s.storeSave ps).idxLen = s.idxLen := rfl
@[simp] theorem State.storeSave_frameCount (s : State) (ps : List (Nat × Pixel)) : (s.storeSave ps).frameCount = s.frameCount := rfl
@[simp] theorem State.storeSave_snapDelay (s : State) (ps : List (Nat × Pixel)) : (s.storeSave ps).snapDelay = s.snapDelay := rfl
@[simp] theorem State.storeSave_docSize (s : State) (ps : List (Nat × Pixel)) : (s.storeSave ps).docSize = s.docSize := rfl
@[simp] theorem State.storeSave_brPos (s : State) (ps : List (Nat × Pixel)) : (s.storeSave ps).brPos = s.brPos := rfl
@[simp] theorem State.storeSave_lzw (s : State) (ps : List (Nat × Pixel)) : (s.storeSave ps).lzw = s.lzw := rfl
@[simp] theorem State.storeSave_caps (s : State) (ps : List (Nat × Pixel)) : (s.storeSave ps).caps = s.caps := rfl
@[simp] theorem State.storeSave_pending (s : State) (ps : List (Nat × Pixel)) : (s.storeSave ps).pending = s.pending := rfl
@[simp] theorem State.storeSave_env (s : State) (ps : List (Nat × Pixel)) : (s.storeSave ps).env = s.env := rfl

@[simp] theorem State.storeSave_mem_src (s : State) (ps : List (Nat × Pixel)) : (s.storeSave ps).mem.src = s.mem.src := rfl
@[simp] theorem State.storeSave_mem_ct (s : State) (ps : List (Nat × Pixel)) : (s.storeSave ps).mem.ct = s.mem.ct := rfl
@[simp] theorem State.storeSave_mem_cbuf (s : State) (ps : List (Nat × Pixel)) : (s.storeSave ps).mem.cbuf = s.mem.cbuf := rfl
@[simp] theorem State.storeSave_mem_idx (s : State) (ps : List (Nat × Pixel)) : (s.storeSave ps).mem.idx = s.mem.idx := rfl
@[simp] theorem State.storeSave_mem_dict (s : State) (ps : List (Nat × Pixel)) : (s.storeSave ps).mem.dict = s.mem.dict := rfl
@[simp] theorem State.storeSave_mem_canvas (s : State) (ps : List (Nat × Pixel)) : (s.storeSave ps).mem.canvas = s.mem.canvas := rfl
@[simp] theorem State.storeSave_mem_save (s : State) (ps : List (Nat × Pixel)) : (s.storeSave ps).mem.save = Mem.writeAll unwrittenPixel s.mem.save ps := rfl
@[simp] theorem State.storeSave_mem_snap (s : State) (ps : List (Nat × Pixel)) : (s.storeSave ps).mem.snap = s.mem.snap := rfl

/-! ### `storeSnap`: stores to SNAP -/

@[simp] theorem State.storeSnap_status (s : State) (ps : List (Nat × Pixel)) : (s.storeSnap ps).status = s.status := rfl
@[simp] theorem State.storeSnap_irqEn (s : State) (ps : List (Nat × Pixel)) : (s.storeSnap ps).irqEn = s.irqEn := rfl
@[simp] theorem State.storeSnap_err (s : State) (ps : List (Nat × Pixel)) : (s.storeSnap ps).err = s.err := rfl
@[simp] theorem State.storeSnap_op (s : State) (ps : List (Nat × Pixel)) : (s.storeSnap ps).op = s.op := rfl
@[simp] theorem State.storeSnap_srcPtr (s : State) (ps : List (Nat × Pixel)) : (s.storeSnap ps).srcPtr = s.srcPtr := rfl
@[simp] theorem State.storeSnap_cbufLen (s : State) (ps : List (Nat × Pixel)) : (s.storeSnap ps).cbufLen = s.cbufLen := rfl
@[simp] theorem State.storeSnap_idxLen (s : State) (ps : List (Nat × Pixel)) : (s.storeSnap ps).idxLen = s.idxLen := rfl
@[simp] theorem State.storeSnap_frameCount (s : State) (ps : List (Nat × Pixel)) : (s.storeSnap ps).frameCount = s.frameCount := rfl
@[simp] theorem State.storeSnap_snapDelay (s : State) (ps : List (Nat × Pixel)) : (s.storeSnap ps).snapDelay = s.snapDelay := rfl
@[simp] theorem State.storeSnap_docSize (s : State) (ps : List (Nat × Pixel)) : (s.storeSnap ps).docSize = s.docSize := rfl
@[simp] theorem State.storeSnap_brPos (s : State) (ps : List (Nat × Pixel)) : (s.storeSnap ps).brPos = s.brPos := rfl
@[simp] theorem State.storeSnap_lzw (s : State) (ps : List (Nat × Pixel)) : (s.storeSnap ps).lzw = s.lzw := rfl
@[simp] theorem State.storeSnap_caps (s : State) (ps : List (Nat × Pixel)) : (s.storeSnap ps).caps = s.caps := rfl
@[simp] theorem State.storeSnap_pending (s : State) (ps : List (Nat × Pixel)) : (s.storeSnap ps).pending = s.pending := rfl
@[simp] theorem State.storeSnap_env (s : State) (ps : List (Nat × Pixel)) : (s.storeSnap ps).env = s.env := rfl

@[simp] theorem State.storeSnap_mem_src (s : State) (ps : List (Nat × Pixel)) : (s.storeSnap ps).mem.src = s.mem.src := rfl
@[simp] theorem State.storeSnap_mem_ct (s : State) (ps : List (Nat × Pixel)) : (s.storeSnap ps).mem.ct = s.mem.ct := rfl
@[simp] theorem State.storeSnap_mem_cbuf (s : State) (ps : List (Nat × Pixel)) : (s.storeSnap ps).mem.cbuf = s.mem.cbuf := rfl
@[simp] theorem State.storeSnap_mem_idx (s : State) (ps : List (Nat × Pixel)) : (s.storeSnap ps).mem.idx = s.mem.idx := rfl
@[simp] theorem State.storeSnap_mem_dict (s : State) (ps : List (Nat × Pixel)) : (s.storeSnap ps).mem.dict = s.mem.dict := rfl
@[simp] theorem State.storeSnap_mem_canvas (s : State) (ps : List (Nat × Pixel)) : (s.storeSnap ps).mem.canvas = s.mem.canvas := rfl
@[simp] theorem State.storeSnap_mem_save (s : State) (ps : List (Nat × Pixel)) : (s.storeSnap ps).mem.save = s.mem.save := rfl
@[simp] theorem State.storeSnap_mem_snap (s : State) (ps : List (Nat × Pixel)) : (s.storeSnap ps).mem.snap = Mem.writeAll unwrittenPixel s.mem.snap ps := rfl

/-! ### `advanceBits`: the bit cursor (41_bitreader.md R141) -/

@[simp] theorem State.advanceBits_status (s : State) (w : Nat) : (s.advanceBits w).status = s.status := rfl
@[simp] theorem State.advanceBits_irqEn (s : State) (w : Nat) : (s.advanceBits w).irqEn = s.irqEn := rfl
@[simp] theorem State.advanceBits_err (s : State) (w : Nat) : (s.advanceBits w).err = s.err := rfl
@[simp] theorem State.advanceBits_op (s : State) (w : Nat) : (s.advanceBits w).op = s.op := rfl
@[simp] theorem State.advanceBits_srcPtr (s : State) (w : Nat) : (s.advanceBits w).srcPtr = s.srcPtr := rfl
@[simp] theorem State.advanceBits_cbufLen (s : State) (w : Nat) : (s.advanceBits w).cbufLen = s.cbufLen := rfl
@[simp] theorem State.advanceBits_idxLen (s : State) (w : Nat) : (s.advanceBits w).idxLen = s.idxLen := rfl
@[simp] theorem State.advanceBits_frameCount (s : State) (w : Nat) : (s.advanceBits w).frameCount = s.frameCount := rfl
@[simp] theorem State.advanceBits_snapDelay (s : State) (w : Nat) : (s.advanceBits w).snapDelay = s.snapDelay := rfl
@[simp] theorem State.advanceBits_docSize (s : State) (w : Nat) : (s.advanceBits w).docSize = s.docSize := rfl
@[simp] theorem State.advanceBits_brPos (s : State) (w : Nat) : (s.advanceBits w).brPos = word (s.brPos.toNat + w) := rfl
@[simp] theorem State.advanceBits_lzw (s : State) (w : Nat) : (s.advanceBits w).lzw = s.lzw := rfl
@[simp] theorem State.advanceBits_caps (s : State) (w : Nat) : (s.advanceBits w).caps = s.caps := rfl
@[simp] theorem State.advanceBits_mem (s : State) (w : Nat) : (s.advanceBits w).mem = s.mem := rfl
@[simp] theorem State.advanceBits_pending (s : State) (w : Nat) : (s.advanceBits w).pending = s.pending := rfl
@[simp] theorem State.advanceBits_env (s : State) (w : Nat) : (s.advanceBits w).env = s.env := rfl

/-! ### `emit`: `emit` (42_lzw.md R156) -/

@[simp] theorem State.emit_status (s : State) (bs : List Byte) : (s.emit bs).status = s.status := rfl
@[simp] theorem State.emit_irqEn (s : State) (bs : List Byte) : (s.emit bs).irqEn = s.irqEn := rfl
@[simp] theorem State.emit_err (s : State) (bs : List Byte) : (s.emit bs).err = s.err := rfl
@[simp] theorem State.emit_op (s : State) (bs : List Byte) : (s.emit bs).op = s.op := rfl
@[simp] theorem State.emit_srcPtr (s : State) (bs : List Byte) : (s.emit bs).srcPtr = s.srcPtr := rfl
@[simp] theorem State.emit_cbufLen (s : State) (bs : List Byte) : (s.emit bs).cbufLen = s.cbufLen := rfl
@[simp] theorem State.emit_idxLen (s : State) (bs : List Byte) : (s.emit bs).idxLen = word (s.idxLen.toNat + bs.length) := rfl
@[simp] theorem State.emit_frameCount (s : State) (bs : List Byte) : (s.emit bs).frameCount = s.frameCount := rfl
@[simp] theorem State.emit_snapDelay (s : State) (bs : List Byte) : (s.emit bs).snapDelay = s.snapDelay := rfl
@[simp] theorem State.emit_docSize (s : State) (bs : List Byte) : (s.emit bs).docSize = s.docSize := rfl
@[simp] theorem State.emit_brPos (s : State) (bs : List Byte) : (s.emit bs).brPos = s.brPos := rfl
@[simp] theorem State.emit_lzw (s : State) (bs : List Byte) : (s.emit bs).lzw = s.lzw := rfl
@[simp] theorem State.emit_caps (s : State) (bs : List Byte) : (s.emit bs).caps = s.caps := rfl
@[simp] theorem State.emit_pending (s : State) (bs : List Byte) : (s.emit bs).pending = s.pending := rfl
@[simp] theorem State.emit_env (s : State) (bs : List Byte) : (s.emit bs).env = s.env := rfl

@[simp] theorem State.emit_mem_src (s : State) (bs : List Byte) : (s.emit bs).mem.src = s.mem.src := rfl
@[simp] theorem State.emit_mem_ct (s : State) (bs : List Byte) : (s.emit bs).mem.ct = s.mem.ct := rfl
@[simp] theorem State.emit_mem_cbuf (s : State) (bs : List Byte) : (s.emit bs).mem.cbuf = s.mem.cbuf := rfl
@[simp] theorem State.emit_mem_idx (s : State) (bs : List Byte) : (s.emit bs).mem.idx = Mem.writeAll Config.unwrittenByte s.mem.idx (placed s.idxLen.toNat bs) := rfl
@[simp] theorem State.emit_mem_dict (s : State) (bs : List Byte) : (s.emit bs).mem.dict = s.mem.dict := rfl
@[simp] theorem State.emit_mem_canvas (s : State) (bs : List Byte) : (s.emit bs).mem.canvas = s.mem.canvas := rfl
@[simp] theorem State.emit_mem_save (s : State) (bs : List Byte) : (s.emit bs).mem.save = s.mem.save := rfl
@[simp] theorem State.emit_mem_snap (s : State) (bs : List Byte) : (s.emit bs).mem.snap = s.mem.snap := rfl

/-! ### `resetDict`: `reset_dict` (42_lzw.md R157) -/

@[simp] theorem State.resetDict_status (s : State) : s.resetDict.status = s.status := rfl
@[simp] theorem State.resetDict_irqEn (s : State) : s.resetDict.irqEn = s.irqEn := rfl
@[simp] theorem State.resetDict_err (s : State) : s.resetDict.err = s.err := rfl
@[simp] theorem State.resetDict_op (s : State) : s.resetDict.op = s.op := rfl
@[simp] theorem State.resetDict_srcPtr (s : State) : s.resetDict.srcPtr = s.srcPtr := rfl
@[simp] theorem State.resetDict_cbufLen (s : State) : s.resetDict.cbufLen = s.cbufLen := rfl
@[simp] theorem State.resetDict_idxLen (s : State) : s.resetDict.idxLen = s.idxLen := rfl
@[simp] theorem State.resetDict_frameCount (s : State) : s.resetDict.frameCount = s.frameCount := rfl
@[simp] theorem State.resetDict_snapDelay (s : State) : s.resetDict.snapDelay = s.snapDelay := rfl
@[simp] theorem State.resetDict_docSize (s : State) : s.resetDict.docSize = s.docSize := rfl
@[simp] theorem State.resetDict_brPos (s : State) : s.resetDict.brPos = s.brPos := rfl
@[simp] theorem State.resetDict_lzw (s : State) : s.resetDict.lzw = { s.lzw with width := BitVec.ofNat 4 (s.lzw.mcsL.toNat + 1), next := BitVec.ofNat 13 (s.eoiCode + 1) } := rfl
@[simp] theorem State.resetDict_caps (s : State) : s.resetDict.caps = s.caps := rfl
@[simp] theorem State.resetDict_mem (s : State) : s.resetDict.mem = s.mem := rfl
@[simp] theorem State.resetDict_pending (s : State) : s.resetDict.pending = s.pending := rfl
@[simp] theorem State.resetDict_env (s : State) : s.resetDict.env = s.env := rfl

/-! ### `addEntry`: `add_entry` (42_lzw.md R167) -/

@[simp] theorem State.addEntry_status (s : State) (b : Byte) (p : BitVec 12) : (s.addEntry b p).status = s.status := rfl
@[simp] theorem State.addEntry_irqEn (s : State) (b : Byte) (p : BitVec 12) : (s.addEntry b p).irqEn = s.irqEn := rfl
@[simp] theorem State.addEntry_err (s : State) (b : Byte) (p : BitVec 12) : (s.addEntry b p).err = s.err := rfl
@[simp] theorem State.addEntry_op (s : State) (b : Byte) (p : BitVec 12) : (s.addEntry b p).op = s.op := rfl
@[simp] theorem State.addEntry_srcPtr (s : State) (b : Byte) (p : BitVec 12) : (s.addEntry b p).srcPtr = s.srcPtr := rfl
@[simp] theorem State.addEntry_cbufLen (s : State) (b : Byte) (p : BitVec 12) : (s.addEntry b p).cbufLen = s.cbufLen := rfl
@[simp] theorem State.addEntry_idxLen (s : State) (b : Byte) (p : BitVec 12) : (s.addEntry b p).idxLen = s.idxLen := rfl
@[simp] theorem State.addEntry_frameCount (s : State) (b : Byte) (p : BitVec 12) : (s.addEntry b p).frameCount = s.frameCount := rfl
@[simp] theorem State.addEntry_snapDelay (s : State) (b : Byte) (p : BitVec 12) : (s.addEntry b p).snapDelay = s.snapDelay := rfl
@[simp] theorem State.addEntry_docSize (s : State) (b : Byte) (p : BitVec 12) : (s.addEntry b p).docSize = s.docSize := rfl
@[simp] theorem State.addEntry_brPos (s : State) (b : Byte) (p : BitVec 12) : (s.addEntry b p).brPos = s.brPos := rfl
@[simp] theorem State.addEntry_lzw (s : State) (b : Byte) (p : BitVec 12) : (s.addEntry b p).lzw = { s.lzw with next := BitVec.ofNat 13 (s.lzw.next.toNat + 1), width := BitVec.ofNat 4 (grownWidth s.lzw.width.toNat (s.lzw.next.toNat + 1)) } := rfl
@[simp] theorem State.addEntry_caps (s : State) (b : Byte) (p : BitVec 12) : (s.addEntry b p).caps = s.caps := rfl
@[simp] theorem State.addEntry_pending (s : State) (b : Byte) (p : BitVec 12) : (s.addEntry b p).pending = s.pending := rfl
@[simp] theorem State.addEntry_env (s : State) (b : Byte) (p : BitVec 12) : (s.addEntry b p).env = s.env := rfl

@[simp] theorem State.addEntry_mem_src (s : State) (b : Byte) (p : BitVec 12) : (s.addEntry b p).mem.src = s.mem.src := rfl
@[simp] theorem State.addEntry_mem_ct (s : State) (b : Byte) (p : BitVec 12) : (s.addEntry b p).mem.ct = s.mem.ct := rfl
@[simp] theorem State.addEntry_mem_cbuf (s : State) (b : Byte) (p : BitVec 12) : (s.addEntry b p).mem.cbuf = s.mem.cbuf := rfl
@[simp] theorem State.addEntry_mem_idx (s : State) (b : Byte) (p : BitVec 12) : (s.addEntry b p).mem.idx = s.mem.idx := rfl
@[simp] theorem State.addEntry_mem_dict (s : State) (b : Byte) (p : BitVec 12) : (s.addEntry b p).mem.dict = Mem.write unwrittenEntry s.mem.dict s.lzw.next.toNat ⟨b, p⟩ := rfl
@[simp] theorem State.addEntry_mem_canvas (s : State) (b : Byte) (p : BitVec 12) : (s.addEntry b p).mem.canvas = s.mem.canvas := rfl
@[simp] theorem State.addEntry_mem_save (s : State) (b : Byte) (p : BitVec 12) : (s.addEntry b p).mem.save = s.mem.save := rfl
@[simp] theorem State.addEntry_mem_snap (s : State) (b : Byte) (p : BitVec 12) : (s.addEntry b p).mem.snap = s.mem.snap := rfl

/-! ### `toPhase`: a phase change -/

@[simp] theorem State.toPhase_status (s : State) (p : Phase) : (s.toPhase p).status = s.status := rfl
@[simp] theorem State.toPhase_irqEn (s : State) (p : Phase) : (s.toPhase p).irqEn = s.irqEn := rfl
@[simp] theorem State.toPhase_err (s : State) (p : Phase) : (s.toPhase p).err = s.err := rfl
@[simp] theorem State.toPhase_op (s : State) (p : Phase) : (s.toPhase p).op = s.op := rfl
@[simp] theorem State.toPhase_srcPtr (s : State) (p : Phase) : (s.toPhase p).srcPtr = s.srcPtr := rfl
@[simp] theorem State.toPhase_cbufLen (s : State) (p : Phase) : (s.toPhase p).cbufLen = s.cbufLen := rfl
@[simp] theorem State.toPhase_idxLen (s : State) (p : Phase) : (s.toPhase p).idxLen = s.idxLen := rfl
@[simp] theorem State.toPhase_frameCount (s : State) (p : Phase) : (s.toPhase p).frameCount = s.frameCount := rfl
@[simp] theorem State.toPhase_snapDelay (s : State) (p : Phase) : (s.toPhase p).snapDelay = s.snapDelay := rfl
@[simp] theorem State.toPhase_docSize (s : State) (p : Phase) : (s.toPhase p).docSize = s.docSize := rfl
@[simp] theorem State.toPhase_brPos (s : State) (p : Phase) : (s.toPhase p).brPos = s.brPos := rfl
@[simp] theorem State.toPhase_lzw (s : State) (p : Phase) : (s.toPhase p).lzw = { s.lzw with phase := p } := rfl
@[simp] theorem State.toPhase_caps (s : State) (p : Phase) : (s.toPhase p).caps = s.caps := rfl
@[simp] theorem State.toPhase_mem (s : State) (p : Phase) : (s.toPhase p).mem = s.mem := rfl
@[simp] theorem State.toPhase_pending (s : State) (p : Phase) : (s.toPhase p).pending = s.pending := rfl
@[simp] theorem State.toPhase_env (s : State) (p : Phase) : (s.toPhase p).env = s.env := rfl

/-! ### `setPrev`: `PREV <- c` -/

@[simp] theorem State.setPrev_status (s : State) (c : BitVec 12) : (s.setPrev c).status = s.status := rfl
@[simp] theorem State.setPrev_irqEn (s : State) (c : BitVec 12) : (s.setPrev c).irqEn = s.irqEn := rfl
@[simp] theorem State.setPrev_err (s : State) (c : BitVec 12) : (s.setPrev c).err = s.err := rfl
@[simp] theorem State.setPrev_op (s : State) (c : BitVec 12) : (s.setPrev c).op = s.op := rfl
@[simp] theorem State.setPrev_srcPtr (s : State) (c : BitVec 12) : (s.setPrev c).srcPtr = s.srcPtr := rfl
@[simp] theorem State.setPrev_cbufLen (s : State) (c : BitVec 12) : (s.setPrev c).cbufLen = s.cbufLen := rfl
@[simp] theorem State.setPrev_idxLen (s : State) (c : BitVec 12) : (s.setPrev c).idxLen = s.idxLen := rfl
@[simp] theorem State.setPrev_frameCount (s : State) (c : BitVec 12) : (s.setPrev c).frameCount = s.frameCount := rfl
@[simp] theorem State.setPrev_snapDelay (s : State) (c : BitVec 12) : (s.setPrev c).snapDelay = s.snapDelay := rfl
@[simp] theorem State.setPrev_docSize (s : State) (c : BitVec 12) : (s.setPrev c).docSize = s.docSize := rfl
@[simp] theorem State.setPrev_brPos (s : State) (c : BitVec 12) : (s.setPrev c).brPos = s.brPos := rfl
@[simp] theorem State.setPrev_lzw (s : State) (c : BitVec 12) : (s.setPrev c).lzw = { s.lzw with prev := c } := rfl
@[simp] theorem State.setPrev_caps (s : State) (c : BitVec 12) : (s.setPrev c).caps = s.caps := rfl
@[simp] theorem State.setPrev_mem (s : State) (c : BitVec 12) : (s.setPrev c).mem = s.mem := rfl
@[simp] theorem State.setPrev_pending (s : State) (c : BitVec 12) : (s.setPrev c).pending = s.pending := rfl
@[simp] theorem State.setPrev_env (s : State) (c : BitVec 12) : (s.setPrev c).env = s.env := rfl

/-! ### `startDecode`: LZW_DECODE's initialisation (42_lzw.md R152) -/

@[simp] theorem State.startDecode_status (s : State) (image : Bool) : (s.startDecode image).status = { s.status with idxValid := false } := rfl
@[simp] theorem State.startDecode_irqEn (s : State) (image : Bool) : (s.startDecode image).irqEn = s.irqEn := rfl
@[simp] theorem State.startDecode_err (s : State) (image : Bool) : (s.startDecode image).err = s.err := rfl
@[simp] theorem State.startDecode_op (s : State) (image : Bool) : (s.startDecode image).op = s.op := rfl
@[simp] theorem State.startDecode_srcPtr (s : State) (image : Bool) : (s.startDecode image).srcPtr = s.srcPtr := rfl
@[simp] theorem State.startDecode_cbufLen (s : State) (image : Bool) : (s.startDecode image).cbufLen = s.cbufLen := rfl
@[simp] theorem State.startDecode_idxLen (s : State) (image : Bool) : (s.startDecode image).idxLen = 0 := rfl
@[simp] theorem State.startDecode_frameCount (s : State) (image : Bool) : (s.startDecode image).frameCount = s.frameCount := rfl
@[simp] theorem State.startDecode_snapDelay (s : State) (image : Bool) : (s.startDecode image).snapDelay = s.snapDelay := rfl
@[simp] theorem State.startDecode_docSize (s : State) (image : Bool) : (s.startDecode image).docSize = s.docSize := rfl
@[simp] theorem State.startDecode_brPos (s : State) (image : Bool) : (s.startDecode image).brPos = 0 := rfl
@[simp] theorem State.startDecode_caps (s : State) (image : Bool) : (s.startDecode image).caps = s.caps := rfl
@[simp] theorem State.startDecode_mem (s : State) (image : Bool) : (s.startDecode image).mem = s.mem := rfl
@[simp] theorem State.startDecode_pending (s : State) (image : Bool) : (s.startDecode image).pending = .code image := rfl
@[simp] theorem State.startDecode_env (s : State) (image : Bool) : (s.startDecode image).env = s.env := rfl

/-! ### `startAssemble`: ASSEMBLE's start (40_subblock.md R122) -/

@[simp] theorem State.startAssemble_status (s : State) (image : Bool) : (s.startAssemble image).status = { s.status with cbufValid := false } := rfl
@[simp] theorem State.startAssemble_irqEn (s : State) (image : Bool) : (s.startAssemble image).irqEn = s.irqEn := rfl
@[simp] theorem State.startAssemble_err (s : State) (image : Bool) : (s.startAssemble image).err = s.err := rfl
@[simp] theorem State.startAssemble_op (s : State) (image : Bool) : (s.startAssemble image).op = s.op := rfl
@[simp] theorem State.startAssemble_srcPtr (s : State) (image : Bool) : (s.startAssemble image).srcPtr = s.srcPtr := rfl
@[simp] theorem State.startAssemble_cbufLen (s : State) (image : Bool) : (s.startAssemble image).cbufLen = 0 := rfl
@[simp] theorem State.startAssemble_idxLen (s : State) (image : Bool) : (s.startAssemble image).idxLen = s.idxLen := rfl
@[simp] theorem State.startAssemble_frameCount (s : State) (image : Bool) : (s.startAssemble image).frameCount = s.frameCount := rfl
@[simp] theorem State.startAssemble_snapDelay (s : State) (image : Bool) : (s.startAssemble image).snapDelay = s.snapDelay := rfl
@[simp] theorem State.startAssemble_docSize (s : State) (image : Bool) : (s.startAssemble image).docSize = s.docSize := rfl
@[simp] theorem State.startAssemble_brPos (s : State) (image : Bool) : (s.startAssemble image).brPos = s.brPos := rfl
@[simp] theorem State.startAssemble_lzw (s : State) (image : Bool) : (s.startAssemble image).lzw = s.lzw := rfl
@[simp] theorem State.startAssemble_caps (s : State) (image : Bool) : (s.startAssemble image).caps = s.caps := rfl
@[simp] theorem State.startAssemble_mem (s : State) (image : Bool) : (s.startAssemble image).mem = s.mem := rfl
@[simp] theorem State.startAssemble_pending (s : State) (image : Bool) : (s.startAssemble image).pending = .subBlock image := rfl
@[simp] theorem State.startAssemble_env (s : State) (image : Bool) : (s.startAssemble image).env = s.env := rfl

/-! ### `copySubBlock`: the copy of a sub-block (40_subblock.md R125) -/

@[simp] theorem State.copySubBlock_status (s : State) (n : Nat) : (s.copySubBlock n).status = s.status := rfl
@[simp] theorem State.copySubBlock_irqEn (s : State) (n : Nat) : (s.copySubBlock n).irqEn = s.irqEn := rfl
@[simp] theorem State.copySubBlock_err (s : State) (n : Nat) : (s.copySubBlock n).err = s.err := rfl
@[simp] theorem State.copySubBlock_op (s : State) (n : Nat) : (s.copySubBlock n).op = s.op := rfl
@[simp] theorem State.copySubBlock_srcPtr (s : State) (n : Nat) : (s.copySubBlock n).srcPtr = word (s.srcPtr.toNat + 1 + n) := rfl
@[simp] theorem State.copySubBlock_cbufLen (s : State) (n : Nat) : (s.copySubBlock n).cbufLen = word (s.cbufLen.toNat + n) := rfl
@[simp] theorem State.copySubBlock_idxLen (s : State) (n : Nat) : (s.copySubBlock n).idxLen = s.idxLen := rfl
@[simp] theorem State.copySubBlock_frameCount (s : State) (n : Nat) : (s.copySubBlock n).frameCount = s.frameCount := rfl
@[simp] theorem State.copySubBlock_snapDelay (s : State) (n : Nat) : (s.copySubBlock n).snapDelay = s.snapDelay := rfl
@[simp] theorem State.copySubBlock_docSize (s : State) (n : Nat) : (s.copySubBlock n).docSize = s.docSize := rfl
@[simp] theorem State.copySubBlock_brPos (s : State) (n : Nat) : (s.copySubBlock n).brPos = s.brPos := rfl
@[simp] theorem State.copySubBlock_lzw (s : State) (n : Nat) : (s.copySubBlock n).lzw = s.lzw := rfl
@[simp] theorem State.copySubBlock_caps (s : State) (n : Nat) : (s.copySubBlock n).caps = s.caps := rfl
@[simp] theorem State.copySubBlock_pending (s : State) (n : Nat) : (s.copySubBlock n).pending = s.pending := rfl
@[simp] theorem State.copySubBlock_env (s : State) (n : Nat) : (s.copySubBlock n).env = s.env := rfl

@[simp] theorem State.copySubBlock_mem_src (s : State) (n : Nat) : (s.copySubBlock n).mem.src = s.mem.src := rfl
@[simp] theorem State.copySubBlock_mem_ct (s : State) (n : Nat) : (s.copySubBlock n).mem.ct = s.mem.ct := rfl
@[simp] theorem State.copySubBlock_mem_cbuf (s : State) (n : Nat) : (s.copySubBlock n).mem.cbuf = Mem.writeAll Config.unwrittenByte s.mem.cbuf (placed s.cbufLen.toNat (s.payload s.srcPtr.toNat n)) := rfl
@[simp] theorem State.copySubBlock_mem_idx (s : State) (n : Nat) : (s.copySubBlock n).mem.idx = s.mem.idx := rfl
@[simp] theorem State.copySubBlock_mem_dict (s : State) (n : Nat) : (s.copySubBlock n).mem.dict = s.mem.dict := rfl
@[simp] theorem State.copySubBlock_mem_canvas (s : State) (n : Nat) : (s.copySubBlock n).mem.canvas = s.mem.canvas := rfl
@[simp] theorem State.copySubBlock_mem_save (s : State) (n : Nat) : (s.copySubBlock n).mem.save = s.mem.save := rfl
@[simp] theorem State.copySubBlock_mem_snap (s : State) (n : Nat) : (s.copySubBlock n).mem.snap = s.mem.snap := rfl

/-! ### `openDocument`: BEGIN_DOC's effects (43_compositor.md R190) -/

@[simp] theorem State.openDocument_status (s : State) : s.openDocument.status = { s.status with snapValid := false, cbufValid := false, idxValid := false, docOpen := true } := rfl
@[simp] theorem State.openDocument_irqEn (s : State) : s.openDocument.irqEn = s.irqEn := rfl
@[simp] theorem State.openDocument_err (s : State) : s.openDocument.err = s.err := rfl
@[simp] theorem State.openDocument_op (s : State) : s.openDocument.op = s.op := rfl
@[simp] theorem State.openDocument_srcPtr (s : State) : s.openDocument.srcPtr = s.srcPtr := rfl
@[simp] theorem State.openDocument_cbufLen (s : State) : s.openDocument.cbufLen = s.cbufLen := rfl
@[simp] theorem State.openDocument_idxLen (s : State) : s.openDocument.idxLen = s.idxLen := rfl
@[simp] theorem State.openDocument_frameCount (s : State) : s.openDocument.frameCount = 0 := rfl
@[simp] theorem State.openDocument_snapDelay (s : State) : s.openDocument.snapDelay = s.snapDelay := rfl
@[simp] theorem State.openDocument_docSize (s : State) : s.openDocument.docSize = s.op.canvasSize := rfl
@[simp] theorem State.openDocument_brPos (s : State) : s.openDocument.brPos = s.brPos := rfl
@[simp] theorem State.openDocument_lzw (s : State) : s.openDocument.lzw = s.lzw := rfl
@[simp] theorem State.openDocument_caps (s : State) : s.openDocument.caps = s.caps := rfl
@[simp] theorem State.openDocument_pending (s : State) : s.openDocument.pending = s.pending := rfl
@[simp] theorem State.openDocument_env (s : State) : s.openDocument.env = s.env := rfl

@[simp] theorem State.openDocument_mem_src (s : State) : s.openDocument.mem.src = s.mem.src := rfl
@[simp] theorem State.openDocument_mem_ct (s : State) : s.openDocument.mem.ct = s.mem.ct := rfl
@[simp] theorem State.openDocument_mem_cbuf (s : State) : s.openDocument.mem.cbuf = s.mem.cbuf := rfl
@[simp] theorem State.openDocument_mem_idx (s : State) : s.openDocument.mem.idx = s.mem.idx := rfl
@[simp] theorem State.openDocument_mem_dict (s : State) : s.openDocument.mem.dict = s.mem.dict := rfl
@[simp] theorem State.openDocument_mem_canvas (s : State) : s.openDocument.mem.canvas = Mem.writeAll unwrittenPixel s.mem.canvas
      ((List.range s.op.canvasSize.area).map fun a => (a, transparentCell)) := rfl
@[simp] theorem State.openDocument_mem_save (s : State) : s.openDocument.mem.save = s.mem.save := rfl
@[simp] theorem State.openDocument_mem_snap (s : State) : s.openDocument.mem.snap = s.mem.snap := rfl

/-! ### `drawFrame`: drawing (43_compositor.md R199) -/

@[simp] theorem State.drawFrame_status (s : State) : s.drawFrame.status = s.status := rfl
@[simp] theorem State.drawFrame_irqEn (s : State) : s.drawFrame.irqEn = s.irqEn := rfl
@[simp] theorem State.drawFrame_err (s : State) : s.drawFrame.err = s.err := rfl
@[simp] theorem State.drawFrame_op (s : State) : s.drawFrame.op = s.op := rfl
@[simp] theorem State.drawFrame_srcPtr (s : State) : s.drawFrame.srcPtr = s.srcPtr := rfl
@[simp] theorem State.drawFrame_cbufLen (s : State) : s.drawFrame.cbufLen = s.cbufLen := rfl
@[simp] theorem State.drawFrame_idxLen (s : State) : s.drawFrame.idxLen = s.idxLen := rfl
@[simp] theorem State.drawFrame_frameCount (s : State) : s.drawFrame.frameCount = s.frameCount := rfl
@[simp] theorem State.drawFrame_snapDelay (s : State) : s.drawFrame.snapDelay = s.snapDelay := rfl
@[simp] theorem State.drawFrame_docSize (s : State) : s.drawFrame.docSize = s.docSize := rfl
@[simp] theorem State.drawFrame_brPos (s : State) : s.drawFrame.brPos = s.brPos := rfl
@[simp] theorem State.drawFrame_lzw (s : State) : s.drawFrame.lzw = s.lzw := rfl
@[simp] theorem State.drawFrame_caps (s : State) : s.drawFrame.caps = s.caps := rfl
@[simp] theorem State.drawFrame_pending (s : State) : s.drawFrame.pending = s.pending := rfl
@[simp] theorem State.drawFrame_env (s : State) : s.drawFrame.env = s.env := rfl

@[simp] theorem State.drawFrame_mem_src (s : State) : s.drawFrame.mem.src = s.mem.src := rfl
@[simp] theorem State.drawFrame_mem_ct (s : State) : s.drawFrame.mem.ct = s.mem.ct := rfl
@[simp] theorem State.drawFrame_mem_cbuf (s : State) : s.drawFrame.mem.cbuf = s.mem.cbuf := rfl
@[simp] theorem State.drawFrame_mem_idx (s : State) : s.drawFrame.mem.idx = s.mem.idx := rfl
@[simp] theorem State.drawFrame_mem_dict (s : State) : s.drawFrame.mem.dict = s.mem.dict := rfl
@[simp] theorem State.drawFrame_mem_canvas (s : State) : s.drawFrame.mem.canvas = Mem.writeAll unwrittenPixel s.mem.canvas s.painted := rfl
@[simp] theorem State.drawFrame_mem_save (s : State) : s.drawFrame.mem.save = s.mem.save := rfl
@[simp] theorem State.drawFrame_mem_snap (s : State) : s.drawFrame.mem.snap = s.mem.snap := rfl

/-! ### `takeSnapshot`: the snapshot (43_compositor.md R202) -/

@[simp] theorem State.takeSnapshot_status (s : State) : s.takeSnapshot.status = { s.status with snapValid := true } := rfl
@[simp] theorem State.takeSnapshot_irqEn (s : State) : s.takeSnapshot.irqEn = s.irqEn := rfl
@[simp] theorem State.takeSnapshot_err (s : State) : s.takeSnapshot.err = s.err := rfl
@[simp] theorem State.takeSnapshot_op (s : State) : s.takeSnapshot.op = s.op := rfl
@[simp] theorem State.takeSnapshot_srcPtr (s : State) : s.takeSnapshot.srcPtr = s.srcPtr := rfl
@[simp] theorem State.takeSnapshot_cbufLen (s : State) : s.takeSnapshot.cbufLen = s.cbufLen := rfl
@[simp] theorem State.takeSnapshot_idxLen (s : State) : s.takeSnapshot.idxLen = s.idxLen := rfl
@[simp] theorem State.takeSnapshot_frameCount (s : State) : s.takeSnapshot.frameCount = word ((s.frameCount.toNat + 1) % 2 ^ 32) := rfl
@[simp] theorem State.takeSnapshot_snapDelay (s : State) : s.takeSnapshot.snapDelay = s.op.frmDelay := rfl
@[simp] theorem State.takeSnapshot_docSize (s : State) : s.takeSnapshot.docSize = s.docSize := rfl
@[simp] theorem State.takeSnapshot_brPos (s : State) : s.takeSnapshot.brPos = s.brPos := rfl
@[simp] theorem State.takeSnapshot_lzw (s : State) : s.takeSnapshot.lzw = s.lzw := rfl
@[simp] theorem State.takeSnapshot_caps (s : State) : s.takeSnapshot.caps = s.caps := rfl
@[simp] theorem State.takeSnapshot_pending (s : State) : s.takeSnapshot.pending = s.pending := rfl
@[simp] theorem State.takeSnapshot_env (s : State) : s.takeSnapshot.env = s.env := rfl

@[simp] theorem State.takeSnapshot_mem_src (s : State) : s.takeSnapshot.mem.src = s.mem.src := rfl
@[simp] theorem State.takeSnapshot_mem_ct (s : State) : s.takeSnapshot.mem.ct = s.mem.ct := rfl
@[simp] theorem State.takeSnapshot_mem_cbuf (s : State) : s.takeSnapshot.mem.cbuf = s.mem.cbuf := rfl
@[simp] theorem State.takeSnapshot_mem_idx (s : State) : s.takeSnapshot.mem.idx = s.mem.idx := rfl
@[simp] theorem State.takeSnapshot_mem_dict (s : State) : s.takeSnapshot.mem.dict = s.mem.dict := rfl
@[simp] theorem State.takeSnapshot_mem_canvas (s : State) : s.takeSnapshot.mem.canvas = s.mem.canvas := rfl
@[simp] theorem State.takeSnapshot_mem_save (s : State) : s.takeSnapshot.mem.save = s.mem.save := rfl
@[simp] theorem State.takeSnapshot_mem_snap (s : State) : s.takeSnapshot.mem.snap = Mem.writeAll unwrittenPixel s.mem.snap (s.documentCells.map fun a => (a, s.canvasAt a)) := rfl

/-! ### `record`: a recorded read -/

@[simp] theorem State.record_status (s : State) (v : Word) : (s.record v).status = s.status := rfl
@[simp] theorem State.record_irqEn (s : State) (v : Word) : (s.record v).irqEn = s.irqEn := rfl
@[simp] theorem State.record_err (s : State) (v : Word) : (s.record v).err = s.err := rfl
@[simp] theorem State.record_op (s : State) (v : Word) : (s.record v).op = s.op := rfl
@[simp] theorem State.record_srcPtr (s : State) (v : Word) : (s.record v).srcPtr = s.srcPtr := rfl
@[simp] theorem State.record_cbufLen (s : State) (v : Word) : (s.record v).cbufLen = s.cbufLen := rfl
@[simp] theorem State.record_idxLen (s : State) (v : Word) : (s.record v).idxLen = s.idxLen := rfl
@[simp] theorem State.record_frameCount (s : State) (v : Word) : (s.record v).frameCount = s.frameCount := rfl
@[simp] theorem State.record_snapDelay (s : State) (v : Word) : (s.record v).snapDelay = s.snapDelay := rfl
@[simp] theorem State.record_docSize (s : State) (v : Word) : (s.record v).docSize = s.docSize := rfl
@[simp] theorem State.record_brPos (s : State) (v : Word) : (s.record v).brPos = s.brPos := rfl
@[simp] theorem State.record_lzw (s : State) (v : Word) : (s.record v).lzw = s.lzw := rfl
@[simp] theorem State.record_caps (s : State) (v : Word) : (s.record v).caps = s.caps := rfl
@[simp] theorem State.record_mem (s : State) (v : Word) : (s.record v).mem = s.mem := rfl
@[simp] theorem State.record_pending (s : State) (v : Word) : (s.record v).pending = s.pending := rfl
@[simp] theorem State.record_env (s : State) (v : Word) : (s.record v).env = { s.env with reads := v :: s.env.reads } := rfl

/-! ### `dropWrite`: a dropped write (20_memory.md R75) -/

@[simp] theorem State.dropWrite_status (s : State) : s.dropWrite.status = { s.status with wbusy := true } := rfl
@[simp] theorem State.dropWrite_irqEn (s : State) : s.dropWrite.irqEn = s.irqEn := rfl
@[simp] theorem State.dropWrite_err (s : State) : s.dropWrite.err = s.err := rfl
@[simp] theorem State.dropWrite_op (s : State) : s.dropWrite.op = s.op := rfl
@[simp] theorem State.dropWrite_srcPtr (s : State) : s.dropWrite.srcPtr = s.srcPtr := rfl
@[simp] theorem State.dropWrite_cbufLen (s : State) : s.dropWrite.cbufLen = s.cbufLen := rfl
@[simp] theorem State.dropWrite_idxLen (s : State) : s.dropWrite.idxLen = s.idxLen := rfl
@[simp] theorem State.dropWrite_frameCount (s : State) : s.dropWrite.frameCount = s.frameCount := rfl
@[simp] theorem State.dropWrite_snapDelay (s : State) : s.dropWrite.snapDelay = s.snapDelay := rfl
@[simp] theorem State.dropWrite_docSize (s : State) : s.dropWrite.docSize = s.docSize := rfl
@[simp] theorem State.dropWrite_brPos (s : State) : s.dropWrite.brPos = s.brPos := rfl
@[simp] theorem State.dropWrite_lzw (s : State) : s.dropWrite.lzw = s.lzw := rfl
@[simp] theorem State.dropWrite_caps (s : State) : s.dropWrite.caps = s.caps := rfl
@[simp] theorem State.dropWrite_mem (s : State) : s.dropWrite.mem = s.mem := rfl
@[simp] theorem State.dropWrite_pending (s : State) : s.dropWrite.pending = s.pending := rfl
@[simp] theorem State.dropWrite_env (s : State) : s.dropWrite.env = s.env := rfl

/-! ### `popTurn`: a turn taken -/

@[simp] theorem State.popTurn_status (s : State) : s.popTurn.status = s.status := rfl
@[simp] theorem State.popTurn_irqEn (s : State) : s.popTurn.irqEn = s.irqEn := rfl
@[simp] theorem State.popTurn_err (s : State) : s.popTurn.err = s.err := rfl
@[simp] theorem State.popTurn_op (s : State) : s.popTurn.op = s.op := rfl
@[simp] theorem State.popTurn_srcPtr (s : State) : s.popTurn.srcPtr = s.srcPtr := rfl
@[simp] theorem State.popTurn_cbufLen (s : State) : s.popTurn.cbufLen = s.cbufLen := rfl
@[simp] theorem State.popTurn_idxLen (s : State) : s.popTurn.idxLen = s.idxLen := rfl
@[simp] theorem State.popTurn_frameCount (s : State) : s.popTurn.frameCount = s.frameCount := rfl
@[simp] theorem State.popTurn_snapDelay (s : State) : s.popTurn.snapDelay = s.snapDelay := rfl
@[simp] theorem State.popTurn_docSize (s : State) : s.popTurn.docSize = s.docSize := rfl
@[simp] theorem State.popTurn_brPos (s : State) : s.popTurn.brPos = s.brPos := rfl
@[simp] theorem State.popTurn_lzw (s : State) : s.popTurn.lzw = s.lzw := rfl
@[simp] theorem State.popTurn_caps (s : State) : s.popTurn.caps = s.caps := rfl
@[simp] theorem State.popTurn_mem (s : State) : s.popTurn.mem = s.mem := rfl
@[simp] theorem State.popTurn_pending (s : State) : s.popTurn.pending = s.pending := rfl
@[simp] theorem State.popTurn_env (s : State) : s.popTurn.env = { s.env with turns := s.env.turns.tail } := rfl

/-! ### `popPace`: a pace taken -/

@[simp] theorem State.popPace_status (s : State) : s.popPace.status = s.status := rfl
@[simp] theorem State.popPace_irqEn (s : State) : s.popPace.irqEn = s.irqEn := rfl
@[simp] theorem State.popPace_err (s : State) : s.popPace.err = s.err := rfl
@[simp] theorem State.popPace_op (s : State) : s.popPace.op = s.op := rfl
@[simp] theorem State.popPace_srcPtr (s : State) : s.popPace.srcPtr = s.srcPtr := rfl
@[simp] theorem State.popPace_cbufLen (s : State) : s.popPace.cbufLen = s.cbufLen := rfl
@[simp] theorem State.popPace_idxLen (s : State) : s.popPace.idxLen = s.idxLen := rfl
@[simp] theorem State.popPace_frameCount (s : State) : s.popPace.frameCount = s.frameCount := rfl
@[simp] theorem State.popPace_snapDelay (s : State) : s.popPace.snapDelay = s.snapDelay := rfl
@[simp] theorem State.popPace_docSize (s : State) : s.popPace.docSize = s.docSize := rfl
@[simp] theorem State.popPace_brPos (s : State) : s.popPace.brPos = s.brPos := rfl
@[simp] theorem State.popPace_lzw (s : State) : s.popPace.lzw = s.lzw := rfl
@[simp] theorem State.popPace_caps (s : State) : s.popPace.caps = s.caps := rfl
@[simp] theorem State.popPace_mem (s : State) : s.popPace.mem = s.mem := rfl
@[simp] theorem State.popPace_pending (s : State) : s.popPace.pending = s.pending := rfl
@[simp] theorem State.popPace_env (s : State) : s.popPace.env = { s.env with paces := s.env.paces.tail } := rfl

/-! ### `savePreFrame`: the pre-frame save (43_compositor.md R198) -/

@[simp] theorem State.savePreFrame_status (s : State) (d : Disposal) : (s.savePreFrame d).status = s.status := by
  cases d <;> rfl
@[simp] theorem State.savePreFrame_irqEn (s : State) (d : Disposal) : (s.savePreFrame d).irqEn = s.irqEn := by
  cases d <;> rfl
@[simp] theorem State.savePreFrame_err (s : State) (d : Disposal) : (s.savePreFrame d).err = s.err := by
  cases d <;> rfl
@[simp] theorem State.savePreFrame_op (s : State) (d : Disposal) : (s.savePreFrame d).op = s.op := by
  cases d <;> rfl
@[simp] theorem State.savePreFrame_srcPtr (s : State) (d : Disposal) : (s.savePreFrame d).srcPtr = s.srcPtr := by
  cases d <;> rfl
@[simp] theorem State.savePreFrame_cbufLen (s : State) (d : Disposal) : (s.savePreFrame d).cbufLen = s.cbufLen := by
  cases d <;> rfl
@[simp] theorem State.savePreFrame_idxLen (s : State) (d : Disposal) : (s.savePreFrame d).idxLen = s.idxLen := by
  cases d <;> rfl
@[simp] theorem State.savePreFrame_frameCount (s : State) (d : Disposal) : (s.savePreFrame d).frameCount = s.frameCount := by
  cases d <;> rfl
@[simp] theorem State.savePreFrame_snapDelay (s : State) (d : Disposal) : (s.savePreFrame d).snapDelay = s.snapDelay := by
  cases d <;> rfl
@[simp] theorem State.savePreFrame_docSize (s : State) (d : Disposal) : (s.savePreFrame d).docSize = s.docSize := by
  cases d <;> rfl
@[simp] theorem State.savePreFrame_brPos (s : State) (d : Disposal) : (s.savePreFrame d).brPos = s.brPos := by
  cases d <;> rfl
@[simp] theorem State.savePreFrame_lzw (s : State) (d : Disposal) : (s.savePreFrame d).lzw = s.lzw := by
  cases d <;> rfl
@[simp] theorem State.savePreFrame_caps (s : State) (d : Disposal) : (s.savePreFrame d).caps = s.caps := by
  cases d <;> rfl
@[simp] theorem State.savePreFrame_pending (s : State) (d : Disposal) : (s.savePreFrame d).pending = s.pending := by
  cases d <;> rfl
@[simp] theorem State.savePreFrame_env (s : State) (d : Disposal) : (s.savePreFrame d).env = s.env := by
  cases d <;> rfl

@[simp] theorem State.savePreFrame_mem_src (s : State) (d : Disposal) :
    (s.savePreFrame d).mem.src = s.mem.src := by cases d <;> rfl
@[simp] theorem State.savePreFrame_mem_ct (s : State) (d : Disposal) :
    (s.savePreFrame d).mem.ct = s.mem.ct := by cases d <;> rfl
@[simp] theorem State.savePreFrame_mem_cbuf (s : State) (d : Disposal) :
    (s.savePreFrame d).mem.cbuf = s.mem.cbuf := by cases d <;> rfl
@[simp] theorem State.savePreFrame_mem_idx (s : State) (d : Disposal) :
    (s.savePreFrame d).mem.idx = s.mem.idx := by cases d <;> rfl
@[simp] theorem State.savePreFrame_mem_dict (s : State) (d : Disposal) :
    (s.savePreFrame d).mem.dict = s.mem.dict := by cases d <;> rfl
@[simp] theorem State.savePreFrame_mem_canvas (s : State) (d : Disposal) :
    (s.savePreFrame d).mem.canvas = s.mem.canvas := by cases d <;> rfl
@[simp] theorem State.savePreFrame_mem_snap (s : State) (d : Disposal) :
    (s.savePreFrame d).mem.snap = s.mem.snap := by cases d <;> rfl

/-! ### `dispose`: the disposal (43_compositor.md R203 to R205) -/

@[simp] theorem State.dispose_status (s : State) (d : Disposal) : (s.dispose d).status = s.status := by
  cases d <;> rfl
@[simp] theorem State.dispose_irqEn (s : State) (d : Disposal) : (s.dispose d).irqEn = s.irqEn := by
  cases d <;> rfl
@[simp] theorem State.dispose_err (s : State) (d : Disposal) : (s.dispose d).err = s.err := by
  cases d <;> rfl
@[simp] theorem State.dispose_op (s : State) (d : Disposal) : (s.dispose d).op = s.op := by
  cases d <;> rfl
@[simp] theorem State.dispose_srcPtr (s : State) (d : Disposal) : (s.dispose d).srcPtr = s.srcPtr := by
  cases d <;> rfl
@[simp] theorem State.dispose_cbufLen (s : State) (d : Disposal) : (s.dispose d).cbufLen = s.cbufLen := by
  cases d <;> rfl
@[simp] theorem State.dispose_idxLen (s : State) (d : Disposal) : (s.dispose d).idxLen = s.idxLen := by
  cases d <;> rfl
@[simp] theorem State.dispose_frameCount (s : State) (d : Disposal) : (s.dispose d).frameCount = s.frameCount := by
  cases d <;> rfl
@[simp] theorem State.dispose_snapDelay (s : State) (d : Disposal) : (s.dispose d).snapDelay = s.snapDelay := by
  cases d <;> rfl
@[simp] theorem State.dispose_docSize (s : State) (d : Disposal) : (s.dispose d).docSize = s.docSize := by
  cases d <;> rfl
@[simp] theorem State.dispose_brPos (s : State) (d : Disposal) : (s.dispose d).brPos = s.brPos := by
  cases d <;> rfl
@[simp] theorem State.dispose_lzw (s : State) (d : Disposal) : (s.dispose d).lzw = s.lzw := by
  cases d <;> rfl
@[simp] theorem State.dispose_caps (s : State) (d : Disposal) : (s.dispose d).caps = s.caps := by
  cases d <;> rfl
@[simp] theorem State.dispose_pending (s : State) (d : Disposal) : (s.dispose d).pending = s.pending := by
  cases d <;> rfl
@[simp] theorem State.dispose_env (s : State) (d : Disposal) : (s.dispose d).env = s.env := by
  cases d <;> rfl

@[simp] theorem State.dispose_mem_src (s : State) (d : Disposal) :
    (s.dispose d).mem.src = s.mem.src := by cases d <;> rfl
@[simp] theorem State.dispose_mem_ct (s : State) (d : Disposal) :
    (s.dispose d).mem.ct = s.mem.ct := by cases d <;> rfl
@[simp] theorem State.dispose_mem_cbuf (s : State) (d : Disposal) :
    (s.dispose d).mem.cbuf = s.mem.cbuf := by cases d <;> rfl
@[simp] theorem State.dispose_mem_idx (s : State) (d : Disposal) :
    (s.dispose d).mem.idx = s.mem.idx := by cases d <;> rfl
@[simp] theorem State.dispose_mem_dict (s : State) (d : Disposal) :
    (s.dispose d).mem.dict = s.mem.dict := by cases d <;> rfl
@[simp] theorem State.dispose_mem_save (s : State) (d : Disposal) :
    (s.dispose d).mem.save = s.mem.save := by cases d <;> rfl
@[simp] theorem State.dispose_mem_snap (s : State) (d : Disposal) :
    (s.dispose d).mem.snap = s.mem.snap := by cases d <;> rfl

/-! ### `composite`: COMPOSE's effects (43_compositor.md R192) -/

@[simp] theorem State.composite_irqEn (s : State) (d : Disposal) : (s.composite d).irqEn = s.irqEn := by
  simp [State.composite]
@[simp] theorem State.composite_err (s : State) (d : Disposal) : (s.composite d).err = s.err := by
  simp [State.composite]
@[simp] theorem State.composite_op (s : State) (d : Disposal) : (s.composite d).op = s.op := by
  simp [State.composite]
@[simp] theorem State.composite_srcPtr (s : State) (d : Disposal) : (s.composite d).srcPtr = s.srcPtr := by
  simp [State.composite]
@[simp] theorem State.composite_cbufLen (s : State) (d : Disposal) : (s.composite d).cbufLen = s.cbufLen := by
  simp [State.composite]
@[simp] theorem State.composite_idxLen (s : State) (d : Disposal) : (s.composite d).idxLen = s.idxLen := by
  simp [State.composite]
@[simp] theorem State.composite_docSize (s : State) (d : Disposal) : (s.composite d).docSize = s.docSize := by
  simp [State.composite]
@[simp] theorem State.composite_brPos (s : State) (d : Disposal) : (s.composite d).brPos = s.brPos := by
  simp [State.composite]
@[simp] theorem State.composite_lzw (s : State) (d : Disposal) : (s.composite d).lzw = s.lzw := by
  simp [State.composite]
@[simp] theorem State.composite_caps (s : State) (d : Disposal) : (s.composite d).caps = s.caps := by
  simp [State.composite]
@[simp] theorem State.composite_pending (s : State) (d : Disposal) : (s.composite d).pending = s.pending := by
  simp [State.composite]
@[simp] theorem State.composite_env (s : State) (d : Disposal) : (s.composite d).env = s.env := by
  simp [State.composite]

@[simp] theorem State.composite_mem_src (s : State) (d : Disposal) :
    (s.composite d).mem.src = s.mem.src := by simp [State.composite]
@[simp] theorem State.composite_mem_ct (s : State) (d : Disposal) :
    (s.composite d).mem.ct = s.mem.ct := by simp [State.composite]
@[simp] theorem State.composite_mem_cbuf (s : State) (d : Disposal) :
    (s.composite d).mem.cbuf = s.mem.cbuf := by simp [State.composite]
@[simp] theorem State.composite_mem_idx (s : State) (d : Disposal) :
    (s.composite d).mem.idx = s.mem.idx := by simp [State.composite]
@[simp] theorem State.composite_mem_dict (s : State) (d : Disposal) :
    (s.composite d).mem.dict = s.mem.dict := by simp [State.composite]

end Sys2Proof.Machine
end

