-- ==== Sys2Proof/Laws/Ops.lean ====
section
/-! SUPPORT. One lemma per shared operation that says everything it can do; proofs cite these and do not
unfold the operation. -/

namespace Sys2Proof.Machine

/-! ## Words -/

theorem word_toNat {n : Nat} (h : n < 2 ^ 32) : (word n).toNat = n := by
  rw [word, BitVec.toNat_ofNat, Nat.mod_eq_of_lt h]

@[simp] theorem word_toNat_self (w : Word) : word w.toNat = w := by
  simp [word]

theorem word_add_one (w : Word) : word (w.toNat + 1) = w + 1 := by
  apply BitVec.eq_of_toNat_eq
  simp [word, BitVec.toNat_add]

theorem raise_eq (c : ErrCode) (i a : Nat) (s : State) :
    raise c i a s = .next (s.errorEntry c (word i) (word a)) := rfl

theorem ofNat13_toNat {n : Nat} (h : n < 8192) : (BitVec.ofNat 13 n).toNat = n := by
  rw [BitVec.toNat_ofNat]; omega

theorem ofNat12_toNat {n : Nat} (h : n < 4096) : (BitVec.ofNat 12 n).toNat = n := by
  rw [BitVec.toNat_ofNat]; omega

theorem ofNat4_toNat {n : Nat} (h : n < 16) : (BitVec.ofNat 4 n).toNat = n := by
  rw [BitVec.toNat_ofNat]; omega

/-! ## Cells no store of the update touches -/

@[simp] theorem State.idxAt_setPrev (s : State) (c : BitVec 12) (k : Nat) :
    (s.setPrev c).idxAt k = s.idxAt k := by simp [State.idxAt]
@[simp] theorem State.idxAt_toPhase (s : State) (p : Phase) (k : Nat) :
    (s.toPhase p).idxAt k = s.idxAt k := by simp [State.idxAt]
@[simp] theorem State.idxAt_addEntry (s : State) (b : Byte) (p : BitVec 12) (k : Nat) :
    (s.addEntry b p).idxAt k = s.idxAt k := by simp [State.idxAt]
@[simp] theorem State.idxAt_advanceBits (s : State) (w k : Nat) :
    (s.advanceBits w).idxAt k = s.idxAt k := by simp [State.idxAt]
@[simp] theorem State.idxAt_resetDict (s : State) (k : Nat) :
    s.resetDict.idxAt k = s.idxAt k := by simp [State.idxAt]
@[simp] theorem State.dictAt_setPrev (s : State) (c : BitVec 12) (e : Nat) :
    (s.setPrev c).dictAt e = s.dictAt e := by simp [State.dictAt]
@[simp] theorem State.dictAt_toPhase (s : State) (p : Phase) (e : Nat) :
    (s.toPhase p).dictAt e = s.dictAt e := by simp [State.dictAt]
@[simp] theorem State.dictAt_emit (s : State) (bs : List Byte) (e : Nat) :
    (s.emit bs).dictAt e = s.dictAt e := by simp [State.dictAt]
@[simp] theorem State.dictAt_advanceBits (s : State) (w e : Nat) :
    (s.advanceBits w).dictAt e = s.dictAt e := by simp [State.dictAt]
@[simp] theorem State.dictAt_resetDict (s : State) (e : Nat) :
    s.resetDict.dictAt e = s.dictAt e := by simp [State.dictAt]

/-! ## Cells through the stores -/

theorem State.idxAt_emit {s : State} (hm : s.mem.wf = true) (bs : List Byte) (k : Nat) :
    (s.emit bs).idxAt k =
      if h : s.idxLen.toNat ≤ k ∧ k < s.idxLen.toNat + bs.length then bs[k - s.idxLen.toNat]'(by omega)
      else s.idxAt k := by
  simp only [State.idxAt, State.emit_mem_idx]
  exact Mem.read_writeAll_placed ((Memory.wf_iff _).1 hm).2.2.2.1 _ _ _

theorem State.dictAt_addEntry {s : State} (hm : s.mem.wf = true) (b : Byte) (p : BitVec 12) (e : Nat) :
    (s.addEntry b p).dictAt e = if e = s.lzw.next.toNat then ⟨b, p⟩ else s.dictAt e := by
  simp only [State.dictAt, State.addEntry_mem_dict]
  exact Mem.read_write _ _ _ ((Memory.wf_iff _).1 hm).2.2.2.2.1

theorem State.payload_length (s : State) (p n : Nat) : (s.payload p n).length = n := by
  simp [State.payload]

theorem State.cbufAt_copySubBlock {s : State} (hm : s.mem.wf = true) (n a : Nat) :
    (s.copySubBlock n).cbufAt a =
      if s.cbufLen.toNat ≤ a ∧ a < s.cbufLen.toNat + n then
        s.srcAt (s.srcPtr.toNat + 1 + (a - s.cbufLen.toNat))
      else s.cbufAt a := by
  simp only [State.cbufAt, State.copySubBlock_mem_cbuf]
  rw [Mem.read_writeAll_placed ((Memory.wf_iff _).1 hm).2.2.1]
  simp only [State.payload_length]
  split <;> simp_all [State.payload]

/-- A cell of drawn contents holds the last value drawn for it. -/
theorem Mem.read_canon {α : Type} [DecidableEq α] {d : α} {cap : Nat} {ps : List (Nat × α)} {a : Nat} {v : α}
    (ha : a < cap) (h : lastDrawn ps a v) : Mem.read d (Mem.canon d cap ps) a = v := by
  obtain ⟨pre, post, rfl, hp⟩ := h
  have hf : (pre ++ (a, v) :: post).filter (fun p => decide (p.1 < cap)) =
      pre.filter (fun p => decide (p.1 < cap)) ++ (a, v) :: post.filter (fun p => decide (p.1 < cap)) := by
    simp [ha]
  have hw := Mem.wf_writeAll (d := d) (pre.filter fun p => decide (p.1 < cap)) (m := []) rfl
  rw [Mem.canon, hf, Mem.writeAll, List.foldl_append, List.foldl_cons, ← Mem.writeAll, ← Mem.writeAll,
    Mem.read_writeAll_other (Mem.wf_write _ _ hw), Mem.read_write _ _ _ hw, if_pos rfl]
  rintro ⟨b, w⟩ hb rfl
  exact hp w (List.mem_filter.1 hb).1

/-! ## What STATUS shows -/

/-- While a command runs, the holdings at its acceptance. -/
theorem State.heldSeen_busy {s : State} (h : s.status.busy = true) : s.heldSeen = s.env.shown := by
  simp [State.heldSeen, h]

theorem State.heldSeen_idle {s : State} (h : s.status.busy = false) : s.heldSeen = s.status.holdings := by
  simp [State.heldSeen, h]

/-! ## The bit reader -/

theorem State.take_short {s : State} {w : Nat} (h : 8 * s.cbufLen.toNat < s.brPos.toNat + w) :
    s.take w = .error (raise .bitOverrun s.brPos.toNat w s) := by
  simp [State.take, State.bitsShort, h]

theorem State.take_enough {s : State} {w : Nat} (h : s.brPos.toNat + w ≤ 8 * s.cbufLen.toNat) :
    s.take w = .ok (bitsValue (s.bitsAhead w), s.advanceBits w) := by
  rw [State.take, State.bitsShort, if_neg (by simp; omega)]

theorem bitsValue_lt (bs : List Bool) : bitsValue bs < 2 ^ bs.length := by
  induction bs with
  | nil => simp [bitsValue]
  | cons b bs ih =>
    simp only [bitsValue, List.length_cons, Nat.pow_succ]
    cases b <;> simp [bit] <;> omega

theorem State.bitsAhead_length (s : State) (w : Nat) : (s.bitsAhead w).length = w := by
  simp [State.bitsAhead]

theorem State.code_lt (s : State) (w : Nat) : bitsValue (s.bitsAhead w) < 2 ^ w := by
  have := bitsValue_lt (s.bitsAhead w)
  rwa [State.bitsAhead_length] at this

/-! ## The bodies -/

/-- No index is out of range exactly when every index is below CT_LEN. -/
theorem State.firstOutOfRange_none (s : State) :
    s.firstOutOfRange = none ↔
      ∀ k, k < s.idxLen.toNat → (s.idxAt k).toNat < 2 ^ (s.op.frmCtrl.ctSize.toNat + 1) := by
  rw [State.firstOutOfRange, List.find?_eq_none]
  simp only [List.mem_range, decide_eq_true_eq, not_le]
  exact Iff.rfl

/-- With every check passed COMPOSE runs to its end. -/
theorem composeBody_ready {s : State} {d : Disposal} (h : ComposeReady s d) :
    composeBody s = .next (s.composite d).complete := by
  have hr : s.beyondRight = false := by simpa [State.beyondRight] using h.right
  have hb : s.beyondBottom = false := by simpa [State.beyondBottom] using h.bottom
  have hf : s.firstOutOfRange = none := s.firstOutOfRange_none.2 h.range
  simp [composeBody, h.document, h.decoded, h.method, hr, hb, hf, h.length, Extent.area]

/-- COMPOSE ends in an error entry, or every check passed and it runs to its end. -/
theorem composeBody_cases (s : State) :
    (∃ c i a, c ≠ .none ∧ composeBody s = .next (s.errorEntry c i a)) ∨
    ∃ d, ComposeReady s d ∧ composeBody s = .next (s.composite d).complete := by
  by_cases h : ∃ d, ComposeReady s d
  · obtain ⟨d, hd⟩ := h
    exact .inr ⟨d, hd, composeBody_ready hd⟩
  · left
    unfold composeBody
    split
    · exact ⟨_, _, _, by simp, rfl⟩
    · split
      · exact ⟨_, _, _, by simp, rfl⟩
      · split
        · exact ⟨_, _, _, by simp, rfl⟩
        · split
          · exact ⟨_, _, _, by simp, rfl⟩
          · split
            · exact ⟨_, _, _, by simp, rfl⟩
            · split
              · exact ⟨_, _, _, by simp, rfl⟩
              · rename_i hdoc hidx _ d hd hbounds hlen _ hrange
                refine absurd ⟨d, ?_⟩ h
                simp only [Bool.or_eq_true, not_or, Bool.not_eq_true, State.beyondRight,
                  State.beyondBottom, decide_eq_false_iff_not, not_lt] at hbounds
                exact ⟨by simpa using hdoc, by simpa using hidx, hd, hbounds.1, hbounds.2,
                  by simpa [Extent.area] using hlen,
                  s.firstOutOfRange_none.1 hrange⟩

/-- LZW_DECODE's body ends in an error entry, or its checks passed and it takes codes next. -/
theorem lzwBody_cases (image : Bool) (s : State) :
    (∃ c i a, c ≠ .none ∧ lzwBody image s = .next (s.errorEntry c i a)) ∨
    (s.status.cbufValid = true ∧ 1 ≤ s.op.lzwMcs.toNat ∧ s.op.lzwMcs.toNat ≤ 8 ∧
      s.op.frmSize.area ≤ s.caps.idx.toNat ∧ lzwBody image s = .next (s.startDecode image)) := by
  unfold lzwBody
  split
  · exact .inl ⟨_, _, _, by simp, rfl⟩
  · split
    · exact .inl ⟨_, _, _, by simp, rfl⟩
    · split
      · exact .inl ⟨_, _, _, by simp, rfl⟩
      · rename_i h1 h2 h3
        exact .inr ⟨by simpa using h1, by omega, by omega, by omega, rfl⟩

/-- ASSEMBLE's body ends in an error entry, or its check passed and it reads length bytes next. -/
theorem assembleBody_cases (image : Bool) (s : State) :
    (∃ c i a, c ≠ .none ∧ assembleBody image s = .next (s.errorEntry c i a)) ∨
    (s.op.srcLen.toNat ≤ s.caps.src.toNat ∧ assembleBody image s = .next (s.startAssemble image)) := by
  unfold assembleBody
  split
  · exact .inl ⟨_, _, _, by simp, rfl⟩
  · exact .inr ⟨by omega, rfl⟩

/-! ## Translation -/

/-- A chain that ends gives a non-empty string. -/
theorem walkChain_ne_nil {dict : List (Nat × DictEntry)} {eoi fuel e : Nat} {acc str : List Byte}
    (h : walkChain dict eoi fuel e acc = some str) : str ≠ [] := by
  induction fuel generalizing e acc with
  | zero => simp [walkChain] at h
  | succ n ih =>
    rw [walkChain] at h
    split at h
    · exact ih h
    · simp at h; simp [← h]

theorem State.translate_ne_nil {s : State} {c : Nat} {str : List Byte}
    (h : s.translate c = some str) : str ≠ [] := walkChain_ne_nil h

/-- The accumulator is the end of the string. -/
theorem walkChain_append (dict : List (Nat × DictEntry)) (eoi fuel e : Nat) (acc acc' : List Byte) :
    walkChain dict eoi fuel e (acc ++ acc') =
      (walkChain dict eoi fuel e acc).map (· ++ acc') := by
  induction fuel generalizing e acc with
  | zero => rfl
  | succ n ih =>
    simp only [walkChain]
    split
    · rw [← List.cons_append, ih]
    · rfl

/-- More fuel changes nothing once the chain has ended. -/
theorem walkChain_fuel {dict : List (Nat × DictEntry)} {eoi fuel e : Nat} {acc str : List Byte}
    (h : walkChain dict eoi fuel e acc = some str) (n : Nat) :
    walkChain dict eoi (fuel + n) e acc = some str := by
  induction fuel generalizing e acc with
  | zero => simp [walkChain] at h
  | succ k ih =>
    rw [Nat.succ_add]
    simp only [walkChain] at h ⊢
    split
    · rename_i he; rw [if_pos he] at h; exact ih h
    · rename_i he; rw [if_neg he] at h; exact h

/-- The shared part of KNOWN and KWKWK. -/
theorem decodeString_fits {s : State} {str : List Byte} {c : BitVec 12}
    (h : s.idxLen.toNat + str.length ≤ s.lzw.expLen.toNat) :
    decodeString str c s = .next (((s.emit str).addEntry (str.headD 0) s.lzw.prev).setPrev c) := by
  rw [decodeString, State.emitOverflows, if_neg (by simpa using h)]

theorem decodeString_long {s : State} {str : List Byte} {c : BitVec 12}
    (h : s.lzw.expLen.toNat < s.idxLen.toNat + str.length) :
    decodeString str c s =
      .next (s.errorEntry .length (word (s.idxLen.toNat + str.length)) s.lzw.expLen) := by
  rw [decodeString, State.emitOverflows, if_pos (by simpa using h), raiseLength, raise_eq,
    word_toNat_self]

/-! ## Steps -/

/-- Who moves, and what it does. -/
theorem step_core {s : State} (h : s.mover = some .core) : step s = coreTurn s.popTurn := by
  simp [step, h]

theorem step_host {s : State} (h : s.mover = some .host) : step s = hostTurn s.popTurn := by
  simp [step, h]

theorem step_idle {s : State} (h : s.mover = none) : step s = .next s := by
  simp [step, h]

/-- Every step is one of these. -/
theorem step_cases (s : State) :
    step s = .next s ∨ (s.env.host ≠ [] ∧ step s = hostTurn s.popTurn) ∨
    (s.pending ≠ .none ∧ step s = coreTurn s.popTurn) := by
  rcases h : s.mover with _ | a
  · exact .inl (step_idle h)
  · cases a
    · refine .inr (.inl ⟨?_, step_host h⟩)
      intro hh
      simp only [State.mover, State.hostReady, hh] at h
      revert h
      cases s.coreReady <;> simp
    · refine .inr (.inr ⟨?_, step_core h⟩)
      intro hh
      simp only [State.mover, State.coreReady, hh] at h
      revert h
      cases s.hostReady <;> simp

theorem coreStep_word {s : State} {v : Word} (h : s.pending = .word v) :
    coreStep s = match decodeCommand v with
      | .ok i => exec i s
      | .error _ => .next (s.errorEntry .badCmd v 0) := by
  simp only [coreStep, coreFetch, h, fetchCommand]
  split <;> rename_i hd
  · split at hd <;> simp_all
  · split at hd <;> simp_all [raise_eq, word]

theorem coreStep_subBlock {s : State} {image : Bool} (h : s.pending = .subBlock image) :
    coreStep s =
      if s.op.srcLen.toNat ≤ s.srcPtr.toNat then .next (s.errorEntry .sbOverrun s.srcPtr 0x100)
      else exec (decodeLength (s.srcAt s.srcPtr.toNat)) s := by
  simp only [coreStep, coreFetch, h, fetchLength]
  split
  · rename_i hd; split at hd
    · simp at hd
    · simp only [Fetched.instr.injEq] at hd
      obtain ⟨rfl, rfl⟩ := hd
      rw [if_neg (by omega)]
  · rename_i hd; split at hd
    · rw [if_pos (by omega)]; simp at hd; subst hd; simp [raise_eq]; rfl
    · simp at hd

/-- A code step: too few bits, an illegal code, or the code's class in the state after `take`. -/
theorem coreStep_code {s : State} {image : Bool} (h : s.pending = .code image) :
    coreStep s =
      if 8 * s.cbufLen.toNat < s.brPos.toNat + s.lzw.width.toNat then
        .next (s.errorEntry .bitOverrun s.brPos (word s.lzw.width.toNat))
      else match decodeCode s.lzw.ctx (bitsValue (s.bitsAhead s.lzw.width.toNat)) with
        | .ok i => exec i (s.advanceBits s.lzw.width.toNat)
        | .error e => illegalCode e (s.advanceBits s.lzw.width.toNat) := by
  simp only [coreStep, coreFetch, h, fetchCode]
  by_cases hb : 8 * s.cbufLen.toNat < s.brPos.toNat + s.lzw.width.toNat
  · rw [State.take_short hb, if_pos hb]; simp [raise_eq]
  · rw [State.take_enough (by omega), if_neg hb]
    simp only
    cases decodeCode s.lzw.ctx (bitsValue (s.bitsAhead s.lzw.width.toNat)) <;> rfl

end Sys2Proof.Machine
end

