-- ==== Sys2Proof/Laws/Wf.lean ====
section
/-! SUPPORT. Every update of the state that stores keeps the memories canonical, and keeps them within the
capacities where what it stores is. -/

namespace Sys2Proof.Machine

/-! ## The canonical form -/

theorem State.storeSrc_wf {s : State} (ps : List Host.Cell) (h : s.mem.wf = true) :
    (s.storeSrc ps).mem.wf = true := by
  rw [Memory.wf_iff] at h ⊢
  simp [h, Mem.wf_writeAll _ h.1]

theorem State.storeCt_wf {s : State} (ps : List Host.Cell) (h : s.mem.wf = true) :
    (s.storeCt ps).mem.wf = true := by
  rw [Memory.wf_iff] at h ⊢
  simp [h, Mem.wf_writeAll _ h.2.1]

theorem State.storeCbuf_wf {s : State} (ps : List Host.Cell) (h : s.mem.wf = true) :
    (s.storeCbuf ps).mem.wf = true := by
  rw [Memory.wf_iff] at h ⊢
  simp [h, Mem.wf_writeAll _ h.2.2.1]

theorem State.storeIdx_wf {s : State} (ps : List Host.Cell) (h : s.mem.wf = true) :
    (s.storeIdx ps).mem.wf = true := by
  rw [Memory.wf_iff] at h ⊢
  simp [h, Mem.wf_writeAll _ h.2.2.2.1]

theorem State.storeDict_wf {s : State} (e : Nat) (x : DictEntry) (h : s.mem.wf = true) :
    (s.storeDict e x).mem.wf = true := by
  rw [Memory.wf_iff] at h ⊢
  simp [h, Mem.wf_write _ _ h.2.2.2.2.1]

theorem State.storeCanvas_wf {s : State} (ps : List (Nat × Pixel)) (h : s.mem.wf = true) :
    (s.storeCanvas ps).mem.wf = true := by
  rw [Memory.wf_iff] at h ⊢
  simp [h, Mem.wf_writeAll _ h.2.2.2.2.2.1]

theorem State.storeSave_wf {s : State} (ps : List (Nat × Pixel)) (h : s.mem.wf = true) :
    (s.storeSave ps).mem.wf = true := by
  rw [Memory.wf_iff] at h ⊢
  simp [h, Mem.wf_writeAll _ h.2.2.2.2.2.2.1]

theorem State.storeSnap_wf {s : State} (ps : List (Nat × Pixel)) (h : s.mem.wf = true) :
    (s.storeSnap ps).mem.wf = true := by
  rw [Memory.wf_iff] at h ⊢
  simp [h, Mem.wf_writeAll _ h.2.2.2.2.2.2.2]

theorem State.emit_wf {s : State} (bs : List Byte) (h : s.mem.wf = true) : (s.emit bs).mem.wf = true :=
  State.storeIdx_wf _ h

theorem State.addEntry_wf {s : State} (b : Byte) (p : BitVec 12) (h : s.mem.wf = true) :
    (s.addEntry b p).mem.wf = true :=
  State.storeDict_wf _ _ h

theorem State.copySubBlock_wf {s : State} (n : Nat) (h : s.mem.wf = true) :
    (s.copySubBlock n).mem.wf = true :=
  State.storeCbuf_wf _ h

theorem State.openDocument_wf {s : State} (h : s.mem.wf = true) : s.openDocument.mem.wf = true := by
  unfold State.openDocument
  exact State.storeCanvas_wf _ h

theorem State.savePreFrame_wf {s : State} (d : Disposal) (h : s.mem.wf = true) :
    (s.savePreFrame d).mem.wf = true := by
  cases d
  case restorePrevious => exact State.storeSave_wf _ h
  all_goals exact h

theorem State.drawFrame_wf {s : State} (h : s.mem.wf = true) : s.drawFrame.mem.wf = true :=
  State.storeCanvas_wf _ h

theorem State.takeSnapshot_wf {s : State} (h : s.mem.wf = true) : s.takeSnapshot.mem.wf = true :=
  State.storeSnap_wf _ h

theorem State.dispose_wf {s : State} (d : Disposal) (h : s.mem.wf = true) :
    (s.dispose d).mem.wf = true := by
  cases d
  case restoreBackground => exact State.storeCanvas_wf _ h
  case restorePrevious => exact State.storeCanvas_wf _ h
  all_goals exact h

theorem State.composite_wf {s : State} (d : Disposal) (h : s.mem.wf = true) :
    (s.composite d).mem.wf = true :=
  State.dispose_wf d (State.takeSnapshot_wf (State.drawFrame_wf (State.savePreFrame_wf d h)))

/-! ## The bounds -/

theorem State.storeSrc_within {s : State} {c : Caps} {ps : List Host.Cell} (h : s.mem.within c = true)
    (hp : ∀ p ∈ ps, p.1 < c.src.toNat) : (s.storeSrc ps).mem.within c = true := by
  rw [Memory.within_iff] at h ⊢
  simp [h, Mem.within_writeAll h.1 hp]

theorem State.storeCt_within {s : State} {c : Caps} {ps : List Host.Cell} (h : s.mem.within c = true)
    (hp : ∀ p ∈ ps, p.1 < Config.ctBytes) : (s.storeCt ps).mem.within c = true := by
  rw [Memory.within_iff] at h ⊢
  simp [h, Mem.within_writeAll h.2.1 hp]

theorem State.storeCbuf_within {s : State} {c : Caps} {ps : List Host.Cell} (h : s.mem.within c = true)
    (hp : ∀ p ∈ ps, p.1 < c.cbuf.toNat) : (s.storeCbuf ps).mem.within c = true := by
  rw [Memory.within_iff] at h ⊢
  simp [h, Mem.within_writeAll h.2.2.1 hp]

theorem State.storeIdx_within {s : State} {c : Caps} {ps : List Host.Cell} (h : s.mem.within c = true)
    (hp : ∀ p ∈ ps, p.1 < c.idx.toNat) : (s.storeIdx ps).mem.within c = true := by
  rw [Memory.within_iff] at h ⊢
  simp [h, Mem.within_writeAll h.2.2.2.1 hp]

theorem State.storeDict_within {s : State} {c : Caps} {e : Nat} (x : DictEntry)
    (h : s.mem.within c = true) (he : e < Config.dictSize) : (s.storeDict e x).mem.within c = true := by
  rw [Memory.within_iff] at h ⊢
  simp [h, Mem.within_write x h.2.2.2.2.1 he]

theorem State.storeCanvas_within {s : State} {c : Caps} {ps : List (Nat × Pixel)}
    (h : s.mem.within c = true) (hp : ∀ p ∈ ps, p.1 < c.canvas.toNat) :
    (s.storeCanvas ps).mem.within c = true := by
  rw [Memory.within_iff] at h ⊢
  simp [h, Mem.within_writeAll h.2.2.2.2.2.1 hp]

theorem State.storeSave_within {s : State} {c : Caps} {ps : List (Nat × Pixel)}
    (h : s.mem.within c = true) (hp : ∀ p ∈ ps, p.1 < c.canvas.toNat) :
    (s.storeSave ps).mem.within c = true := by
  rw [Memory.within_iff] at h ⊢
  simp [h, Mem.within_writeAll h.2.2.2.2.2.2.1 hp]

theorem State.storeSnap_within {s : State} {c : Caps} {ps : List (Nat × Pixel)}
    (h : s.mem.within c = true) (hp : ∀ p ∈ ps, p.1 < c.canvas.toNat) :
    (s.storeSnap ps).mem.within c = true := by
  rw [Memory.within_iff] at h ⊢
  simp [h, Mem.within_writeAll h.2.2.2.2.2.2.2 hp]

theorem State.emit_within {s : State} {c : Caps} {bs : List Byte} (h : s.mem.within c = true)
    (hb : s.idxLen.toNat + bs.length ≤ c.idx.toNat) : (s.emit bs).mem.within c = true :=
  State.storeIdx_within h (placed_below hb)

theorem State.addEntry_within {s : State} {c : Caps} (b : Byte) (p : BitVec 12)
    (h : s.mem.within c = true) (hn : s.lzw.next.toNat < Config.dictSize) :
    (s.addEntry b p).mem.within c = true :=
  State.storeDict_within _ h hn

theorem State.copySubBlock_within {s : State} {c : Caps} {n : Nat} (h : s.mem.within c = true)
    (hn : s.cbufLen.toNat + n ≤ c.cbuf.toNat) : (s.copySubBlock n).mem.within c = true := by
  refine State.storeCbuf_within h (placed_below ?_)
  simpa [State.payload] using hn

theorem State.openDocument_within {s : State} {c : Caps} (h : s.mem.within c = true)
    (ha : s.op.canvasSize.area ≤ c.canvas.toNat) : s.openDocument.mem.within c = true := by
  unfold State.openDocument
  refine State.storeCanvas_within h ?_
  intro p hp
  simp only [State.documentCells, List.mem_map, List.mem_range] at hp
  obtain ⟨a, hlt, rfl⟩ := hp
  exact lt_of_lt_of_le hlt ha

end Sys2Proof.Machine
end

