-- ==== Sys2Proof/Laws/Compositor.lean ====
section
/-! SUPPORT. The Frame Compositor: the row map in closed form, the cells of the frame rectangle, and what each
cell holds after drawing, the snapshot and the disposal. -/

namespace Sys2Proof.Machine

/-! ## The row map -/

/-- The row map in closed form, with the four passes written out (43_compositor.md R195). -/
theorem rowmap_eq (r h : Nat) : rowmap r h =
    if r < (h + 7) / 8 then 8 * r
    else if r < (h + 7) / 8 + (h + 3) / 8 then 4 + 8 * (r - (h + 7) / 8)
    else if r < (h + 7) / 8 + (h + 3) / 8 + (h + 1) / 4 then
      2 + 4 * (r - (h + 7) / 8 - (h + 3) / 8)
    else if r < (h + 7) / 8 + (h + 3) / 8 + (h + 1) / 4 + h / 2 then
      1 + 2 * (r - (h + 7) / 8 - (h + 3) / 8 - (h + 1) / 4)
    else r - (h + 7) / 8 - (h + 3) / 8 - (h + 1) / 4 - h / 2 := by
  have e1 : passRows h 0 8 = (h + 7) / 8 := by unfold passRows; split <;> omega
  have e2 : passRows h 4 8 = (h + 3) / 8 := by unfold passRows; split <;> omega
  have e3 : passRows h 2 4 = (h + 1) / 4 := by unfold passRows; split <;> omega
  have e4 : passRows h 1 2 = h / 2 := by unfold passRows; split <;> omega
  simp only [rowmap, rowmapFrom, e1, e2, e3, e4]
  split_ifs <;> omega

theorem rowmap_lt {r h : Nat} (hr : r < h) : rowmap r h < h := by
  rw [rowmap_eq]
  split_ifs <;> omega

theorem rowmap_inj {r r' h : Nat} (hr : r < h) (hr' : r' < h) (he : rowmap r h = rowmap r' h) :
    r = r' := by
  rw [rowmap_eq, rowmap_eq] at he
  split_ifs at he <;> omega

theorem rowmap_surj {y h : Nat} (hy : y < h) : ∃ r, r < h ∧ rowmap r h = y := by
  refine ⟨if y % 8 = 0 then y / 8 else if y % 8 = 4 then (h + 7) / 8 + y / 8
    else if y % 4 = 2 then (h + 7) / 8 + (h + 3) / 8 + y / 4
    else (h + 7) / 8 + (h + 3) / 8 + (h + 1) / 4 + y / 2, ?_, ?_⟩
  · split_ifs <;> omega
  · rw [rowmap_eq]
    split_ifs <;> omega

theorem State.drawnRow_lt {s : State} {r : Nat} (hr : r < s.op.frmSize.h.toNat) :
    s.drawnRow r < s.op.frmSize.h.toNat := by
  unfold State.drawnRow
  split
  · exact rowmap_lt hr
  · exact hr

theorem State.drawnRow_inj {s : State} {r r' : Nat} (hr : r < s.op.frmSize.h.toNat)
    (hr' : r' < s.op.frmSize.h.toNat) (he : s.drawnRow r = s.drawnRow r') : r = r' := by
  unfold State.drawnRow at he
  split at he
  · exact rowmap_inj hr hr' he
  · exact he

/-! ## The frame rectangle -/

/-- Two cells of a row-major grid are the same cell only at the same column and row. -/
theorem cell_inj {w x y x' y' : Nat} (hx : x < w) (hx' : x' < w) (h : y * w + x = y' * w + x') :
    x = x' ∧ y = y' := by
  have hw : 0 < w := by omega
  have h1 : (y * w + x) % w = (y' * w + x') % w := by rw [h]
  have h2 : (y * w + x) / w = (y' * w + x') / w := by rw [h]
  rw [Nat.mul_comm y, Nat.mul_comm y', Nat.mul_add_mod, Nat.mul_add_mod, Nat.mod_eq_of_lt hx,
    Nat.mod_eq_of_lt hx'] at h1
  rw [Nat.mul_comm y, Nat.mul_comm y', Nat.mul_add_div hw, Nat.mul_add_div hw, Nat.div_eq_of_lt hx,
    Nat.div_eq_of_lt hx'] at h2
  omega

theorem cell_lt {w h x y : Nat} (hx : x < w) (hy : y < h) : y * w + x < w * h := by
  have : (y + 1) * w ≤ h * w := Nat.mul_le_mul_right _ hy
  rw [Nat.add_mul] at this
  rw [Nat.mul_comm w]
  omega

/-- Cells of the frame rectangle at different places are different. -/
theorem State.frameCell_inj {s : State} {x r x' r' : Nat}
    (hr : s.op.frmPos.left.toNat + s.op.frmSize.w.toNat ≤ s.docSize.w.toNat)
    (hx : x < s.op.frmSize.w.toNat) (hx' : x' < s.op.frmSize.w.toNat)
    (h : s.frameCell x r = s.frameCell x' r') : x = x' ∧ r = r' := by
  obtain ⟨h1, h2⟩ := cell_inj (by omega) (by omega) h
  omega

/-- The frame rectangle lies on the canvas. -/
theorem State.frameCell_lt {s : State} {x r : Nat}
    (hr : s.op.frmPos.left.toNat + s.op.frmSize.w.toNat ≤ s.docSize.w.toNat)
    (hb : s.op.frmPos.top.toNat + s.op.frmSize.h.toNat ≤ s.docSize.h.toNat)
    (hx : x < s.op.frmSize.w.toNat) (hy : r < s.op.frmSize.h.toNat) :
    s.frameCell x r < s.docSize.w.toNat * s.docSize.h.toNat :=
  cell_lt (by omega) (by omega)

theorem State.mem_frameCells {s : State} {a : Nat} : a ∈ s.frameCells ↔ s.inFrame a := by
  simp only [State.frameCells, State.inFrame, List.mem_flatMap, List.mem_map, List.mem_range]
  exact ⟨fun ⟨r, hr, x, hx, h⟩ => ⟨x, r, hx, hr, h.symm⟩, fun ⟨x, r, hx, hr, h⟩ => ⟨r, hr, x, hx, h.symm⟩⟩

/-- What the frame paints, as a set: the non-transparent pixels. -/
theorem State.mem_painted {s : State} {p : Nat × Pixel} :
    p ∈ s.painted ↔ ∃ x r, x < s.op.frmSize.w.toNat ∧ r < s.op.frmSize.h.toNat ∧
      s.transparent (s.frameIndex x r) = false ∧
      p = (s.frameCell x (s.drawnRow r), s.colour (s.frameIndex x r)) := by
  simp only [State.painted, List.mem_flatMap, List.mem_filterMap, List.mem_range]
  constructor
  · rintro ⟨r, hr, x, hx, h⟩
    split at h
    · simp at h
    · rename_i ht
      exact ⟨x, r, hx, hr, by simpa using ht, by simpa using h.symm⟩
  · rintro ⟨x, r, hx, hr, ht, h⟩
    exact ⟨r, hr, x, hx, by simp [ht, h]⟩

/-! ## Cells through the operations -/

/-- A list of stores of `f a` at each `a` of a list of cells. -/
theorem Mem.read_writeAll_map {α : Type} [DecidableEq α] {d : α} {m : List (Nat × α)}
    (hm : Mem.wf d m = true) (cells : List Nat) (f : Nat → α) (b : Nat) :
    (b ∈ cells → Mem.read d (Mem.writeAll d m (cells.map fun a => (a, f a))) b = f b) ∧
    (b ∉ cells → Mem.read d (Mem.writeAll d m (cells.map fun a => (a, f a))) b = Mem.read d m b) := by
  refine ⟨fun h => ?_, fun h => ?_⟩
  · refine Mem.read_writeAll_agree hm (List.mem_map.2 ⟨b, h, rfl⟩) ?_
    intro p hp hb
    obtain ⟨a, -, rfl⟩ := List.mem_map.1 hp
    simp only at hb ⊢
    rw [hb]
  · refine Mem.read_writeAll_other hm ?_
    intro p hp hb
    obtain ⟨a, ha, rfl⟩ := List.mem_map.1 hp
    simp only at hb
    exact h (hb ▸ ha)

theorem Memory.wf_canvas {m : Memory} (h : m.wf = true) : Mem.wf unwrittenPixel m.canvas = true :=
  ((Memory.wf_iff m).1 h).2.2.2.2.2.1

theorem Memory.wf_save {m : Memory} (h : m.wf = true) : Mem.wf unwrittenPixel m.save = true :=
  ((Memory.wf_iff m).1 h).2.2.2.2.2.2.1

theorem Memory.wf_snap {m : Memory} (h : m.wf = true) : Mem.wf unwrittenPixel m.snap = true :=
  ((Memory.wf_iff m).1 h).2.2.2.2.2.2.2

/-- A drawn pixel of the frame. -/
theorem State.canvasAt_drawFrame_pixel {s : State} (hm : s.mem.wf = true) {x r : Nat}
    (hr : s.op.frmPos.left.toNat + s.op.frmSize.w.toNat ≤ s.docSize.w.toNat)
    (hx : x < s.op.frmSize.w.toNat) (hy : r < s.op.frmSize.h.toNat) :
    s.drawFrame.canvasAt (s.frameCell x (s.drawnRow r)) =
      if s.transparent (s.frameIndex x r) then s.canvasAt (s.frameCell x (s.drawnRow r))
      else s.colour (s.frameIndex x r) := by
  have same : ∀ p ∈ s.painted, p.1 = s.frameCell x (s.drawnRow r) →
      s.transparent (s.frameIndex x r) = false ∧ p.2 = s.colour (s.frameIndex x r) := by
    intro p hp hpa
    obtain ⟨x', r', hx', hr', ht, rfl⟩ := State.mem_painted.1 hp
    obtain ⟨h1, h2⟩ := State.frameCell_inj hr hx' hx hpa
    have h3 := State.drawnRow_inj hr' hy h2
    subst h1 h3
    exact ⟨ht, rfl⟩
  simp only [State.canvasAt, State.drawFrame, State.storeCanvas_mem_canvas]
  cases ht : s.transparent (s.frameIndex x r)
  · rw [if_neg (by simp)]
    exact Mem.read_writeAll_agree (Memory.wf_canvas hm)
      (State.mem_painted.2 ⟨x, r, hx, hy, ht, rfl⟩) fun p hp hpa => (same p hp hpa).2
  · rw [if_pos rfl]
    exact Mem.read_writeAll_other (Memory.wf_canvas hm) fun p hp hpa => by
      have := (same p hp hpa).1
      rw [ht] at this
      simp at this

/-- A canvas cell outside the frame. -/
theorem State.canvasAt_drawFrame_other {s : State} (hm : s.mem.wf = true) {a : Nat}
    (ha : ¬ s.inFrame a) : s.drawFrame.canvasAt a = s.canvasAt a := by
  simp only [State.canvasAt, State.drawFrame, State.storeCanvas_mem_canvas]
  refine Mem.read_writeAll_other (Memory.wf_canvas hm) ?_
  intro p hp hpa
  obtain ⟨x, r, hx, hr, -, rfl⟩ := State.mem_painted.1 hp
  exact ha ⟨x, _, hx, State.drawnRow_lt hr, hpa.symm⟩

/-- Every cell of SNAP after the snapshot. -/
theorem State.snapAt_takeSnapshot {s : State} (hm : s.mem.wf = true) (a : Nat) :
    s.takeSnapshot.snapAt a = if a < s.docSize.area then s.canvasAt a else s.snapAt a := by
  simp only [State.snapAt, State.takeSnapshot_mem_snap]
  have h := Mem.read_writeAll_map (Memory.wf_snap hm) s.documentCells s.canvasAt a
  simp only [State.documentCells, List.mem_range] at h
  split
  · exact h.1 ‹_›
  · exact h.2 ‹_›

/-- Every cell of SAVE after the pre-frame save. -/
theorem State.saveAt_savePreFrame_previous {s : State} (hm : s.mem.wf = true) (a : Nat) :
    (s.inFrame a → (s.savePreFrame .restorePrevious).saveAt a = s.canvasAt a) ∧
    (¬ s.inFrame a → (s.savePreFrame .restorePrevious).saveAt a = s.saveAt a) := by
  have h := Mem.read_writeAll_map (Memory.wf_save hm) s.frameCells s.canvasAt a
  simp only [State.mem_frameCells] at h
  exact h

/-- Every cell of the canvas after a disposal that writes it. -/
theorem State.canvasAt_dispose_background {s : State} (hm : s.mem.wf = true) (a : Nat) :
    (s.inFrame a → (s.dispose .restoreBackground).canvasAt a = transparentCell) ∧
    (¬ s.inFrame a → (s.dispose .restoreBackground).canvasAt a = s.canvasAt a) := by
  have h := Mem.read_writeAll_map (Memory.wf_canvas hm) s.frameCells (fun _ => transparentCell) a
  simp only [State.mem_frameCells] at h
  exact h

theorem State.canvasAt_dispose_previous {s : State} (hm : s.mem.wf = true) (a : Nat) :
    (s.inFrame a → (s.dispose .restorePrevious).canvasAt a = s.saveAt a) ∧
    (¬ s.inFrame a → (s.dispose .restorePrevious).canvasAt a = s.canvasAt a) := by
  have h := Mem.read_writeAll_map (Memory.wf_canvas hm) s.frameCells s.saveAt a
  simp only [State.mem_frameCells] at h
  exact h

/-- Every canvas cell after BEGIN_DOC's clearing. -/
theorem State.canvasAt_openDocument {s : State} (hm : s.mem.wf = true) (a : Nat) :
    s.openDocument.canvasAt a =
      if a < s.op.canvasSize.area then transparentCell else s.canvasAt a := by
  have h := Mem.read_writeAll_map (Memory.wf_canvas hm) (List.range s.op.canvasSize.area)
    (fun _ => transparentCell) a
  simp only [List.mem_range] at h
  simp only [State.canvasAt, State.openDocument_mem_canvas]
  split
  · exact h.1 ‹_›
  · exact h.2 ‹_›

/-! ## The rectangle does not move -/

theorem State.inFrame_congr {s t : State} (ho : t.op = s.op) (hd : t.docSize = s.docSize) (a : Nat) :
    t.inFrame a ↔ s.inFrame a := by
  simp only [State.inFrame, State.frameCell, State.cellOf, ho, hd]

/-- The state in which COMPOSE takes its snapshot. -/
def State.drawn (s : State) (d : Disposal) : State := (s.savePreFrame d).drawFrame

theorem State.composite_eq (s : State) (d : Disposal) :
    s.composite d =
      { ((s.drawn d).takeSnapshot.dispose d) with
        status := { ((s.drawn d).takeSnapshot.dispose d).status with idxValid := false } } := rfl

@[simp] theorem State.drawn_op (s : State) (d : Disposal) : (s.drawn d).op = s.op := by
  cases d <;> rfl

@[simp] theorem State.drawn_docSize (s : State) (d : Disposal) : (s.drawn d).docSize = s.docSize := by
  cases d <;> rfl

theorem State.drawn_wf {s : State} (d : Disposal) (hm : s.mem.wf = true) :
    (s.drawn d).mem.wf = true :=
  State.drawFrame_wf (State.savePreFrame_wf d hm)

/-- The pre-frame save changes nothing that drawing reads. -/
theorem State.canvasAt_drawn (s : State) (d : Disposal) (a : Nat) :
    (s.drawn d).canvasAt a = s.drawFrame.canvasAt a := by
  cases d <;> rfl

@[simp] theorem State.composite_status (s : State) (d : Disposal) :
    (s.composite d).status = { s.status with snapValid := true, idxValid := false } := by
  cases d <;> rfl

@[simp] theorem State.composite_frameCount (s : State) (d : Disposal) :
    (s.composite d).frameCount = word ((s.frameCount.toNat + 1) % 2 ^ 32) := by
  cases d <;> rfl

@[simp] theorem State.composite_snapDelay (s : State) (d : Disposal) :
    (s.composite d).snapDelay = s.op.frmDelay := by
  cases d <;> rfl

theorem State.inFrame_drawn (s : State) (d : Disposal) (a : Nat) :
    (s.drawn d).takeSnapshot.inFrame a ↔ s.inFrame a :=
  State.inFrame_congr (by simp) (by simp) a

/-- SNAP after COMPOSE. -/
theorem State.snapAt_composite {s : State} (hm : s.mem.wf = true) (d : Disposal) (a : Nat) :
    (s.composite d).snapAt a =
      if a < s.docSize.area then s.drawFrame.canvasAt a else s.snapAt a := by
  have h1 : (s.composite d).snapAt a = (s.drawn d).takeSnapshot.snapAt a := by cases d <;> rfl
  rw [h1, State.snapAt_takeSnapshot (State.drawn_wf d hm), State.canvasAt_drawn, State.drawn_docSize]
  cases d <;> rfl

/-- SAVE after COMPOSE is SAVE after the pre-frame save. -/
theorem State.saveAt_composite (s : State) (d : Disposal) (a : Nat) :
    (s.composite d).saveAt a = (s.savePreFrame d).saveAt a := by
  cases d <;> rfl

/-- The canvas after COMPOSE: the disposal of the drawn canvas. -/
theorem State.canvasAt_composite {s : State} (hm : s.mem.wf = true) (a : Nat) :
    (s.composite .none).canvasAt a = s.drawFrame.canvasAt a ∧
    (s.composite .doNotDispose).canvasAt a = s.drawFrame.canvasAt a ∧
    (s.inFrame a → (s.composite .restoreBackground).canvasAt a = transparentCell) ∧
    (¬ s.inFrame a → (s.composite .restoreBackground).canvasAt a = s.canvasAt a) ∧
    (s.composite .restorePrevious).canvasAt a = s.canvasAt a := by
  have hb := State.canvasAt_dispose_background
    (State.takeSnapshot_wf (State.drawn_wf .restoreBackground hm)) a
  have hp := State.canvasAt_dispose_previous
    (State.takeSnapshot_wf (State.drawn_wf .restorePrevious hm)) a
  have hs := State.saveAt_savePreFrame_previous hm a
  rw [State.inFrame_drawn] at hb hp
  refine ⟨rfl, rfl, hb.1, fun h => ?_, ?_⟩
  · rw [← State.canvasAt_drawFrame_other hm h]
    exact hb.2 h
  · by_cases h : s.inFrame a
    · exact (hp.1 h).trans (hs.1 h)
    · rw [← State.canvasAt_drawFrame_other hm h]
      exact hp.2 h

end Sys2Proof.Machine
end

