-- ==== Sys2Proof/Laws/Encoding.lean ====
section
/-! SUPPORT. Bits and numbers of a code: the two readings are inverse, so a code survives its encoding. -/

namespace Sys2Proof

/-- Reading back the bits of a number gives it modulo the width. -/
theorem bitsValue_map_testBit (w c : Nat) : bitsValue ((List.range w).map c.testBit) = c % 2 ^ w := by
  induction w generalizing c with
  | zero => simp [bitsValue, Nat.mod_one]
  | succ w ih =>
    rw [List.range_succ_eq_map, List.map_cons, List.map_map]
    have h : (c.testBit ∘ Nat.succ) = (c / 2).testBit := by
      funext i; simp [Nat.testBit_succ]
    rw [h, bitsValue, ih, Nat.pow_succ]
    have h2 : bit (c.testBit 0) = c % 2 := by
      rw [Nat.testBit_zero]
      rcases Nat.mod_two_eq_zero_or_one c with h0 | h0 <;> simp [bit, h0]
    rw [h2, Nat.mul_comm (2 ^ w) 2, Nat.mod_mul]

/-- A code that fits its width reads back as itself. -/
theorem bitsValue_codeBits {w c : Nat} (h : c < 2 ^ w) : bitsValue (codeBits w c) = c := by
  rw [codeBits, bitsValue_map_testBit, Nat.mod_eq_of_lt h]

@[simp] theorem codeBits_length (w c : Nat) : (codeBits w c).length = w := by simp [codeBits]

/-- Decoding the bits of a code that fits is decoding the code. -/
theorem decode_codeBits {k : CodeCtx} {c : Nat} (h : k.fits c = true) :
    decode k (.lzwc (codeBits k.width c)) = decodeCode k c := by
  rw [decode, codeBits_length, if_pos rfl, bitsValue_codeBits (by simpa [CodeCtx.fits] using h)]

end Sys2Proof
end

