-- ==== Sys2Proof/Laws/Lzw.lean ====
section
/-! SUPPORT. The running decode: the chains of live codes end, each code class keeps the decode invariant, and
a code step is one of a few outcomes. -/

namespace Sys2Proof.Machine

/-! ## The code space -/

theorem State.eoiCode_eq (s : State) : s.eoiCode = s.clearCode + 1 := rfl

theorem LzwInv.clearCode_le {s : State} (h : LzwInv s) : s.clearCode ≤ 256 :=
  (Nat.pow_le_pow_right (by simp) h.mcsLegal.2).trans (by simp)

theorem LzwInv.code_lt {s : State} (h : LzwInv s) {c : Nat} (hc : s.stringCode c) : c < 4096 := by
  have := h.nextRange.2
  have := hc.1
  omega

/-- A string code that is no entry is a base code. -/
theorem State.stringCode_base {s : State} {e : Nat} (he : s.stringCode e) (hg : ¬ s.eoiCode < e) :
    e < s.clearCode := by
  have := s.eoiCode_eq
  obtain ⟨-, h2, h3⟩ := he
  omega

/-- The predecessor of a live entry is an older string code. -/
theorem LzwInv.pred_stringCode {s : State} (h : LzwInv s) {e : Nat} (he : s.stringCode e)
    (hg : s.eoiCode < e) : s.stringCode (s.dictAt e).pred.toNat ∧ (s.dictAt e).pred.toNat < e := by
  obtain ⟨h1, h2, h3, -⟩ := h.chains e hg he.1
  exact ⟨⟨h1.trans he.1, h2, h3⟩, h1⟩

/-! ## Chains -/

/-- The chain of a string code ends after at most as many links as there are entries up to it, and holds base
codes only. -/
theorem LzwInv.walkChain_live {s : State} (hi : LzwInv s) (fuel e : Nat) (acc : List Byte)
    (hf : e < fuel) (he : s.stringCode e) :
    ∃ str, walkChain s.mem.dict s.eoiCode fuel e acc = some (str ++ acc) ∧ 1 ≤ str.length ∧
      str.length ≤ e - s.eoiCode + 1 ∧ ∀ b ∈ str, b.toNat < s.clearCode := by
  induction fuel generalizing e acc with
  | zero => omega
  | succ f ih =>
    rw [walkChain]
    by_cases hg : e > s.eoiCode
    · rw [if_pos hg]
      obtain ⟨hp, hlt⟩ := hi.pred_stringCode he hg
      have hb := (hi.chains e hg he.1).2.2.2
      obtain ⟨str, h1, h2, h3, h4⟩ := ih (s.dictAt e).pred.toNat ((s.dictAt e).byte :: acc) (by omega) hp
      refine ⟨str ++ [(s.dictAt e).byte], ?_, by simp, ?_, ?_⟩
      · have : Mem.read unwrittenEntry s.mem.dict e = s.dictAt e := rfl
        rw [this, h1]; simp
      · simp; omega
      · intro b hb'
        rcases List.mem_append.1 hb' with h | h
        · exact h4 b h
        · simp at h; subst h; exact hb
    · rw [if_neg hg]
      have hbase := State.stringCode_base he hg
      have := hi.clearCode_le
      refine ⟨[BitVec.ofNat 8 e], by simp, by simp, by simp, ?_⟩
      intro b hb; simp at hb; subst hb; simp; omega

/-- An added entry is on no chain of an older code. -/
theorem LzwInv.walkChain_addEntry {s : State} (hi : LzwInv s) (hm : s.mem.wf = true) (b : Byte)
    (p : BitVec 12) (fuel e : Nat) (acc : List Byte) (he : s.stringCode e) :
    walkChain (s.addEntry b p).mem.dict s.eoiCode fuel e acc =
      walkChain s.mem.dict s.eoiCode fuel e acc := by
  induction fuel generalizing e acc with
  | zero => rfl
  | succ f ih =>
    rw [walkChain, walkChain]
    by_cases hg : e > s.eoiCode
    · rw [if_pos hg, if_pos hg]
      obtain ⟨hp, hlt⟩ := hi.pred_stringCode he hg
      have e1 : Mem.read unwrittenEntry s.mem.dict e = s.dictAt e := rfl
      have e2 : Mem.read unwrittenEntry (s.addEntry b p).mem.dict e = (s.addEntry b p).dictAt e := rfl
      rw [e1, e2, State.dictAt_addEntry hm, if_neg (by have := he.1; omega)]
      exact ih _ _ hp
    · rw [if_neg hg, if_neg hg]

/-! ## The code classes keep the decode invariant -/

/-- The width `add_entry` leaves (42_lzw.md R167). -/
theorem State.grownWidth_toNat (s : State) :
    (BitVec.ofNat 4 (grownWidth s.lzw.width.toNat (s.lzw.next.toNat + 1))).toNat =
      if s.lzw.next.toNat + 1 ≥ 2 ^ s.lzw.width.toNat ∧ s.lzw.width.toNat < 12
      then s.lzw.width.toNat + 1 else s.lzw.width.toNat := by
  have := s.lzw.width.isLt
  unfold grownWidth
  split
  · rename_i h; have := h.2; simp only [Config.maxWidth] at this
    rw [ofNat4_toNat (by omega)]
  · simp

/-- `take` keeps the decode invariant. -/
theorem LzwInv.advance {s : State} (h : LzwInv s) {w : Nat} (hb : s.brPos.toNat + w ≤ 8 * s.cbufLen.toNat)
    (hc : s.cbufLen.toNat ≤ 2 ^ 29 - 1) : LzwInv (s.advanceBits w) :=
  { mcsLegal := h.mcsLegal, widthRange := h.widthRange, nextRange := h.nextRange, nextFits := h.nextFits,
    nextEdge := h.nextEdge, chains := h.chains, phases := h.phases, fresh := h.fresh,
    prevString := h.prevString, counted := h.counted, indices := h.indices,
    cursor := by
      rw [State.advanceBits_brPos, State.advanceBits_cbufLen, word_toNat (by omega)]; exact hb }

/-- The clear codes keep the decode invariant (42_lzw.md R159, R162). -/
theorem LzwInv.cleared {s : State} (h : LzwInv s) : LzwInv (s.resetDict.toPhase .afterClear) := by
  have h1 := h.mcsLegal
  have h2 : s.eoiCode ≤ 257 := by have := h.clearCode_le; have h1 := s.eoiCode_eq; omega
  have h3 : s.eoiCode = 2 ^ s.lzw.mcsL.toNat + 1 := rfl
  have e1 : (s.resetDict.toPhase .afterClear).eoiCode = s.eoiCode := rfl
  have e2 : (s.resetDict.toPhase .afterClear).clearCode = s.clearCode := rfl
  have ew : (s.resetDict.toPhase .afterClear).lzw.width.toNat = s.lzw.mcsL.toNat + 1 := by
    simp; omega
  have en : (s.resetDict.toPhase .afterClear).lzw.next.toNat = s.eoiCode + 1 := by
    simp; omega
  have em : (s.resetDict.toPhase .afterClear).lzw.mcsL = s.lzw.mcsL := rfl
  have h5 : 2 ^ (s.lzw.mcsL.toNat + 1) = 2 * 2 ^ s.lzw.mcsL.toNat := by rw [Nat.pow_succ]; omega
  have h6 : 2 ^ 1 ≤ 2 ^ s.lzw.mcsL.toNat := Nat.pow_le_pow_right (by simp) h1.1
  constructor
  · exact h1
  · rw [ew, em]; omega
  · rw [en, e1]; omega
  · rw [en, ew, h5]; omega
  · rw [en, ew, em, h5]; intro hh
    have h7 : 2 ^ s.lzw.mcsL.toNat = 2 ^ 1 := by omega
    have h8 := Nat.pow_right_injective (le_refl 2) h7
    right; rw [h8]; omega
  · rw [en, e1]; intro e a b; omega
  · right; left; rfl
  · intro _; rw [ew, em, en, e1]; exact ⟨rfl, rfl⟩
  · intro hh; cases hh
  · exact h.counted
  · exact h.indices
  · exact h.cursor

/-- BASE_AFTER_CLEAR keeps the decode invariant (42_lzw.md R160). -/
theorem LzwInv.based {s : State} (h : LzwInv s) (hm : s.mem.wf = true) {c : BitVec 12}
    (hc : c.toNat < s.clearCode) (hl : s.idxLen.toNat + 1 ≤ s.lzw.expLen.toNat) :
    LzwInv (((s.emit [BitVec.ofNat 8 c.toNat]).setPrev c).toPhase .normal) := by
  have hx := s.lzw.expLen.isLt
  have hc2 := h.clearCode_le
  have h1 := s.eoiCode_eq
  have hnr := h.nextRange
  have el : (((s.emit [BitVec.ofNat 8 c.toNat]).setPrev c).toPhase .normal).idxLen.toNat = s.idxLen.toNat + 1 := by
    simp; rw [word_toNat (by omega)]
  constructor
  · exact h.mcsLegal
  · exact h.widthRange
  · exact h.nextRange
  · exact h.nextFits
  · exact h.nextEdge
  · intro e he1 he2
    simp only [State.dictAt_toPhase, State.dictAt_setPrev, State.dictAt_emit]
    exact h.chains e he1 he2
  · right; right; rfl
  · intro hh; exact absurd rfl hh
  · intro _
    change s.stringCode c.toNat
    exact ⟨by omega, by omega, by omega⟩
  · rw [el]; exact ⟨hl, h.counted.2⟩
  · rw [el]; intro k hk
    rw [State.idxAt_toPhase, State.idxAt_setPrev, State.idxAt_emit hm]
    change _ < s.clearCode
    split
    · simp; omega
    · rename_i hh
      exact h.indices k (by simp at hh; omega)
  · exact h.cursor

/-- KNOWN and KWKWK keep the decode invariant (42_lzw.md R163, R164). -/
theorem LzwInv.extended {s : State} (h : LzwInv s) (hm : s.mem.wf = true) {c : BitVec 12} {str : List Byte}
    (hp : s.lzw.phase = .normal) (hn : s.lzw.next.toNat < 4096)
    (hs : str ≠ []) (hb : ∀ b ∈ str, b.toNat < s.clearCode)
    (hc : c.toNat ≤ s.lzw.next.toNat) (hc1 : c.toNat ≠ s.clearCode) (hc2 : c.toNat ≠ s.eoiCode)
    (hl : s.idxLen.toNat + str.length ≤ s.lzw.expLen.toNat) :
    LzwInv (((s.emit str).addEntry (str.headD 0) s.lzw.prev).setPrev c) := by
  have hx := s.lzw.expLen.isLt
  have hnr := h.nextRange
  have hw := h.widthRange
  have hf := h.nextFits
  generalize ht : ((s.emit str).addEntry (str.headD 0) s.lzw.prev).setPrev c = t
  have tmem : t.mem.wf = true := by rw [← ht]; exact State.addEntry_wf _ _ (State.emit_wf _ hm)
  have e1 : t.eoiCode = s.eoiCode := by rw [← ht]; simp [State.eoiCode, Lzw.ctx, CodeCtx.eoi, CodeCtx.clear]
  have e2 : t.clearCode = s.clearCode := by rw [← ht]; simp [State.clearCode, Lzw.ctx, CodeCtx.clear]
  have em : t.lzw.mcsL = s.lzw.mcsL := by rw [← ht]; simp
  have ep : t.lzw.phase = .normal := by rw [← ht]; simp [hp]
  have ex : t.lzw.expLen = s.lzw.expLen := by rw [← ht]; simp
  have epv : t.lzw.prev = c := by rw [← ht]; simp
  have en : t.lzw.next.toNat = s.lzw.next.toNat + 1 := by rw [← ht]; simp; omega
  have ew : t.lzw.width.toNat = (if s.lzw.next.toNat + 1 ≥ 2 ^ s.lzw.width.toNat ∧ s.lzw.width.toNat < 12
        then s.lzw.width.toNat + 1 else s.lzw.width.toNat) := by
    rw [← ht]; simp only [State.setPrev_lzw, State.addEntry_lzw, State.emit_lzw]; exact s.grownWidth_toNat
  have el : t.idxLen.toNat = s.idxLen.toNat + str.length := by
    rw [← ht]; simp; rw [word_toNat (by omega)]
  have ei : ∀ k, t.idxAt k = (s.emit str).idxAt k := by intro k; rw [← ht]; simp
  have ed : ∀ e, t.dictAt e = if e = s.lzw.next.toNat then ⟨str.headD 0, s.lzw.prev⟩ else s.dictAt e := by
    intro e; rw [← ht, State.dictAt_setPrev, State.dictAt_addEntry (State.emit_wf _ hm)]; simp
  have ec : t.caps = s.caps := by rw [← ht]; simp
  have eb : t.brPos = s.brPos := by rw [← ht]; simp
  have ecl : t.cbufLen = s.cbufLen := by rw [← ht]; simp
  have hpow : 2 ^ (s.lzw.width.toNat + 1) = 2 * 2 ^ s.lzw.width.toNat := by rw [Nat.pow_succ]; omega
  have hpow4 : 2 ^ 2 ≤ 2 ^ s.lzw.width.toNat := Nat.pow_le_pow_right (by simp) (by have := h.mcsLegal; omega)
  constructor
  · rw [em]; exact h.mcsLegal
  · rw [em, ew]; split <;> omega
  · rw [en, e1]; omega
  · rw [en, ew]; split
    · rw [hpow]; omega
    · rename_i hh
      by_cases h12 : s.lzw.width.toNat = 12
      · rw [h12]; omega
      · omega
  · rw [en, ew, em]; split
    · intro hh; rw [hpow] at hh; omega
    · rename_i hh
      intro h3
      left
      have : s.lzw.width.toNat = 12 := by omega
      rw [this] at h3
      exact ⟨this, h3⟩
  · rw [en, e1, e2]
    intro e h1 h2
    rw [ed]
    by_cases he : e = s.lzw.next.toNat
    · rw [if_pos he]
      obtain ⟨p1, p2, p3⟩ := h.prevString hp
      refine ⟨by simp only; omega, p2, p3, ?_⟩
      obtain ⟨b, rest, rfl⟩ := List.exists_cons_of_ne_nil hs
      exact hb b (by simp)
    · rw [if_neg he]; exact h.chains e h1 (by omega)
  · right; right; exact ep
  · intro hh; exact absurd ep hh
  · intro _
    rw [epv]
    refine ⟨by rw [en]; omega, by rw [e2]; exact hc1, by rw [e1]; exact hc2⟩
  · rw [el, ex, ec]; exact ⟨hl, h.counted.2⟩
  · rw [el, e2]
    intro k hk
    rw [ei, State.idxAt_emit hm]
    split
    · exact hb _ (List.getElem_mem _)
    · exact h.indices k (by omega)
  · rw [eb, ecl]; exact h.cursor

/-! ## Code steps -/

theorem composeBody_pending {s t : State} (h : composeBody s = .next t) : t.pending = .none := by
  rcases composeBody_cases s with ⟨c, i, a, -, hh⟩ | ⟨d, -, hh⟩ <;> rw [hh] at h <;> cases h <;> rfl

theorem finishDecode_pending {s t : State} (h : finishDecode s = .next t) : t.pending = .none := by
  unfold finishDecode at h
  split at h
  · exact composeBody_pending h
  · cases h; rfl


/-- A code step ends in an error entry with at most the cursor moved, or runs one of the legal classes: a
clear code, a base code, EOI, or a string with its new entry. -/
theorem coreStep_code_cases {s : State} {image : Bool} (hi : LzwInv s) (hp : s.pending = .code image)
    (hc : s.cbufLen.toNat ≤ 2 ^ 29 - 1) :
    (∃ u c i a, c ≠ .none ∧ (u = s ∨ u = s.advanceBits s.lzw.width.toNat) ∧
      coreStep s = .next (State.errorEntry c i a u)) ∨
    (s.brPos.toNat + s.lzw.width.toNat ≤ 8 * s.cbufLen.toNat ∧
      (coreStep s = .next ((s.advanceBits s.lzw.width.toNat).resetDict.toPhase .afterClear) ∨
      (∃ c : BitVec 12, c.toNat < s.clearCode ∧ s.idxLen.toNat + 1 ≤ s.lzw.expLen.toNat ∧
        coreStep s = .next ((((s.advanceBits s.lzw.width.toNat).emit [BitVec.ofNat 8 c.toNat]).setPrev
          c).toPhase .normal)) ∨
      (s.idxLen = s.lzw.expLen ∧
        coreStep s = finishDecode ((s.advanceBits s.lzw.width.toNat).toPhase .done)) ∨
      (∃ (str : List Byte) (c : BitVec 12), s.lzw.phase = .normal ∧ s.lzw.next.toNat < 4096 ∧ str ≠ [] ∧
        (∀ b ∈ str, b.toNat < s.clearCode) ∧ c.toNat ≤ s.lzw.next.toNat ∧ c.toNat ≠ s.clearCode ∧
        c.toNat ≠ s.eoiCode ∧ s.idxLen.toNat + str.length ≤ s.lzw.expLen.toNat ∧
        coreStep s = .next ((((s.advanceBits s.lzw.width.toNat).emit str).addEntry (str.headD 0)
          s.lzw.prev).setPrev c)))) := by
  rw [coreStep_code hp]
  split
  · exact .inl ⟨s, _, _, _, by simp, .inl rfl, rfl⟩
  rename_i hbits
  have h1 := hi.advance (w := s.lzw.width.toNat) (by omega) hc
  have hlt := s.code_lt s.lzw.width.toNat
  have hw12 : 2 ^ s.lzw.width.toNat ≤ 2 ^ 12 := Nat.pow_le_pow_right (by simp) hi.widthRange.2
  generalize bitsValue (s.bitsAhead s.lzw.width.toNat) = c at *
  have hcn : (BitVec.ofNat 12 c).toNat = c := ofNat12_toNat (by omega)
  have err : ∀ c i a, c ≠ .none → ∃ u c' i' a', c' ≠ .none ∧
      (u = s ∨ u = s.advanceBits s.lzw.width.toNat) ∧
      Host.Outcome.next (State.errorEntry c i a (s.advanceBits s.lzw.width.toNat)) =
        (Host.Outcome.next (State.errorEntry c' i' a' u) : Res) :=
    fun c i a h => ⟨_, c, i, a, h, .inr rfl, rfl⟩
  have heoi : s.lzw.ctx.eoi = s.eoiCode := rfl
  have hclr : s.lzw.ctx.clear = s.clearCode := rfl
  have hnx : s.lzw.ctx.next = s.lzw.next.toNat := rfl
  have hph : s.lzw.ctx.phase = s.lzw.phase := rfl
  rw [decodeCode, heoi, hclr, hnx, hph]
  rcases hi.phases with hp0 | hp0 | hp0 <;> rw [hp0] <;> simp only
  · by_cases hcc : c = s.clearCode
    · rw [if_pos hcc]; exact .inr ⟨by omega, .inl rfl⟩
    · rw [if_neg hcc]; exact .inl (err _ _ _ (by simp))
  · by_cases hcc : c < s.clearCode
    · rw [if_pos hcc]
      simp only [exec, execBaseAfterClear]
      split
      · exact .inl (err _ _ _ (by simp))
      · rename_i hov
        simp only [State.emitOverflows, State.advanceBits_idxLen, State.advanceBits_lzw, gt_iff_lt,
          decide_eq_true_eq, not_lt] at hov
        exact .inr ⟨by omega, .inr (.inl ⟨_, by omega, hov, rfl⟩)⟩
    · rw [if_neg hcc]; exact .inl (err _ _ _ (by simp))
  · by_cases c1 : c = s.eoiCode
    · rw [if_pos c1]
      simp only [exec, execEoi]
      split
      · exact .inl (err _ _ _ (by simp))
      · rename_i he
        exact .inr ⟨by omega, .inr (.inr (.inl ⟨by simpa using he, rfl⟩))⟩
    rw [if_neg c1]
    by_cases c2 : c = s.clearCode
    · rw [if_pos c2]; exact .inr ⟨by omega, .inl rfl⟩
    rw [if_neg c2]
    by_cases c3 : c < s.lzw.next.toNat
    · rw [if_pos c3]
      simp only [exec, execKnown]
      split
      · exact .inl (err _ _ _ (by simp))
      · rename_i hfull
        have hn : s.lzw.next.toNat < 4096 := by
          have := hi.nextRange.2
          simp only [State.advanceBits_lzw, Config.dictSize] at hfull
          omega
        have hsc : s.stringCode c := ⟨c3, c2, c1⟩
        obtain ⟨str, k1, k2, -, k4⟩ := hi.walkChain_live 4096 c [] (hi.code_lt hsc) hsc
        rw [List.append_nil] at k1
        have k5 : (s.advanceBits s.lzw.width.toNat).translate (BitVec.ofNat 12 c).toNat = some str := by
          rw [hcn]; exact k1
        rw [k5]
        simp only
        by_cases hov : s.lzw.expLen.toNat < s.idxLen.toNat + str.length
        · rw [decodeString_long (by simpa using hov)]; exact .inl (err _ _ _ (by simp))
        · rw [decodeString_fits (by simpa using hov)]
          refine .inr ⟨by omega, .inr (.inr (.inr ⟨str, BitVec.ofNat 12 c, trivial, hn, ?_, k4, by omega,
            by omega, by omega, by omega, rfl⟩))⟩
          rintro rfl
          simp at k2
    rw [if_neg c3]
    by_cases c4 : c = s.lzw.next.toNat
    · rw [if_pos c4]
      have hn : s.lzw.next.toNat < 4096 := by omega
      have hsc := hi.prevString hp0
      obtain ⟨str, k1, k2, -, k4⟩ := hi.walkChain_live 4096 _ [] (hi.code_lt hsc) hsc
      rw [List.append_nil] at k1
      have k5 : (s.advanceBits s.lzw.width.toNat).translate
          (s.advanceBits s.lzw.width.toNat).lzw.prev.toNat = some str := k1
      simp only [exec, execKwkwk]
      rw [k5]
      simp only
      have hmem : str.headD 0 ∈ str := by
        cases str with
        | nil => simp at k2
        | cons b rest => simp
      have hhead : (str ++ [str.headD 0]).headD 0 = str.headD 0 := by
        cases str with
        | nil => simp at k2
        | cons b rest => simp
      by_cases hov : s.lzw.expLen.toNat < s.idxLen.toNat + (str ++ [str.headD 0]).length
      · rw [decodeString_long (by simpa using hov)]; exact .inl (err _ _ _ (by simp))
      · rw [decodeString_fits (by simpa using hov)]
        have e : (BitVec.ofNat 12 s.lzw.next.toNat).toNat = s.lzw.next.toNat := ofNat12_toNat hn
        refine .inr ⟨by omega, .inr (.inr (.inr ⟨str ++ [str.headD 0], BitVec.ofNat 12 s.lzw.next.toNat,
          trivial, hn, by simp, ?_, by omega, by omega, by omega, by omega, rfl⟩))⟩
        intro x hx
        rcases List.mem_append.1 hx with hx | hx
        · exact k4 x hx
        · rw [List.mem_singleton.1 hx]; exact k4 _ hmem
    · rw [if_neg c4]; exact .inl (err _ _ _ (by simp))

end Sys2Proof.Machine
end

