-- ==== Sys2Proof/Laws/PerInstr.lean ====
section
/-! SUPPORT. What is said of every instruction one by one: its encoding has the length of its row's format
(30_encoding.md R90), and an instruction that a code stream can spell is well-formed on its own. -/

namespace Sys2Proof.Laws.EncodedLength

/-- The bits an encoding takes (30_encoding.md R91, R97, R99). -/
def bitCount : Encoded → Nat
  | .cmd32 _ => 32
  | .sb8 _ => 8
  | .lzwc bits => bits.length

/-- The bits of the format an instruction's row belongs to (30_encoding.md R90); a code has the width of the
stream at its place (R101). -/
def formatBits (k : CodeCtx) : Instr → Nat
  | .nop => 32
  | .softReset => 32
  | .beginDoc => 32
  | .assemble => 32
  | .lzwDecode => 32
  | .compose => 32
  | .image => 32
  | .endDoc => 32
  | .sbTerm => 8
  | .sbData _ => 8
  | .clearFirst => k.width
  | .baseAfterClear _ => k.width
  | .eoi => k.width
  | .clear => k.width
  | .known _ => k.width
  | .kwkwk => k.width

/-- The encoding's length, and well-formedness in a stream within well-formedness. -/
def Statement (i : Instr) : Prop :=
  ∀ k : CodeCtx, bitCount (encode k i) = formatBits k i ∧ (k.ok = true → i.wfIn k = true → i.wf = true)

theorem nop : Statement .nop := fun _ => ⟨rfl, fun _ _ => rfl⟩
theorem softReset : Statement .softReset := fun _ => ⟨rfl, fun _ _ => rfl⟩
theorem beginDoc : Statement .beginDoc := fun _ => ⟨rfl, fun _ _ => rfl⟩
theorem assemble : Statement .assemble := fun _ => ⟨rfl, fun _ _ => rfl⟩
theorem lzwDecode : Statement .lzwDecode := fun _ => ⟨rfl, fun _ _ => rfl⟩
theorem compose : Statement .compose := fun _ => ⟨rfl, fun _ _ => rfl⟩
theorem image : Statement .image := fun _ => ⟨rfl, fun _ _ => rfl⟩
theorem endDoc : Statement .endDoc := fun _ => ⟨rfl, fun _ _ => rfl⟩
theorem sbTerm : Statement .sbTerm := fun _ => ⟨rfl, fun _ _ => rfl⟩
theorem sbData (n : Byte) : Statement (.sbData n) := fun _ => ⟨rfl, fun _ h => h⟩
theorem clearFirst : Statement .clearFirst := fun _ => ⟨codeBits_length _ _, fun _ _ => rfl⟩
theorem baseAfterClear (c : BitVec 12) : Statement (.baseAfterClear c) := by
  intro k
  refine ⟨codeBits_length _ _, fun hk hw => ?_⟩
  simp only [CodeCtx.ok, Bool.and_eq_true, decide_eq_true_eq] at hk
  simp only [Instr.wfIn, CodeCtx.clear, Bool.and_eq_true, decide_eq_true_eq] at hw
  have hc : c.toNat < 2 ^ k.mcs := of_decide_eq_true hw.1.2
  have : 2 ^ k.mcs ≤ 2 ^ 8 := Nat.pow_le_pow_right (by simp) (by omega)
  simp only [Instr.wf, decide_eq_true_eq]
  exact lt_of_lt_of_le hc this
theorem eoi : Statement .eoi := fun _ => ⟨codeBits_length _ _, fun _ _ => rfl⟩
theorem clear : Statement .clear := fun _ => ⟨codeBits_length _ _, fun _ _ => rfl⟩
theorem known (c : BitVec 12) : Statement (.known c) := fun _ => ⟨codeBits_length _ _, fun _ _ => rfl⟩
theorem kwkwk : Statement .kwkwk := fun _ => ⟨codeBits_length _ _, fun _ _ => rfl⟩

end Sys2Proof.Laws.EncodedLength
end

