-- ==== Sys2Proof/Laws/Run.lean ====
section
/-! SUPPORT. Runs of the core alone, taken apart and put together, and what the host's accesses leave alone. -/

namespace Sys2Proof.Machine

/-- A run of a command that has ended stays where it is. -/
theorem coreRun_none (k : Nat) {s : State} (h : s.pending = .none) : coreRun k s = .next s := by
  cases k <;> simp [coreRun, h]

/-- A run starts with its first step. -/
theorem coreRun_succ (k : Nat) {s t : State} (hp : s.pending ≠ .none) (h : coreStep s = .next t) :
    coreRun (k + 1) s = coreRun k t := by
  simp [coreRun, hp, h]

/-- A run goes on from where a shorter one came to. -/
theorem coreRun_add (k j : Nat) (s t : State) (h : coreRun k s = .next t) :
    coreRun (k + j) s = coreRun j t := by
  induction k generalizing s with
  | zero => simp only [coreRun, Host.Outcome.next.injEq] at h; subst h; simp
  | succ k ih =>
    rw [Nat.succ_add]
    simp only [coreRun] at h ⊢
    by_cases hp : s.pending = .none
    · simp only [hp, if_true, Host.Outcome.next.injEq] at h ⊢
      subst h
      exact (coreRun_none j hp).symm
    · simp only [hp, if_false] at h ⊢
      cases hs : coreStep s with
      | next u => simp only [hs] at h ⊢; exact ih _ h
      | fault f => simp [hs] at h
      | refused r => simp [hs] at h

/-- More steps change nothing once the command has ended. -/
theorem coreRun_mono {k j : Nat} {s t : State} (h : coreRun k s = .next t) (hp : t.pending = .none)
    (hj : k ≤ j) : coreRun j s = .next t := by
  obtain ⟨d, rfl⟩ := Nat.exists_eq_add_of_le hj
  rw [coreRun_add k d s t h, coreRun_none _ hp]

/-- What each instruction keeps, a run keeps. -/
theorem coreRun_keeps {P : State → Prop}
    (hP : ∀ s t, P s → s.pending ≠ .none → coreStep s = .next t → P t) (k : Nat) {s t : State} (hs : P s)
    (h : coreRun k s = .next t) : P t := by
  induction k generalizing s with
  | zero => simp only [coreRun, Host.Outcome.next.injEq] at h; exact h ▸ hs
  | succ k ih =>
    simp only [coreRun] at h
    by_cases hp : s.pending = .none
    · simp only [hp, if_true, Host.Outcome.next.injEq] at h; exact h ▸ hs
    · simp only [hp, if_false] at h
      cases hu : coreStep s with
      | next u => simp only [hu] at h; exact ih (hP s u hs hp hu) h
      | fault f => simp [hu] at h
      | refused r => simp [hu] at h

/-- Where no instruction stops the machine, no run does. -/
theorem coreRun_next {P : State → Prop}
    (hP : ∀ s, P s → s.pending ≠ .none → ∃ t, coreStep s = .next t ∧ P t) (k : Nat) {s : State} (hs : P s) :
    ∃ t, coreRun k s = .next t ∧ P t := by
  induction k generalizing s with
  | zero => exact ⟨s, rfl, hs⟩
  | succ k ih =>
    by_cases hp : s.pending = .none
    · exact ⟨s, coreRun_none _ hp, hs⟩
    · obtain ⟨u, hu, hPu⟩ := hP s hs hp
      rw [coreRun_succ k hp hu]
      exact ih hPu

/-- What each instruction and the taking of a pace keep, a core step keeps. -/
theorem coreTurn_keeps {P : State → Prop} (hpace : ∀ s, P s → P s.popPace)
    (hP : ∀ s t, P s → s.pending ≠ .none → coreStep s = .next t → P t) {s t : State} (hs : P s)
    (h : coreTurn s = .next t) : P t := coreRun_keeps hP _ (hpace s hs) h

/-- At pace 1 a core step runs one instruction. -/
theorem coreTurn_one {s : State} (hp : s.pending ≠ .none) (h : s.pace = 1) :
    coreTurn s = coreStep s.popPace := by
  rw [coreTurn, h, coreRun]
  simp only [State.popPace_pending, hp, if_false]
  cases coreStep s.popPace <;> rfl

/-- At pace 0 a core step shows nothing. -/
theorem coreTurn_zero {s : State} (h : s.pace = 0) : coreTurn s = .next s.popPace := by
  rw [coreTurn, h, coreRun]

/-- Core steps after the command has ended stay where they are. -/
theorem coreTurns_none (n : Nat) {s : State} (h : s.pending = .none) : coreTurns n s = .next s := by
  cases n <;> simp [coreTurns, h]

/-- A row of core steps starts with its first. -/
theorem coreTurns_succ (n : Nat) {s t : State} (hp : s.pending ≠ .none) (h : coreTurn s = .next t) :
    coreTurns (n + 1) s = coreTurns n t := by
  simp [coreTurns, hp, h]

/-- The pace of a command that has a legal word or is under way. -/
theorem State.pace_legal {s : State} (h : s.pending.illegal = false) : s.pace = s.env.paces.headD 1 := by
  simp [State.pace, h]

/-- Every register is found at its offset (10_state.md, register map). -/
@[simp] theorem regAt_offset (r : Reg) : regAt r.offset = some r := by cases r <;> decide

/-- A host read leaves everything but the surroundings. -/
theorem State.hostRead_env (s : State) (a : BusAccess) :
    s.hostRead a = { s with env := (s.hostRead a).env } := by
  unfold State.hostRead; split <;> rfl

/-- A register write leaves the memories, the capacities and, but for the holdings an acceptance keeps aside,
the surroundings. -/
theorem State.writeRegs_frame (s : State) (offset : Nat) (v : Word) :
    (s.writeRegs offset v).mem = s.mem ∧ (s.writeRegs offset v).caps = s.caps ∧
      { (s.writeRegs offset v).env with shown := s.env.shown } = s.env := by
  unfold State.writeRegs
  split
  · unfold State.issue
    split
    · exact ⟨rfl, rfl, rfl⟩
    · split <;> exact ⟨rfl, rfl, rfl⟩
  · rename_i r _ _
    cases r <;> exact ⟨rfl, rfl, rfl⟩
  · exact ⟨rfl, rfl, rfl⟩

end Sys2Proof.Machine
end

