-- ==== Sys2Proof/Machine/HostProgram.lean ====
section
/-! DEFINITION. The host program notation (30_encoding.md R107, R108): each line as the events it stands for. -/

namespace Sys2Proof.Machine

/-- One line of a host program (30_encoding.md R107, R108). -/
inductive HostLine where
  /-- `WR <REG>, <value>` -/
  | wr (r : Reg) (v : Word)
  /-- `RD <REG>` -/
  | rd (r : Reg)
  /-- `WB <SPACE>[<off>], <byte>` -/
  | wb (space : Space) (off : Nat) (v : Byte)
  /-- `RB <SPACE>[<off>]` -/
  | rb (space : Space) (off : Nat)
  /-- `CMD <MNEMONIC>`, by its command word -/
  | cmd (v : Word)
  /-- `WAIT` -/
  | wait
  /-- `RUN <MNEMONIC>`, by its command word -/
  | run (v : Word)
  /-- `LOAD <SPACE>[<off>], b0, ..., bk` -/
  | load (space : Space) (off : Nat) (bs : List Byte)
  /-- `READSNAP` of a document of `pixels = DOC_W x DOC_H` -/
  | readSnap (pixels : Nat)
  deriving DecidableEq, Repr

/-- A register access as an event. -/
def regEvent (r : Reg) (op : BusOp) : HostEvent :=
  .access { space := .regs, offset := r.offset, bytes := 4, op := op }

/-- A byte access as an event. -/
def byteEvent (space : Space) (off : Nat) (op : BusOp) : HostEvent :=
  .access { space := space, offset := off, bytes := 1, op := op }

/-- The events of a line (30_encoding.md R107, R108). -/
def HostLine.events : HostLine → List HostEvent
  | .wr r v => [regEvent r (.write v)]
  | .rd r => [regEvent r .read]
  | .wb space off v => [byteEvent space off (.write (word v.toNat))]
  | .rb space off => [byteEvent space off .read]
  | .cmd v => [regEvent .cmd (.write v)]
  | .wait => [.wait]
  | .run v => [regEvent .cmd (.write v), .wait]
  | .load space off bs => (placed off bs).map fun p => byteEvent space p.1 (.write (word p.2.toNat))
  | .readSnap pixels =>
    (List.range (4 * pixels)).map (fun a => byteEvent .snap a .read) ++ [regEvent .snapDelay .read]

/-- A host program given to the machine (log 3). -/
def State.withProgram (s : State) (ls : List HostLine) : State :=
  { s with env := { s.env with host := ls.flatMap HostLine.events } }

end Sys2Proof.Machine
end

