-- ==== Sys2Proof/Tests/Slice0.lean ====
section
/-! SUPPORT. Small tests whose expected results come from the spec's encodings and its vectors
(95_test_vectors.md, named V-… below), and for every statement with hypotheses a state and operands that meet
them. -/

namespace Sys2Proof.Tests

open Sys2Proof Sys2Proof.Machine

/-! ## Well-formedness: each check refuses an ill-formed term -/

/-- A running decode's context, with minimum code size 2. -/
def at2 (phase : Phase) (width next : Nat) : CodeCtx := { phase := phase, mcs := 2, width := width, next := next }

theorem test_wf_refuses : Instr.wf (.sbData 0) = false ∧ Instr.wf (.baseAfterClear 256) = false := by decide

theorem test_wfIn_refuses_phase :
    Instr.wfIn (at2 .normal 3 6) .clearFirst = false ∧
    Instr.wfIn (at2 .normal 3 6) (.baseAfterClear 1) = false ∧
    Instr.wfIn (at2 .afterClear 3 6) .eoi = false ∧ Instr.wfIn (at2 .afterClear 3 6) .clear = false ∧
    Instr.wfIn (at2 .expectClear 3 6) (.known 1) = false ∧ Instr.wfIn (at2 .done 3 6) .kwkwk = false := by
  decide

theorem test_wfIn_refuses_code :
    Instr.wfIn (at2 .normal 3 6) (.sbData 0) = false ∧
    Instr.wfIn (at2 .afterClear 3 6) (.baseAfterClear 4) = false ∧
    Instr.wfIn (at2 .normal 3 7) (.known 7) = false ∧ Instr.wfIn (at2 .normal 3 7) (.known 4) = false ∧
    Instr.wfIn (at2 .normal 3 7) (.known 5) = false ∧ Instr.wfIn (at2 .normal 12 4096) .kwkwk = false ∧
    Instr.wfIn (at2 .normal 12 5) .kwkwk = false := by decide

theorem test_wfIn_refuses_width :
    Instr.wfIn (at2 .expectClear 2 6) .clearFirst = false ∧ Instr.wfIn (at2 .normal 2 6) .clear = false ∧
    Instr.wfIn (at2 .normal 2 6) .eoi = false ∧ Instr.wfIn (at2 .normal 3 9) (.known 8) = false ∧
    Instr.wfIn (at2 .normal 3 8) .kwkwk = false ∧
    Instr.wfIn (at2 .afterClear 1 6) (.baseAfterClear 3) = false := by decide

theorem test_ctx_refuses :
    CodeCtx.ok ⟨.normal, 0, 3, 6⟩ = false ∧ CodeCtx.ok ⟨.normal, 9, 10, 514⟩ = false ∧
    CodeCtx.ok ⟨.normal, 2, 2, 4⟩ = false ∧ CodeCtx.ok ⟨.normal, 2, 13, 6⟩ = false ∧
    CodeCtx.ok ⟨.normal, 2, 3, 5⟩ = false ∧ CodeCtx.ok ⟨.normal, 2, 12, 4097⟩ = false ∧
    CodeCtx.ok ⟨.normal, 2, 3, 9⟩ = false := by decide

/-! ## Decoding, from encodings written out -/

/-- 30_encoding.md R92. -/
theorem test_decode_commands :
    decode (at2 .idle 0 0) (.cmd32 0b00000000000000000000000000000000) = .ok .nop ∧
    decode (at2 .idle 0 0) (.cmd32 0b00000000000000000000000000000001) = .ok .softReset ∧
    decode (at2 .idle 0 0) (.cmd32 0b00000000000000000000000000000010) = .ok .beginDoc ∧
    decode (at2 .idle 0 0) (.cmd32 0b00000000000000000000000000000011) = .ok .assemble ∧
    decode (at2 .idle 0 0) (.cmd32 0b00000000000000000000000000000100) = .ok .lzwDecode ∧
    decode (at2 .idle 0 0) (.cmd32 0b00000000000000000000000000000101) = .ok .compose ∧
    decode (at2 .idle 0 0) (.cmd32 0b00000000000000000000000000000110) = .ok .image ∧
    decode (at2 .idle 0 0) (.cmd32 0b00000000000000000000000000000111) = .ok .endDoc := by decide

/-- 30_encoding.md R93: no opcode, and a reserved bit beside a legal one (V-CTL-4 to V-CTL-6). -/
theorem test_decode_bad_commands :
    decodeCommand 0x00000008 = .error (.badCommand 0x00000008) ∧
    decodeCommand 0x00000101 = .error (.badCommand 0x00000101) ∧
    decodeCommand 0xFFFFFFFF = .error (.badCommand 0xFFFFFFFF) := by decide

/-- 30_encoding.md R98. -/
theorem test_decode_lengths :
    decode (at2 .idle 0 0) (.sb8 0b00000000) = .ok .sbTerm ∧
    decode (at2 .idle 0 0) (.sb8 0b00000001) = .ok (.sbData 1) ∧
    decode (at2 .idle 0 0) (.sb8 0b11111111) = .ok (.sbData 255) := by decide

/-- 30_encoding.md R99, R100, first stream bit first. Codes 4, 3, 5, 4, 2 and 6 of three bits. -/
theorem test_decode_codes :
    decode (at2 .expectClear 3 6) (.lzwc [false, false, true]) = .ok .clearFirst ∧
    decode (at2 .afterClear 3 6) (.lzwc [true, true, false]) = .ok (.baseAfterClear 3) ∧
    decode (at2 .normal 3 6) (.lzwc [true, false, true]) = .ok .eoi ∧
    decode (at2 .normal 3 6) (.lzwc [false, false, true]) = .ok .clear ∧
    decode (at2 .normal 3 6) (.lzwc [false, true, false]) = .ok (.known 2) ∧
    decode (at2 .normal 3 6) (.lzwc [false, true, true]) = .ok .kwkwk := by decide

/-- 30_encoding.md R100, R101: the codes that spell nothing. -/
theorem test_decode_bad_codes :
    decode (at2 .expectClear 3 6) (.lzwc [false, false, false]) = .error (.firstNotClear 0) ∧
    decode (at2 .afterClear 3 6) (.lzwc [true, false, true]) = .error (.afterClearNotBase 5) ∧
    decode (at2 .normal 3 6) (.lzwc [true, true, true]) = .error (.codeBeyondNext 7) ∧
    decode (at2 .normal 3 6) (.lzwc [true, false]) = .error (.wrongWidth 2) := by decide

/-! ## Small states -/

/-- The answer is a next state with a property. -/
def nextIs (r : Res) (p : State → Bool) : Bool :=
  match r with
  | .next t => p t
  | .fault _ => false
  | .refused _ => false

theorem nextIs_elim {r : Res} {p : State → Bool} (h : nextIs r p = true) :
    ∃ t, r = .next t ∧ p t = true := by
  cases r with
  | next t => exact ⟨t, rfl, h⟩
  | fault f => cases h
  | refused f => cases h

/-- A command under way. -/
def running (p : Pending) (s : State) : State :=
  { s with pending := p, status := { s.status with busy := true } }

/-- SRC holding `bs` from offset 0, all of them within SRC_LEN. -/
def withSrc (bs : List Byte) (s : State) : State :=
  { s with op := { s.op with srcLen := word bs.length } }.storeSrc (placed 0 bs)

/-- A decode with MCS 2 under way: `cbuf` at the bit offset `pos`, `idx` decoded so far. -/
def mid (phase : Phase) (width next prev exp : Nat) (idx cbuf : List Byte) (pos : Nat) : State :=
  let s := running (.code false) State.reset
  ({ s with
    status := { s.status with cbufValid := true }, cbufLen := word cbuf.length,
    idxLen := word idx.length, brPos := word pos,
    lzw := { mcsL := 2, width := BitVec.ofNat 4 width, next := BitVec.ofNat 13 next,
             prev := BitVec.ofNat 12 prev, phase := phase, expLen := word exp } }.storeCbuf
    (placed 0 cbuf)).storeIdx (placed 0 idx)

/-- A document `w x h` open, with a frame at (l, u) whose indices are decoded, under the colour table of
95_test_vectors.md L2.4. -/
def framed (w h l u fw fh : Nat) (c : FrmCtrl) (idx : List Byte) : State :=
  let s := running (.word 0x05) State.reset
  ({ s with
    status := { s.status with docOpen := true, idxValid := true },
    docSize := ⟨BitVec.ofNat 16 w, BitVec.ofNat 16 h⟩, idxLen := word idx.length,
    op := { s.op with frmPos := ⟨BitVec.ofNat 16 l, BitVec.ofNat 16 u⟩,
                      frmSize := ⟨BitVec.ofNat 16 fw, BitVec.ofNat 16 fh⟩, frmCtrl := c } }.storeIdx
    (placed 0 idx)).storeCt (placed 0 [0, 0, 0, 0xFF, 0, 0, 0, 0xFF, 0, 0, 0, 0xFF])

def pixK : Pixel := ⟨0, 0, 0, 0xFF⟩
def pixR : Pixel := ⟨0xFF, 0, 0, 0xFF⟩
def pixG : Pixel := ⟨0, 0xFF, 0, 0xFF⟩
def pixB : Pixel := ⟨0, 0, 0xFF, 0xFF⟩
def pixT : Pixel := ⟨0, 0, 0, 0⟩

/-- The state after an error entry that named this. -/
def failedWith (code info aux : Word) (t : State) : Bool :=
  t.readRegs 0x08 == 0x004 && t.readRegs 0x10 == code && t.readRegs 0x14 == info && t.readRegs 0x18 == aux

/-- `s` with its one host access made in the next step. -/
def accessing (space : Space) (offset : Nat) (op : BusOp) (s : State) : State :=
  { s with env := { s.env with
      turns := [.host],
      host := [.access { space := space, offset := offset,
                         bytes := if space = .regs then 4 else 1, op := op }] } }

/-! ## One step of each instruction -/

/-- V-CTL-1, V-CTL-2. -/
theorem test_nop :
    nextIs (step (State.reset.withFetchWord 32 0x00)) (fun t => t.readRegs 0x08 == 0x002) = true ∧
    nextIs (step ({ State.reset with irqEn := true }.withFetchWord 32 0x00))
      (fun t => t.readRegs 0x08 == 0x102 && t.irq) = true := by decide

/-- V-CTL-9, V-CTL-18: also the sticky WBUSY is cleared and SRC kept. -/
theorem test_soft_reset :
    nextIs (step (({ (withSrc [0x28] State.reset) with status := { Status.reset with wbusy := true } }.errorEntry
      .badCmd 8 0).withFetchWord 32 0x01))
      (fun t => t.readRegs 0x08 == 0 && t.readRegs 0x10 == 0 && t.readRegs 0x14 == 0 &&
        t.readRegs 0x18 == 0 && t.readRegs 0x20 == 0 && t.srcAt 0 == 0x28) = true := by decide

/-- V-CMP-1. -/
theorem test_begin_doc :
    nextIs (step ({ State.reset with op := { Operands.reset with canvasSize := ⟨2, 2⟩ }, frameCount := 9 }
      |>.withFetchWord 32 0x02))
      (fun t => t.readRegs 0x08 == 0x00A && t.readRegs 0x54 == 0x00020002 && t.readRegs 0x4C == 0) = true := by
  decide

/-- V-CMP-20 with CANVAS_CAP = 3. -/
theorem test_begin_doc_too_large :
    nextIs (step ({ State.reset with op := { Operands.reset with canvasSize := ⟨2, 2⟩ },
                                     caps := { Caps.reset with canvas := 3 } }.withFetchWord 32 0x02))
      (failedWith 0x33 4 3) = true := by decide

/-- V-SBA-10 with SRC_CAP = 16: CBUF_LEN keeps its value. -/
theorem test_assemble_source_too_long :
    nextIs (step ({ State.reset with op := { Operands.reset with srcLen := 17 }, cbufLen := 5,
                                     caps := { Caps.reset with src := 16 } }.withFetchWord 32 0x03))
      (fun t => failedWith 0x30 17 16 t && t.readRegs 0x44 == 5) = true := by decide

/-- V-SBA-12: CBUF restarts with each ASSEMBLE (40_subblock.md R122). -/
theorem test_assemble_restarts :
    nextIs (step ({ (withSrc [1, 0xAA, 0, 1, 0xBB, 0] State.reset) with cbufLen := 1, srcPtr := 3 }.withFetchWord
      32 0x03))
      (fun t => t.readRegs 0x44 == 0 && t.readRegs 0x24 == 3 && t.status.busy) = true := by decide

/-- V-LZW-20, V-LZW-18: the checks in order. -/
theorem test_lzw_decode_checks :
    nextIs (step ({ State.reset with op := { Operands.reset with lzwMcs := 2 } }.withFetchWord 32 0x04))
      (failedWith 0x02 0x04 3) = true ∧
    nextIs (step ({ State.reset with op := { Operands.reset with lzwMcs := 9 },
                                     status := { Status.reset with cbufValid := true } }.withFetchWord 32 0x04))
      (failedWith 0x03 9 0) = true := by decide

/-- 42_lzw.md R152: LZW_STATE before the first code of V-LZW-4. -/
theorem test_lzw_decode_start :
    nextIs (step ({ State.reset with op := { Operands.reset with lzwMcs := 2, frmSize := ⟨2, 2⟩ }, brPos := 7,
                                     status := { Status.reset with cbufValid := true } }.withFetchWord 32 0x04))
      (fun t => t.readRegs 0x58 == 0x00020063 && t.readRegs 0x5C == 0 && t.readRegs 0x48 == 0 &&
        t.lzw.expLen == 4) = true := by decide

/-- V-CMP-3: the interlaced rows of a 1 x 5 frame. -/
theorem test_compose_interlaced :
    nextIs (step (framed 1 5 0 0 1 5 ⟨true, false, 0, 1⟩ [0, 1, 2, 3, 0]))
      (fun t => (List.range 5).map t.snapAt == [pixK, pixB, pixG, pixK, pixR] &&
        t.readRegs 0x08 == 0x04A && t.readRegs 0x4C == 1) = true := by decide

/-- V-CMP-17: RestoreBackground clears the rectangle only, after the snapshot. -/
theorem test_compose_restore_background :
    nextIs (step ((framed 3 1 1 0 1 1 ⟨false, false, 2, 1⟩ [3]).storeCanvas (placed 0 [pixR, pixR, pixR])))
      (fun t => (List.range 3).map t.snapAt == [pixR, pixB, pixR] &&
        (List.range 3).map t.canvasAt == [pixR, pixT, pixR]) = true := by decide

/-- V-CTL-13. -/
theorem test_image_needs_document :
    nextIs (step ({ State.reset with srcPtr := 4 }.withFetchWord 32 0x06))
      (fun t => failedWith 0x02 0x06 1 t && t.readRegs 0x24 == 4) = true := by decide

/-- P1, line 15. -/
theorem test_end_doc :
    nextIs (step ({ State.reset with status := { Status.reset with docOpen := true, cbufValid := true,
                                                                   snapValid := true } }.withFetchWord 32 0x07))
      (fun t => t.readRegs 0x08 == 0x052) = true := by decide

/-- V-SBA-2. -/
theorem test_sb_term :
    nextIs (step (State.reset.withFetchWord 8 0x00))
      (fun t => t.readRegs 0x08 == 0x012 && t.readRegs 0x24 == 1 && t.readRegs 0x44 == 0) = true := by decide

/-- V-SBA-1, its first sub-block. -/
theorem test_sb_data :
    nextIs (step (running (.subBlock false) (withSrc [2, 0xAA, 0xBB, 1, 0xCC, 0] State.reset)))
      (fun t => t.readRegs 0x44 == 2 && t.readRegs 0x24 == 3 && t.cbufAt 0 == 0xAA && t.cbufAt 1 == 0xBB) =
      true := by decide

/-- V-SBA-4, V-SBA-8: overrun before capacity. -/
theorem test_sb_data_overrun :
    nextIs (step (running (.subBlock false) (withSrc [3, 0xAA, 0xBB] { State.reset with
      caps := { Caps.reset with cbuf := 2 } }))) (failedWith 0x10 0 3) = true ∧
    nextIs (step (running (.subBlock false) { (withSrc [2, 0xAA, 0xBB, 1, 0xCC, 0] { State.reset with
      caps := { Caps.reset with cbuf := 2 } }) with srcPtr := 3, cbufLen := 2 }))
      (failedWith 0x31 3 2) = true := by decide

/-- V-LZW-1, its first code; V-LZW-4. -/
theorem test_clear_first :
    nextIs (step (mid .expectClear 3 6 0 4 [] [0x44, 0x02, 0x05] 0))
      (fun t => t.readRegs 0x58 == 0x00040063 && t.readRegs 0x5C == 3) = true ∧
    nextIs (step (mid .expectClear 3 6 0 1 [] [0x28] 0))
      (fun t => failedWith 0x20 0 0 t && t.readRegs 0x5C == 3) = true := by decide

/-- V-LZW-3, its second code. -/
theorem test_base_after_clear :
    nextIs (step (mid .afterClear 3 6 0 3 [] [0x4C, 0xA8, 0x02] 3))
      (fun t => t.readRegs 0x58 == 0x00160063 && t.readRegs 0x48 == 1 && t.idxAt 0 == 1) = true := by decide

/-- V-LZW-3, its last code; V-LZW-7. -/
theorem test_eoi :
    nextIs (step (mid .normal 3 6 2 3 [1, 1, 2] [0x4C, 0xA8, 0x02] 15))
      (fun t => t.readRegs 0x58 == 0x00280063 && t.readRegs 0x08 == 0x032 && t.readRegs 0x5C == 18) = true ∧
    nextIs (step (mid .normal 3 6 0 2 [0] [0x44, 0x01] 6))
      (fun t => failedWith 0x14 1 2 t && t.readRegs 0x58 == 0x00060063) = true := by decide

/-- V-LZW-14, its 12-bit clear code at a full dictionary (here at bit 0): 42_lzw.md R162. -/
theorem test_clear :
    nextIs (step (mid .normal 12 4096 0 9 [0] [0x04, 0x00] 0))
      (fun t => t.readRegs 0x58 == 0x00040063 && t.readRegs 0x5C == 12 && t.readRegs 0x48 == 1) = true := by
  decide

/-- V-LZW-1, the fourth code: `DICT[7] = {1, 1}`, and the width grows to 4. -/
theorem test_known_grows :
    nextIs (step (mid .normal 3 7 1 4 [0, 1] [0x44, 0x02, 0x05] 9))
      (fun t => t.dictAt 7 == ⟨1, 1⟩ && t.readRegs 0x58 == 0x00160084 && t.idxAt 2 == 1 &&
        t.readRegs 0x48 == 3) = true := by decide

/-- V-LZW-13, its last code (here at bit 0): nothing is written. -/
theorem test_known_full_dictionary :
    nextIs (step (mid .normal 12 4096 0 9 [0] [0x00, 0x00] 0))
      (fun t => failedWith 0x23 0 0 t && t.readRegs 0x58 == 0x0007000C && t.readRegs 0x48 == 1) = true := by
  decide

/-- V-LZW-2, its third code; V-LZW-15, code 7. -/
theorem test_kwkwk :
    nextIs (step (mid .normal 3 6 0 3 [0] [0x84, 0x0B] 6))
      (fun t => t.dictAt 6 == ⟨0, 0⟩ && t.readRegs 0x58 == 0x00660073 && t.readRegs 0x48 == 3) = true ∧
    nextIs (step (mid .normal 3 7 6 10 [0, 0, 0] [0x84, 0x8F, 0x05] 9))
      (fun t => t.dictAt 7 == ⟨0, 6⟩ && t.readRegs 0x58 == 0x00760084 && t.readRegs 0x48 == 6) = true := by
  decide

/-! ## Core steps of any size, and what STATUS shows meanwhile -/

/-- 00_scope.md R10, 44_control.md R232: a core step may do none of the command or all of it. V-SBA-1. -/
theorem test_paces :
    let s := running (.word 0x03) (withSrc [2, 0xAA, 0xBB, 1, 0xCC, 0] State.reset)
    nextIs (step (s.withPaces [0])) (fun t => t.readRegs 0x08 == 0x001 && t.pending == .word 0x03) = true ∧
    nextIs (step (s.withPaces [9])) (fun t => t.readRegs 0x08 == 0x012 && t.readRegs 0x44 == 3 &&
      t.readRegs 0x24 == 6) = true := by decide

/-- 20_memory.md R77: ASSEMBLE clears CBUF_VALID when it starts (10_state.md R29), and STATUS still shows it as
it was at the acceptance; then it fails for want of a terminator, and STATUS shows the error entry (V-SBA-3). -/
theorem test_status_until_the_end :
    let s := { State.reset with status := { Status.reset with cbufValid := true } }
    nextIs (step (s.withFetchWord 32 0x03))
      (fun t => t.readRegs 0x08 == 0x011 && !t.status.cbufValid) = true ∧
    nextIs (coreRun 2 (s.withFetchWord 32 0x03)) (failedWith 0x10 0 0x100) = true := by decide

/-! ## The host and the bit reader -/

/-- V-CTL-19. -/
theorem test_reads :
    nextIs (step (accessing .regs 0x00 .read State.reset)) (fun t => t.env.reads == [0x4D474946]) = true ∧
    nextIs (step (accessing .regs 0x04 .read State.reset)) (fun t => t.env.reads == [0]) = true ∧
    nextIs (step (accessing .regs 0x1C .read State.reset)) (fun t => t.env.reads == [0]) = true := by decide

/-- V-CTL-16, the write that lands while BUSY = 1. -/
theorem test_dropped_write :
    nextIs (step (accessing .regs 0x24 (.write 5) (running (.subBlock false) (withSrc [0] State.reset))))
      (fun t => t.readRegs 0x24 == 0 && t.readRegs 0x08 == 0x081) = true := by decide

/-- V-CTL-7, V-CTL-10: in the error state CMD ignores a NOP and IRQ_EN takes its write. -/
theorem test_error_state_writes :
    nextIs (step (accessing .regs 0x04 (.write 0) (State.reset.errorEntry .badCmd 8 0)))
      (failedWith 0x01 8 0) = true ∧
    nextIs (step (accessing .regs 0x0C (.write 1) (State.reset.errorEntry .badCmd 8 0)))
      (fun t => t.readRegs 0x08 == 0x104) = true := by decide

/-- V-BR-5 and V-BR-6. -/
theorem test_take :
    (match (mid .normal 3 6 0 1 [] [0xB5, 0x3C, 0xFF] 6).take 12 with
      | .ok (c, t) => c == 3314 && t.readRegs 0x5C == 18
      | .error _ => false) = true ∧
    (match (mid .normal 3 6 0 1 [] [0xB5, 0x3C, 0xFF] 20).take 5 with
      | .ok _ => false
      | .error r => nextIs r (fun t => failedWith 0x11 20 5 t && t.readRegs 0x5C == 20)) = true := by decide

/-- 43_compositor.md R196. -/
theorem test_rowmap :
    (List.range 3).map (fun r => rowmap r 3) = [0, 2, 1] ∧
    (List.range 8).map (fun r => rowmap r 8) = [0, 4, 2, 6, 1, 3, 5, 7] := by decide

/-- A line of a host program stands for its events (30_encoding.md R107, R108). -/
theorem test_host_lines :
    HostLine.events (.run 6) =
      [.access { space := .regs, offset := 0x04, bytes := 4, op := .write 6 }, .wait] ∧
    HostLine.events (.load .ct 1 [7, 9]) =
      [.access { space := .ct, offset := 1, bytes := 1, op := .write 7 },
       .access { space := .ct, offset := 2, bytes := 1, op := .write 9 }] := by decide

/-! ## Witnesses: for each statement with hypotheses, states and operands that meet them, at the edges of
each clause -/

theorem witness_DecodeOfEncodeIsIdentity :
    Instr.wfIn (at2 .expectClear 3 6) .clearFirst = true ∧
    Instr.wfIn (at2 .afterClear 3 6) (.baseAfterClear 3) = true ∧
    Instr.wfIn (at2 .normal 3 6) .eoi = true ∧ Instr.wfIn (at2 .normal 3 6) .clear = true ∧
    Instr.wfIn (at2 .normal 3 7) (.known 6) = true ∧ Instr.wfIn (at2 .normal 3 7) (.known 0) = true ∧
    Instr.wfIn (at2 .normal 12 4095) .kwkwk = true ∧ Instr.wfIn (at2 .normal 3 6) .kwkwk = true ∧
    Instr.wfIn (at2 .idle 0 0) (.sbData 255) = true ∧ Instr.wfIn (at2 .idle 0 0) .image = true := by decide

theorem witness_EncodeOfDecodeIsIdentity :
    (at2 .normal 3 6).ok = true ∧ decode (at2 .normal 3 6) (.lzwc [true, true, false]) = .ok (.known 3) ∧
    (at2 .normal 12 4096).ok = true ∧ decode (at2 .normal 3 6) (.cmd32 7) = .ok .endDoc := by decide

theorem witness_CoreStepRunsTheFetchedInstruction :
    ((running (.word 0) State.reset).mover = some .core ∧ (running (.word 0) State.reset).env.paces = [] ∧
      ((running (.word 0) State.reset).withPaces [0]).pace = 0) ∧
    (let s := State.reset.withFetchWord 32 0x00
     s.mover = some .core ∧ s.pace = 1 ∧ s.pending = .word 0 ∧ decodeCommand 0 = .ok .nop) ∧
    (let s := State.reset.withFetchWord 8 0x00
     s.mover = some .core ∧ s.pace = 1 ∧ s.pending = .subBlock false ∧
       s.srcPtr.toNat < s.op.srcLen.toNat) ∧
    (let s := mid .normal 3 6 2 3 [1, 1, 2] [0x4C, 0xA8, 0x02] 15
     s.mover = some .core ∧ s.pace = 1 ∧ s.pending = .code false ∧
       s.brPos.toNat + s.lzw.width.toNat ≤ 8 * s.cbufLen.toNat ∧
       decodeCode s.lzw.ctx (bitsValue (s.bitsAhead s.lzw.width.toNat)) = .ok .eoi) := by decide

/-- A host with one read of STATUS to make, and these turns. -/
def reading (turns : List Agent) (s : State) : State :=
  { s with env := { s.env with turns := turns, host := [.access statusRead] } }

theorem witness_StepGivesTheTurnToAReadyAgent :
    (State.reset.pending = .none ∧ State.reset.env.host = []) ∧
    ((running (.word 0) State.reset).pending ≠ .none ∧ (running (.word 0) State.reset).env.host = []) ∧
    ((reading [] State.reset).pending = .none ∧ (reading [] State.reset).env.host ≠ []) ∧
    (let s := reading [.core] (running (.word 0) State.reset)
     s.pending ≠ .none ∧ s.env.host ≠ [] ∧ s.env.turns = .core :: []) ∧
    (let s := reading [.host] (running (.word 0) State.reset)
     s.pending ≠ .none ∧ s.env.host ≠ [] ∧ s.env.turns = .host :: []) := by decide

theorem witness_IllegalCommandWordRaisesBadCmd :
    (State.reset.withFetchWord 32 0x08).mover = some .core ∧
    (State.reset.withFetchWord 32 0x08).pending = .word 0x08 ∧
    ((0x08 : Word).extractLsb' 0 8).toNat ≥ 0x08 ∧
    (State.reset.withFetchWord 32 0x101).mover = some .core ∧
    (State.reset.withFetchWord 32 0x101).pending = .word 0x101 ∧
    ((0x101 : Word).extractLsb' 8 24).toNat ≠ 0 := by decide

/-- A list that draws `b` and then `a` for address `k`. -/
theorem lastDrawn_second {α : Type} (k : Nat) (b a : α) : lastDrawn [(k, b), (k, a)] k a :=
  ⟨[(k, b)], [], rfl, by simp⟩

/-- For each memory its last cell, drawn twice. -/
theorem witness_HardResetRestoresRegistersAndDrawsMemory :
    let c := State.reset.caps
    (65535 < c.src.toNat ∧ 65535 < c.cbuf.toNat ∧ 65535 < c.idx.toNat ∧ 65535 < c.canvas.toNat) ∧
    (∃ u, exec .softReset State.reset = .next u) ∧
    lastDrawn [(65535, (1 : Byte)), (65535, 7)] 65535 7 ∧ lastDrawn [(767, (1 : Byte)), (767, 7)] 767 7 ∧
    lastDrawn [(4095, (⟨1, 0⟩ : DictEntry)), (4095, ⟨7, 2⟩)] 4095 ⟨7, 2⟩ ∧
    lastDrawn [(65535, pixR), (65535, pixG)] 65535 pixG :=
  ⟨by decide, ⟨_, rfl⟩, lastDrawn_second _ _ _, lastDrawn_second _ _ _, lastDrawn_second _ _ _,
    lastDrawn_second _ _ _⟩

theorem witness_CommandAcceptance :
    (running (.word 0) State.reset).status.busy = true ∧
    ((State.reset.errorEntry .badCmd 8 0).status.busy = false ∧
      (State.reset.errorEntry .badCmd 8 0).status.err = true ∧ (0x101 : Word) ≠ 0x00000001) ∧
    (State.reset.status.busy = false ∧ State.reset.status.err = false) := by decide

theorem witness_WritesWhileBusyOnlySetWbusy :
    let a : BusAccess := { space := .regs, offset := 0xFC, bytes := 4, op := .write 5 }
    a.shapeOk = true ∧ a.inRegs = true ∧ a.op = .write 5 ∧
    (running (.word 0) State.reset).status.busy = true := by decide

theorem witness_ReadsHaveNoSideEffect :
    let r : BusAccess := { space := .regs, offset := Reg.capCanvas.offset, bytes := 4, op := .read }
    let b : BusAccess := { space := .snap, offset := 0, bytes := 1, op := .read }
    let x : BusAccess := { space := .regs, offset := 0xFC, bytes := 4, op := .read }
    x.shapeOk = true ∧ x.inRegs = true ∧ regAt x.offset = none ∧
    r.shapeOk = true ∧ r.inRegs = true ∧ b.shapeOk = true ∧ b.inRegs = true ∧ b.space = .snap ∧
    State.reset.status.busy = false ∧ { b with space := Space.src }.shapeOk = true ∧
    { b with space := Space.ct }.shapeOk = true := by decide

theorem witness_MisshapenAccessIsRefused :
    hostAccess { space := .regs, offset := 0x08, bytes := 1, op := .read } State.reset =
      .refused .accessShape ∧
    hostAccess { space := .regs, offset := 0x09, bytes := 4, op := .read } State.reset =
      .refused .accessShape ∧
    hostAccess { space := .snap, offset := 0, bytes := 4, op := .read } State.reset =
      .refused .accessShape := ⟨rfl, rfl, rfl⟩

theorem witness_RegisterWritesStoreTheirFields :
    State.reset.status.busy = false ∧ Reg.frmCtrl ≠ .cmd ∧ Reg.id.writeMask = none ∧
    Reg.all.Nodup ∧ Reg.all.length = 27 ∧
    regAt 0x1C = none ∧ regAt 0x70 = none ∧ regAt 0xFC = none ∧ regAt 0x6C = some .capCanvas ∧
    State.reset.status.err = false ∧ ((0x100 : Word).extractLsb' 8 24).toNat ≠ 0 ∧
    ({ space := .regs, offset := 2, bytes := 4, op := .read } : BusAccess).offset % 4 ≠ 0 := by decide

theorem witness_ByteWritesLandInSrcAndCt :
    State.reset.mem.wf = true ∧ State.reset.status.busy = false ∧
    State.reset.caps.src.toNat ≤ 65536 ∧ 65535 < State.reset.caps.src.toNat := by decide

theorem witness_SnapReadsPixelBytes :
    let s := framed 2 1 0 0 2 1 ⟨false, false, 0, 1⟩ [1, 2]
    1 < s.docSize.w.toNat ∧ 0 < s.docSize.h.toNat ∧ 4 * s.docSize.w.toNat * s.docSize.h.toNat ≤ 8 ∧
    State.reset.status.busy = false := by decide

/-- A state in which IMAGE's chain has ended: `image` under way with the terminator next. -/
def atTerminator (mcs : Byte) (size : Extent) : State :=
  let s := running (.subBlock true) (withSrc [0] State.reset)
  { s with status := { s.status with docOpen := true },
           op := { s.op with lzwMcs := mcs, frmSize := size } }

theorem witness_ImageRunsTheThreeBodies :
    State.reset.status.docOpen = false ∧
    (let s := framed 2 1 0 0 2 1 ⟨false, false, 0, 1⟩ []
     s.status.docOpen = true ∧ s.op.srcLen.toNat ≤ s.caps.src.toNat ∧
       { s.op with srcLen := 65537 }.srcLen.toNat > s.caps.src.toNat) ∧
    (let s := atTerminator 8 ⟨256, 256⟩
     s.pending = .subBlock true ∧ 1 ≤ s.op.lzwMcs.toNat ∧ s.op.lzwMcs.toNat ≤ 8 ∧
       s.op.frmSize.w.toNat * s.op.frmSize.h.toNat ≤ s.caps.idx.toNat) ∧
    (let s := atTerminator 9 ⟨256, 256⟩
     s.pending = .subBlock true ∧ ¬ (s.op.lzwMcs.toNat ≤ 8)) ∧
    (let s := { mid .normal 3 6 2 3 [1, 1, 2] [] 0 with pending := .code true }
     s.pending = .code true ∧ s.idxLen = s.lzw.expLen) := by decide

theorem witness_AssembleChecksThenStarts :
    { Operands.reset with srcLen := 65537 }.srcLen.toNat > State.reset.caps.src.toNat ∧
    { Operands.reset with srcLen := 65536 }.srcLen.toNat ≤ State.reset.caps.src.toNat := by decide

theorem witness_LengthByteStep :
    (let s := { State.reset.withFetchWord 8 0x00 with srcPtr := 1 }
     s.pending = .subBlock false ∧ s.srcPtr.toNat ≥ s.op.srcLen.toNat) ∧
    (let s := State.reset.withFetchWord 8 0x00
     s.pending = .subBlock false ∧ s.srcPtr.toNat < s.op.srcLen.toNat ∧ s.srcAt s.srcPtr.toNat = 0) ∧
    (let s := State.reset.withFetchWord 8 0x01
     s.pending = .subBlock false ∧ s.srcPtr.toNat < s.op.srcLen.toNat ∧ s.srcAt s.srcPtr.toNat ≠ 0) := by decide

theorem witness_SbTermCompletesAssemble : (State.reset.withFetchWord 8 0x00).pending.inImage = false := by
  decide

theorem witness_SbDataAppendsItsPayload :
    (let s := withSrc [2, 0xAA, 0xBB] { State.reset with caps := { Caps.reset with cbuf := 2 } }
     s.mem.wf = true ∧ s.srcPtr.toNat + 1 + (2 : Byte).toNat = s.op.srcLen.toNat ∧
       s.cbufLen.toNat + (2 : Byte).toNat = s.caps.cbuf.toNat) ∧
    (let s := withSrc [2, 0xAA, 0xBB] { State.reset with caps := { Caps.reset with cbuf := 1 } }
     s.mem.wf = true ∧ s.srcPtr.toNat + 1 + (2 : Byte).toNat ≤ s.op.srcLen.toNat ∧
       s.cbufLen.toNat + (2 : Byte).toNat > s.caps.cbuf.toNat ∧
       s.srcPtr.toNat + 1 + (3 : Byte).toNat > s.op.srcLen.toNat) := by decide

/-- V-SBA-1. -/
theorem witness_AssembleJoinsTheWholeChain :
    let s := running (.word 0x03) (withSrc [2, 0xAA, 0xBB, 1, 0xCC, 0] State.reset)
    s.mem.wf = true ∧ s.pending = .word 0x03 ∧ s.op.srcLen.toNat ≤ s.caps.src.toNat ∧
    s.chainAt (s.op.srcLen.toNat + 1) s.srcPtr.toNat = some ([0xAA, 0xBB, 0xCC], 6) ∧
    [0xAA, 0xBB, 0xCC].length ≤ s.caps.cbuf.toNat := by decide

theorem witness_TakeReadsTheLittleEndianField :
    let s := mid .normal 3 6 0 1 [] [0xB5, 0x3C, 0xFF] 12
    s.brPos.toNat + 12 ≤ 8 * s.cbufLen.toNat ∧ s.cbufLen.toNat ≤ 2 ^ 29 - 1 := by decide

/-- V-LZW-12. -/
theorem witness_ShortStreamRaisesBitOverrun :
    let s := mid .expectClear 3 6 0 1 [] [] 0
    s.pending = .code false ∧
    s.brPos.toNat + s.lzw.width.toNat > 8 * s.cbufLen.toNat := by decide

theorem witness_LzwDecodeChecksThenInitialises :
    State.reset.status.cbufValid = false ∧
    (atTerminator 0 ⟨1, 1⟩).op.lzwMcs.toNat = 0 ∧ (atTerminator 9 ⟨1, 1⟩).op.lzwMcs.toNat = 9 ∧
    (mid .normal 3 6 0 1 [] [] 0).status.cbufValid = true ∧
    (let s := { mid .normal 3 6 0 1 [] [] 0 with op := { Operands.reset with lzwMcs := 1, frmSize := ⟨257, 256⟩ } }
     s.status.cbufValid = true ∧ 1 ≤ s.op.lzwMcs.toNat ∧ s.op.lzwMcs.toNat ≤ 8 ∧
       s.op.frmSize.w.toNat * s.op.frmSize.h.toNat > s.caps.idx.toNat) ∧
    (let s := { mid .normal 3 6 0 1 [] [] 0 with op := { Operands.reset with lzwMcs := 8, frmSize := ⟨256, 256⟩ } }
     s.status.cbufValid = true ∧ 1 ≤ s.op.lzwMcs.toNat ∧ s.op.lzwMcs.toNat ≤ 8 ∧
       s.op.frmSize.w.toNat * s.op.frmSize.h.toNat ≤ s.caps.idx.toNat) := by decide

theorem witness_ClearCodesResetTheCodeSpace :
    let s := mid .normal 12 4096 0 9 [0] [] 0
    1 ≤ s.lzw.mcsL.toNat ∧ s.lzw.mcsL.toNat ≤ 8 := by decide

/-- V-LZW-4, V-LZW-6, V-LZW-5. -/
theorem witness_IllegalCodesRaiseTheirErrors :
    let ok : State → Bool := fun s => decide (s.pending = .code false) &&
      decide (s.brPos.toNat + s.lzw.width.toNat ≤ 8 * s.cbufLen.toNat) &&
      decide (s.cbufLen.toNat ≤ 2 ^ 29 - 1)
    let code : State → Nat := fun s => bitsValue (s.bitsAhead s.lzw.width.toNat)
    let s1 := mid .expectClear 3 6 0 1 [] [0x28] 0
    let s2 := mid .afterClear 3 6 0 1 [] [0x04] 0
    let s3 := mid .normal 3 6 0 4 [0] [0xC4, 0x01] 6
    ok s1 = true ∧ s1.lzw.phase = .expectClear ∧ code s1 ≠ 4 ∧
    ok s2 = true ∧ s2.lzw.phase = .afterClear ∧ code s2 = 4 ∧
    ok s3 = true ∧ s3.lzw.phase = .normal ∧ code s3 = s3.lzw.next.toNat + 1 ∧ code s3 ≠ 4 ∧ code s3 ≠ 5 := by
  decide

theorem witness_BaseAfterClearEmitsItsByte :
    let s := mid .afterClear 3 6 0 1 [] [] 0
    s.mem.wf = true ∧ (255 : BitVec 12).toNat < 256 ∧ s.idxLen.toNat + 1 = s.lzw.expLen.toNat ∧
    (mid .afterClear 3 6 0 1 [0] [] 0).mem.wf = true ∧
    (mid .afterClear 3 6 0 1 [0] [] 0).idxLen.toNat + 1 > (mid .afterClear 3 6 0 1 [0] [] 0).lzw.expLen.toNat := by
  decide

theorem witness_EoiCompletesAFullImage :
    (mid .normal 3 6 0 2 [0] [] 0).idxLen ≠ (mid .normal 3 6 0 2 [0] [] 0).lzw.expLen ∧
    (mid .normal 3 6 0 1 [0] [] 0).idxLen = (mid .normal 3 6 0 1 [0] [] 0).lzw.expLen ∧
    (mid .normal 3 6 0 1 [0] [] 0).pending.inImage = false ∧ (Pending.code true).inImage = true := by decide

/-- The entry 6 of V-LZW-1 in the dictionary: `{1, 0}`, the string 0, 1. -/
def oneEntry (exp : Nat) : State := (mid .normal 3 7 1 exp [0, 1] [0x44, 0x02, 0x05] 9).storeDict 6 ⟨1, 0⟩

theorem witness_KnownEmitsAndAddsAnEntry :
    (let s := mid .normal 12 4096 0 9 [0] [0x00, 0x00] 12
     s.mem.wf = true ∧ s.lzw.next.toNat = 4096 ∧ s.lzw.width.toNat ≤ s.brPos.toNat) ∧
    ((oneEntry 3).mem.wf = true ∧ (oneEntry 3).lzw.next.toNat < 4096 ∧
      (oneEntry 3).translate 6 = some [0, 1] ∧ (oneEntry 3).idxLen.toNat + 2 > (oneEntry 3).lzw.expLen.toNat) ∧
    ((oneEntry 4).mem.wf = true ∧ (oneEntry 4).lzw.next.toNat < 4096 ∧
      (oneEntry 4).translate 6 = some [0, 1] ∧
      (oneEntry 4).idxLen.toNat + 2 = (oneEntry 4).lzw.expLen.toNat) := by decide

theorem witness_KwkwkExtendsThePreviousString :
    (oneEntry 4).mem.wf = true ∧ (oneEntry 4).lzw.next.toNat < 4096 ∧
    (oneEntry 4).translate (oneEntry 4).lzw.prev.toNat = some [1] ∧
    (oneEntry 4).idxLen.toNat + 2 = (oneEntry 4).lzw.expLen.toNat ∧
    (oneEntry 3).translate (oneEntry 3).lzw.prev.toNat = some [1] ∧
    (oneEntry 3).idxLen.toNat + 2 > (oneEntry 3).lzw.expLen.toNat := by decide

theorem oneEntry_inv : LzwInv (oneEntry 4) where
  mcsLegal := by decide
  widthRange := by decide
  nextRange := by decide
  nextFits := by decide
  nextEdge := by decide
  chains := by
    intro e h1 h2
    have h3 : (oneEntry 4).eoiCode = 5 := by decide
    have h4 : (oneEntry 4).lzw.next.toNat = 7 := by decide
    obtain rfl : e = 6 := by omega
    decide
  phases := by decide
  fresh := by decide
  prevString := fun _ => ⟨by decide, by decide, by decide⟩
  counted := by decide
  indices := by decide
  cursor := by decide

theorem witness_LiveCodesTranslate :
    LzwInv (oneEntry 4) ∧ (oneEntry 4).stringCode 6 ∧ (oneEntry 4).eoiCode < 6 ∧
    (oneEntry 4).stringCode 3 ∧ 3 < (oneEntry 4).clearCode :=
  ⟨oneEntry_inv, ⟨by decide, by decide, by decide⟩, by decide, ⟨by decide, by decide, by decide⟩, by decide⟩

theorem witness_AddedEntryExtendsTheDictionary :
    LzwInv (oneEntry 4) ∧ (oneEntry 4).mem.wf = true ∧ (oneEntry 4).lzw.next.toNat < 4096 ∧
    (oneEntry 4).stringCode (6 : BitVec 12).toNat :=
  ⟨oneEntry_inv, by decide, by decide, ⟨by decide, by decide, by decide⟩⟩

theorem oneEntry_caps : (oneEntry 4).caps.ok := ⟨by decide, by decide, by decide, by decide, by decide⟩

theorem witness_CodeStepsKeepTheDecodeInvariant :
    LzwInv (oneEntry 4) ∧ (oneEntry 4).caps.ok ∧ (oneEntry 4).mem.wf = true ∧
    (oneEntry 4).cbufLen.toNat ≤ (oneEntry 4).caps.cbuf.toNat ∧ (oneEntry 4).pending = .code false ∧
    ∃ t, coreStep (oneEntry 4) = .next t ∧ t.pending = .code false := by
  obtain ⟨t, h1, h2⟩ := nextIs_elim (r := coreStep (oneEntry 4))
    (p := fun t => decide (t.pending = .code false)) (by decide)
  exact ⟨oneEntry_inv, oneEntry_caps, by decide, by decide, by decide, t, h1, by simpa using h2⟩

theorem witness_BeginDocOpensABlankCanvas :
    State.reset.mem.wf = true ∧
    (let o := { Operands.reset with canvasSize := ⟨256, 256⟩ }
     o.canvasSize.w.toNat * o.canvasSize.h.toNat ≤ State.reset.caps.canvas.toNat) ∧
    (let o := { Operands.reset with canvasSize := ⟨257, 256⟩ }
     o.canvasSize.w.toNat * o.canvasSize.h.toNat > State.reset.caps.canvas.toNat) := by decide

/-- In a frame of 10 rows (43_compositor.md R196) every pass has a row, and the last of each is 1, 0, 1, 4. -/
theorem witness_RowMapIsABijection :
    1 < (10 - 0 - 1) / 8 + 1 ∧ 0 < (10 - 4 - 1) / 8 + 1 ∧ 1 < (10 - 2 - 1) / 4 + 1 ∧
    4 < (10 - 1 - 1) / 2 + 1 ∧ (9 : Nat) < 10 := by decide

/-- V-CMP-18, V-CMP-19, V-CMP-9, V-CMP-7, V-CMP-8, V-CMP-10, V-CMP-11: each check's premise, at its edge. -/
theorem witness_ComposeChecksInOrder :
    State.reset.status.docOpen = false ∧
    (let s := (framed 4 4 3 3 2 2 ⟨false, false, 4, 1⟩ [])
     s.status.docOpen = true ∧ s.status.idxValid = true ∧ 3 < s.op.frmCtrl.disposal.toNat) ∧
    (let s := (framed 4 4 3 3 2 2 ⟨false, false, 3, 1⟩ [])
     s.op.frmCtrl.disposal.toNat ≤ 3 ∧ s.op.frmPos.left.toNat + s.op.frmSize.w.toNat > s.docSize.w.toNat) ∧
    (let s := (framed 4 4 2 3 2 1 ⟨false, false, 0, 1⟩ [1, 1])
     s.op.frmPos.left.toNat + s.op.frmSize.w.toNat ≤ s.docSize.w.toNat ∧
       s.op.frmPos.top.toNat + s.op.frmSize.h.toNat ≤ s.docSize.h.toNat ∧
       s.idxLen.toNat = s.op.frmSize.w.toNat * s.op.frmSize.h.toNat) ∧
    (let s := (framed 4 4 0 0 3 1 ⟨false, false, 0, 1⟩ [0, 0, 0, 0])
     s.idxLen.toNat ≠ s.op.frmSize.w.toNat * s.op.frmSize.h.toNat) ∧
    (let s := (framed 4 4 0 0 2 2 ⟨false, false, 0, 0⟩ [0, 1, 2, 1])
     2 < s.idxLen.toNat ∧ 2 ^ (s.op.frmCtrl.ctSize.toNat + 1) = (s.idxAt 2).toNat ∧
       ∀ j, j < 2 → (s.idxAt j).toNat < 2 ^ (s.op.frmCtrl.ctSize.toNat + 1)) := by decide

/-- A 3 x 1 document whose middle pixel is the frame, disposed of by method `c`. -/
def oneFrame (c : BitVec 3) : State := framed 3 1 1 0 1 1 ⟨false, false, c, 1⟩ [3]

theorem oneFrame_ready :
    ComposeReady (oneFrame 0) .none ∧ ComposeReady (oneFrame 1) .doNotDispose ∧
    ComposeReady (oneFrame 2) .restoreBackground ∧ ComposeReady (oneFrame 3) .restorePrevious := by
  refine ⟨⟨?_, ?_, ?_, ?_, ?_, ?_, ?_⟩, ⟨?_, ?_, ?_, ?_, ?_, ?_, ?_⟩, ⟨?_, ?_, ?_, ?_, ?_, ?_, ?_⟩,
    ⟨?_, ?_, ?_, ?_, ?_, ?_, ?_⟩⟩ <;> decide

/-- Also a pixel inside the frame and one outside it. -/
theorem witness_ComposeSnapshotShowsTheFrame :
    (oneFrame 0).mem.wf = true ∧ ComposeReady (oneFrame 0) .none ∧
    0 < (oneFrame 0).op.frmSize.w.toNat ∧ 0 < (oneFrame 0).op.frmSize.h.toNat ∧
    0 < (oneFrame 0).docSize.w.toNat * (oneFrame 0).docSize.h.toNat ∧ ¬ (oneFrame 0).inFrame 0 := by
  refine ⟨by decide, oneFrame_ready.1, by decide, by decide, by decide, ?_⟩
  rintro ⟨x, r, hx, hr, h⟩
  have h1 : (oneFrame 0).op.frmSize.w.toNat = 1 := by decide
  have h2 : (oneFrame 0).op.frmSize.h.toNat = 1 := by decide
  obtain rfl : x = 0 := by omega
  obtain rfl : r = 0 := by omega
  revert h
  decide

theorem witness_ComposeDisposalPreparesTheCanvas :
    (oneFrame 0).mem.wf = true ∧ (oneFrame 1).mem.wf = true ∧ (oneFrame 2).mem.wf = true ∧
    (oneFrame 3).mem.wf = true ∧ ComposeReady (oneFrame 0) .none ∧
    ComposeReady (oneFrame 1) .doNotDispose ∧ ComposeReady (oneFrame 2) .restoreBackground ∧
    ComposeReady (oneFrame 3) .restorePrevious ∧ (oneFrame 2).inFrame 1 :=
  ⟨by decide, by decide, by decide, by decide, oneFrame_ready.1, oneFrame_ready.2.1, oneFrame_ready.2.2.1,
    oneFrame_ready.2.2.2, 0, 0, by decide, by decide, by decide⟩

theorem witness_ComposeFrameAndCompletion :
    (oneFrame 3).mem.wf = true ∧ ComposeReady (oneFrame 3) .restorePrevious ∧ (oneFrame 3).inFrame 1 :=
  ⟨by decide, oneFrame_ready.2.2.2, 0, 0, by decide, by decide, by decide⟩

theorem witness_IdAndCapacitiesAreConstants : ∃ t, step (State.reset.withFetchWord 32 0x01) = .next t :=
  ⟨_, rfl⟩

theorem witness_InstructionsWriteOnlyTheirOwnState :
    (∃ t, exec .kwkwk (oneEntry 4) = .next t) ∧ (∃ t, exec .compose (oneFrame 3) = .next t) :=
  ⟨(nextIs_elim (p := fun _ => true) (by decide)).imp fun _ h => h.1,
    (nextIs_elim (p := fun _ => true) (by decide)).imp fun _ h => h.1⟩

theorem witness_StepKeepsMemoryCanonical :
    (oneEntry 4).mem.wf = true ∧ ∃ t, step (oneEntry 4) = .next t :=
  ⟨by decide, (nextIs_elim (p := fun _ => true) (by decide)).imp fun _ h => h.1⟩

theorem reset_caps : Caps.reset.ok := ⟨by decide, by decide, by decide, by decide, by decide⟩

/-- An accepted command meets the block's invariant. -/
theorem running_inv (v : Word) : Inv (running (.word v) State.reset) := by
  constructor <;> first | exact reset_caps | exact (by decide : Memory.empty.wf = true) |
    exact (by decide : Memory.empty.within Caps.reset = true) | skip
  all_goals simp [running, State.reset, State.resetOn, Status.reset, ErrRegs.reset, Extent.area]

/-- The decode of V-LZW-1 meets it between two codes. -/
theorem oneEntry_block_inv : Inv (oneEntry 4) where
  capsLegal := oneEntry_caps
  canonical := by decide
  inBounds := by decide
  busyExact := by decide
  busyUndone := by decide
  oneSource := by decide
  errVoids := by decide
  errNamed := by decide
  errOnly := by decide
  docFits := by decide
  cbufFits := by decide
  idxFits := by decide
  assembling := fun im h => absurd h (by cases im <;> decide)
  decoding := by
    intro im h
    have h2 : (oneEntry 4).pending = .code false := by decide
    rw [h2] at h
    cases h
    exact ⟨oneEntry_inv, by decide, by decide⟩

theorem witness_StepKeepsTheBlockInvariant :
    Inv (oneEntry 4) ∧ ∃ t, step (oneEntry 4) = .next t ∧ t.pending = .code false := by
  obtain ⟨t, h1, h2⟩ := nextIs_elim (r := step (oneEntry 4))
    (p := fun t => decide (t.pending = .code false)) (by decide)
  exact ⟨oneEntry_block_inv, t, h1, by simpa using h2⟩

/-- The error state of V-CTL-4, with a NOP for CMD to come. -/
def afterBadCmd : State := reading [] (State.reset.errorEntry .badCmd 8 0)

theorem afterBadCmd_inv : Inv afterBadCmd := by
  constructor <;> first | exact reset_caps | decide | skip
  all_goals simp [afterBadCmd, reading, State.errorEntry, State.reset, State.resetOn]

theorem witness_OnlyResetLeavesTheErrorState :
    Inv afterBadCmd ∧ afterBadCmd.status.err = true ∧ ∃ t, step afterBadCmd = .next t :=
  ⟨afterBadCmd_inv, by decide, (nextIs_elim (p := fun _ => true) (by decide)).imp fun _ h => h.1⟩

/-- A command that ends done, SOFT_RESET, and a step that leaves its command running. -/
theorem witness_CommandsEndDoneOrFailed :
    (Inv (running (.word 0) State.reset) ∧ (running (.word 0) State.reset).pending ≠ .none ∧
      ∃ t, coreStep (running (.word 0) State.reset) = .next t ∧ t.pending = .none) ∧
    (Inv (running (.word 1) State.reset) ∧ (running (.word 1) State.reset).pending = .word 0x00000001 ∧
      ∃ t, coreStep (running (.word 1) State.reset) = .next t ∧ t.pending = .none) ∧
    (Inv (oneEntry 4) ∧ ∃ t, coreStep (oneEntry 4) = .next t ∧ t.pending ≠ .none) := by
  obtain ⟨t, h1, h2⟩ := nextIs_elim (r := coreStep (oneEntry 4))
    (p := fun t => decide (t.pending = .code false)) (by decide)
  exact ⟨⟨running_inv 0, by decide, _, rfl, rfl⟩, ⟨running_inv 1, by decide, _, rfl, rfl⟩,
    oneEntry_block_inv, t, h1, by simp at h2; simp [h2]⟩

theorem witness_InvariantStatesNeverStop :
    Inv afterBadCmd ∧
    ∀ a, HostEvent.access a ∈ afterBadCmd.env.host → a.shapeOk = true ∧ a.inRegs = true := by
  refine ⟨afterBadCmd_inv, fun a h => ?_⟩
  have h2 : afterBadCmd.env.host = [.access statusRead] := rfl
  rw [h2, List.mem_singleton] at h
  cases h
  decide

theorem witness_EveryCommandEnds :
    Inv (running (.word 0x06) State.reset) ∧ (running (.word 0x06) State.reset).pending ≠ .none ∧
    (running (.word 0x06) State.reset).pending.illegal = false := ⟨running_inv 0x06, by decide, by decide⟩

/-- The frame F1 of P5 (one pixel of index 2), about to be run by IMAGE. -/
def imageReady : State :=
  let s := running (.word 0x06) (withSrc [2, 0x54, 1, 0] State.reset)
  { s with status := { s.status with docOpen := true }, docSize := ⟨2, 1⟩,
           op := { s.op with lzwMcs := 2, frmSize := ⟨1, 1⟩, frmCtrl := ⟨false, false, 3, 1⟩ } }

theorem imageReady_inv : Inv imageReady := by
  constructor <;> first | exact reset_caps | decide | skip
  · exact fun im h => absurd h (by cases im <;> decide)

/-- It ends with the frame count and flags of P5, line 13. -/
theorem witness_ImageEqualsItsThreeCommands :
    Inv imageReady ∧ imageReady.pending = .word 0x06 ∧ imageReady.status.docOpen = true ∧
    ∃ t, coreRun 7 imageReady = .next t ∧ t.pending = .none ∧ t.readRegs 0x08 = 0x05A ∧
      t.readRegs 0x24 = 4 ∧ t.readRegs 0x58 = 0x00280063 := by
  obtain ⟨t, h1, h2⟩ := nextIs_elim (r := coreRun 7 imageReady)
    (p := fun t => decide (t.pending = .none ∧ t.readRegs 0x08 = 0x05A ∧ t.readRegs 0x24 = 4 ∧
      t.readRegs 0x58 = 0x00280063)) (by decide)
  exact ⟨imageReady_inv, by decide, by decide, t, h1, of_decide_eq_true h2⟩

theorem witness_CoreStepIgnoresTheHost :
    let s := running (.word 0) State.reset
    let s' := reading [.host] { s with status := { s.status with wbusy := true } }
    s ≠ s' ∧ s.blind = s'.blind ∧ ∃ t, coreStep s = .next t := ⟨by decide, rfl, _, rfl⟩

theorem witness_HostAccessWhileBusyIsInvisibleToTheCore :
    let s := running (.word 0) State.reset
    s.status.busy = true ∧ (∀ m, HostEvent.access statusRead ≠ .hardReset m) ∧
    ∃ t, hostEvent (.access statusRead) s = .next t := ⟨rfl, (fun _ h => HostEvent.noConfusion h), _, rfl⟩

/-- An acceptance, a core step that leaves its command running, and a host write meanwhile. -/
theorem witness_OnlyBusyShowsUntilTheEnd :
    (State.reset.status.busy = false ∧
      ∃ t, hostAccess { space := .regs, offset := 0x04, bytes := 4, op := .write 0 } State.reset = .next t ∧
        t.status.busy = true) ∧
    ((oneEntry 4).status.busy = true ∧ ∃ t, coreTurn (oneEntry 4) = .next t ∧ t.status.busy = true ∧
      (oneEntry 4).readIsDraw statusRead = false) ∧
    (let s := accessing .regs 0x24 (.write 5) (oneEntry 4)
     s.status.busy = true ∧ ∃ t, hostTurn s = .next t ∧ t.status.busy = true) := by
  obtain ⟨t, h1, h2⟩ := nextIs_elim (r := coreTurn (oneEntry 4)) (p := fun t => t.status.busy) (by decide)
  exact ⟨⟨rfl, _, rfl, rfl⟩, ⟨rfl, t, h1, h2, by decide⟩, rfl, _, rfl, rfl⟩

end Sys2Proof.Tests
end

section
/-! PROOFS about the registers (10_state.md R20 to R54): what a register write stores and leaves (R21), and what
no step changes (R22, R54). -/

namespace Sys2Proof.Machine

/-! ## Words made of fields -/

/-- A mask of the low `n` bits keeps the remainder. -/
theorem and_lowMask_toNat {n : Nat} (hn : n ≤ 32) (v : Word) :
    (v &&& word (2 ^ n - 1)).toNat = v.toNat % 2 ^ n := by
  have hle : 2 ^ n ≤ 2 ^ 32 := Nat.pow_le_pow_right (by decide) hn
  have hpos : 0 < 2 ^ n := Nat.two_pow_pos n
  rw [BitVec.toNat_and, word_toNat (by omega), Nat.and_two_pow_sub_one_eq_mod]

theorem word_field_low {n : Nat} (hn : n ≤ 32) (v : Word) :
    word (field 0 n v).toNat = v &&& word (2 ^ n - 1) := by
  apply BitVec.eq_of_toNat_eq
  rw [and_lowMask_toNat hn, field, BitVec.extractLsb'_toNat, Nat.shiftRight_zero, word_toNat]
  exact (Nat.mod_le _ _).trans_lt v.isLt

theorem word_and_lowMask {m n : Nat} (hn : n ≤ 32) (hm : m < 2 ^ n) :
    word m &&& word (2 ^ n - 1) = word m := by
  have hle : 2 ^ n ≤ 2 ^ 32 := Nat.pow_le_pow_right (by decide) hn
  apply BitVec.eq_of_toNat_eq
  rw [and_lowMask_toNat hn, word_toNat (by omega), Nat.mod_eq_of_lt hm]

theorem halves_fields (v : Word) : halves (field 0 16 v) (field 16 16 v) = v := by
  apply BitVec.eq_of_toNat_eq
  simp only [halves, field, word, BitVec.extractLsb'_toNat, BitVec.toNat_ofNat]
  omega

theorem bit_le_one (b : Bool) : bit b ≤ 1 := by cases b <;> decide

theorem bit_getLsbD (v : Word) (i : Nat) : bit (v.getLsbD i) = v.toNat / 2 ^ i % 2 := by
  rw [← Nat.toNat_testBit, ← BitVec.testBit_toNat]
  cases v.toNat.testBit i <;> rfl

theorem word_bit_low (v : Word) : word (bit (v.getLsbD 0)) = v &&& 1 := by
  have hbit : bit (v.getLsbD 0) = (field 0 1 v).toNat := by
    rw [bit_getLsbD, field, BitVec.extractLsb'_toNat, Nat.shiftRight_zero, Nat.pow_zero, Nat.div_one]
  rw [hbit]
  exact word_field_low (n := 1) (by decide) v

/-- FRM_CTRL's fields are bits 4 to 0 and 10 to 8 (10_state.md R44). -/
theorem and_frmCtrlMask_toNat (v : Word) :
    (v &&& 0x71F).toNat = v.toNat % 2 ^ 5 + 2 ^ 8 * (v.toNat / 2 ^ 8 % 2 ^ 3) := by
  have hlow : (v.toNat &&& 0x71F) % 2 ^ 8 = v.toNat % 2 ^ 5 := by
    rw [Nat.and_mod_two_pow, Nat.and_two_pow_sub_one_eq_mod _ 5]; omega
  have hhigh : (v.toNat &&& 0x71F) / 2 ^ 8 = v.toNat / 2 ^ 8 % 2 ^ 3 := by
    rw [Nat.and_div_two_pow, Nat.and_two_pow_sub_one_eq_mod _ 3]
  rw [BitVec.toNat_and]
  change v.toNat &&& 0x71F = _
  omega

theorem frmCtrlOf_pack (v : Word) : (frmCtrlOf v).pack = v &&& 0x71F := by
  apply BitVec.eq_of_toNat_eq
  simp only [and_frmCtrlMask_toNat, frmCtrlOf, FrmCtrl.pack, bit_getLsbD, field, word,
    BitVec.extractLsb'_toNat, BitVec.toNat_ofNat]
  omega

theorem FrmCtrl.pack_and_mask (c : FrmCtrl) : c.pack &&& 0x71F = c.pack := by
  have := bit_le_one c.interlace
  have := bit_le_one c.transEn
  apply BitVec.eq_of_toNat_eq
  simp only [and_frmCtrlMask_toNat, FrmCtrl.pack, word, BitVec.toNat_ofNat]
  omega

/-! ## Register accesses -/

@[simp] theorem State.readRegs_offset (s : State) (r : Reg) : s.readRegs r.offset = s.regWord r := by
  simp [State.readRegs]

theorem State.readRegs_reserved {offset : Nat} (h : regAt offset = none) (s : State) :
    s.readRegs offset = 0 := by
  simp [State.readRegs, h]

@[simp] theorem State.writeRegs_cmd (s : State) (v : Word) : s.writeRegs Reg.cmd.offset v = s.issue v := by
  simp [State.writeRegs]

theorem State.writeRegs_offset {r : Reg} (h : r ≠ .cmd) (s : State) (v : Word) :
    s.writeRegs r.offset v = s.setReg r v := by
  cases r
  case cmd => exact absurd rfl h
  all_goals rfl

theorem State.writeRegs_reserved {offset : Nat} (h : regAt offset = none) (s : State) (v : Word) :
    s.writeRegs offset v = s := by
  simp [State.writeRegs, h]

theorem Reg.offset_aligned (r : Reg) : r.offset % 4 = 0 ∧ r.offset < 0x100 := by
  cases r <;> decide

theorem eq_offset_of_regAt {offset : Nat} {r : Reg} (h : regAt offset = some r) : offset = r.offset :=
  (beq_iff_eq.1 (List.find?_some (p := fun r : Reg => r.offset == offset) h)).symm

/-- An idle write of a word that exists is the register write. -/
theorem hostAccess_writeRegs {s : State} {offset : Nat} (hbusy : s.status.busy = false)
    (halign : offset % 4 = 0) (hlt : offset < 0x100) (v : Word) :
    hostAccess { space := .regs, offset := offset, bytes := 4, op := .write v } s =
      .next (s.writeRegs offset v) := by
  simp [hostAccess, BusAccess.shapeOk, BusAccess.inRegs, State.hostWrite, hbusy, halign, hlt]

/-- A register word that does not exist (20_memory.md R71). -/
theorem hostAccess_regs_misshapen {a : BusAccess} (hspace : a.space = .regs)
    (h : a.bytes ≠ 4 ∨ a.offset % 4 ≠ 0) (s : State) : hostAccess a s = .refused .accessShape := by
  have hshape : a.shapeOk = false := by
    simp only [BusAccess.shapeOk, hspace]
    rcases h with h | h <;> simp [h]
  rw [hostAccess, if_pos hshape]

/-! ## What a register write stores and leaves -/

theorem State.setReg_readOnly {r : Reg} (h : r.writeMask = none) (s : State) (v : Word) :
    s.setReg r v = s := by
  cases r <;> first | rfl | cases h

/-- The written bits of the fields, and nothing of the reserved ones. -/
theorem State.setReg_regWord_same (s : State) (r : Reg) (v : Word) :
    (s.setReg r v).regWord r = match r.writeMask with | .some m => v &&& m | .none => s.regWord r := by
  cases r
  case irqEn => exact word_bit_low v
  case srcLen => exact BitVec.and_allOnes.symm
  case srcPtr => exact BitVec.and_allOnes.symm
  case lzwMcs => exact word_field_low (n := 8) (by decide) v
  case canvasSize => exact (halves_fields v).trans BitVec.and_allOnes.symm
  case frmPos => exact (halves_fields v).trans BitVec.and_allOnes.symm
  case frmSize => exact (halves_fields v).trans BitVec.and_allOnes.symm
  case frmCtrl => exact frmCtrlOf_pack v
  case frmTrans => exact word_field_low (n := 8) (by decide) v
  case frmDelay => exact word_field_low (n := 16) (by decide) v
  all_goals rfl

/-- Every other register reads as before, STATUS after a write to IRQ_EN apart: its IRQ bit is computed. -/
theorem State.setReg_regWord_other {r r' : Reg} (hne : r' ≠ r) (hirq : ¬ (r' = .status ∧ r = .irqEn))
    (s : State) (v : Word) : (s.setReg r v).regWord r' = s.regWord r' := by
  cases r
  case irqEn =>
    cases r'
    case irqEn => exact absurd rfl hne
    case status => exact absurd ⟨rfl, rfl⟩ hirq
    all_goals rfl
  case srcLen | srcPtr | lzwMcs | canvasSize | frmPos | frmSize | frmCtrl | frmTrans | frmDelay =>
    cases r' <;> first | exact absurd rfl hne | rfl
  all_goals rfl

theorem State.setReg_frame (s : State) (r : Reg) (v : Word) :
    { s.setReg r v with irqEn := s.irqEn, op := s.op, srcPtr := s.srcPtr } = s := by
  cases r <;> rfl

/-! ## Reserved bits -/

theorem State.statusWord_and_mask (s : State) : s.statusWord &&& 0x1FF = s.statusWord := by
  refine word_and_lowMask (n := 9) (by decide) ?_
  have := bit_le_one s.status.busy
  have := bit_le_one s.status.done
  have := bit_le_one s.status.err
  have := bit_le_one s.heldSeen.docOpen
  have := bit_le_one s.heldSeen.cbufValid
  have := bit_le_one s.heldSeen.idxValid
  have := bit_le_one s.heldSeen.snapValid
  have := bit_le_one s.status.wbusy
  have := bit_le_one s.irq
  omega

/-- A byte or a half word shown as a word has no bit above it. -/
theorem word_toNat_and_lowMask {n : Nat} (hn : n ≤ 32) (b : BitVec n) :
    word b.toNat &&& word (2 ^ n - 1) = word b.toNat := word_and_lowMask hn b.isLt

theorem State.regWord_and_fieldMask (s : State) (r : Reg) : s.regWord r &&& r.fieldMask = s.regWord r := by
  cases r
  case cmd => exact BitVec.and_self
  case status => exact s.statusWord_and_mask
  case irqEn => exact word_and_lowMask (n := 1) (by decide) (Nat.lt_succ_of_le (bit_le_one s.irqEn))
  case errCode | lzwMcs | frmTrans => exact word_toNat_and_lowMask (n := 8) (by decide) _
  case frmDelay | snapDelay => exact word_toNat_and_lowMask (n := 16) (by decide) _
  case frmCtrl => exact s.op.frmCtrl.pack_and_mask
  all_goals exact BitVec.and_allOnes

theorem State.regWord_reserved (s : State) (r : Reg) : s.regWord r &&& ~~~r.fieldMask = 0 := by
  rw [← s.regWord_and_fieldMask r, BitVec.and_assoc, BitVec.and_not_self]
  exact BitVec.and_zero

/-! ## A command word with a reserved bit set -/

theorem decodeCommand_reserved {v : Word} (h : 0x100 ≤ v.toNat) :
    decodeCommand v = .error (.badCommand v) := by
  unfold decodeCommand
  split
  case h_9 => rfl
  all_goals omega

theorem le_of_reservedBits {v : Word} (h : (v.extractLsb' 8 24).toNat ≠ 0) : 0x100 ≤ v.toNat := by
  rw [BitVec.extractLsb'_toNat, Nat.shiftRight_eq_div_pow] at h
  omega

theorem State.issue_pending {s : State} (hbusy : s.status.busy = false) (herr : s.status.err = false)
    (v : Word) : (s.issue v).pending = .word v := by
  simp [State.issue, hbusy, herr]

/-- The error entry of an illegal command word (44_control.md R238). -/
theorem coreStep_badCmd {s : State} {v : Word} (hp : s.pending = .word v) (h : 0x100 ≤ v.toNat) :
    coreStep s = .next (s.errorEntry .badCmd v 0) := by
  rw [coreStep_word hp, decodeCommand_reserved h]

/-! ## The capacities -/

theorem raise_caps {c : ErrCode} {i a : Nat} {s t : State} (h : raise c i a s = .next t) :
    t.caps = s.caps := by
  cases h; rfl

theorem composeBody_caps {s t : State} (h : composeBody s = .next t) : t.caps = s.caps := by
  rcases composeBody_cases s with ⟨c, i, a, -, hs⟩ | ⟨d, -, hs⟩ <;> rw [hs] at h <;> cases h
  · rfl
  · exact s.composite_caps d

theorem lzwBody_caps {image : Bool} {s t : State} (h : lzwBody image s = .next t) : t.caps = s.caps := by
  rcases lzwBody_cases image s with ⟨c, i, a, -, hs⟩ | ⟨-, -, -, -, hs⟩ <;> rw [hs] at h <;> cases h <;> rfl

theorem assembleBody_caps {image : Bool} {s t : State} (h : assembleBody image s = .next t) :
    t.caps = s.caps := by
  rcases assembleBody_cases image s with ⟨c, i, a, -, hs⟩ | ⟨-, hs⟩ <;> rw [hs] at h <;> cases h <;> rfl

theorem finishDecode_caps {s t : State} (h : finishDecode s = .next t) : t.caps = s.caps := by
  unfold finishDecode at h
  split at h
  · exact (composeBody_caps h).trans rfl
  · cases h; rfl

theorem finishAssemble_caps {s t : State} (h : finishAssemble s = .next t) : t.caps = s.caps := by
  unfold finishAssemble at h
  split at h
  · exact (lzwBody_caps h).trans rfl
  · cases h; rfl

theorem decodeString_caps {str : List Byte} {c : BitVec 12} {s t : State}
    (h : decodeString str c s = .next t) : t.caps = s.caps := by
  unfold decodeString at h
  split at h <;> cases h <;> rfl

/-- No instruction writes the capacities (10_state.md R54). -/
theorem exec_caps {i : Instr} {s t : State} (h : exec i s = .next t) : t.caps = s.caps := by
  cases i <;> simp only [exec] at h
  case nop | softReset | endDoc | clearFirst | clear => cases h; rfl
  case beginDoc => unfold execBeginDoc at h; split at h <;> cases h <;> rfl
  case assemble => exact assembleBody_caps h
  case lzwDecode => exact lzwBody_caps h
  case compose => exact composeBody_caps h
  case image =>
    unfold execImage at h
    split at h
    · exact raise_caps h
    · exact assembleBody_caps h
  case sbTerm =>
    unfold execSbTerm at h
    exact (finishAssemble_caps h).trans rfl
  case sbData n =>
    unfold execSbData at h
    split at h
    · exact raise_caps h
    · split at h
      · exact raise_caps h
      · cases h; rfl
  case baseAfterClear c => unfold execBaseAfterClear at h; split at h <;> cases h <;> rfl
  case eoi =>
    unfold execEoi at h
    split at h
    · exact raise_caps h
    · exact (finishDecode_caps h).trans (s.toPhase_caps .done)
  case known c =>
    unfold execKnown at h
    split at h
    · exact raise_caps h
    · split at h
      · cases h
      · exact decodeString_caps h
  case kwkwk =>
    unfold execKwkwk at h
    split at h
    · cases h
    · exact decodeString_caps h

theorem illegalCode_caps {e : Reject} {s t : State} (h : illegalCode e s = .next t) : t.caps = s.caps := by
  cases e <;> cases h <;> rfl

theorem coreStep_caps {s t : State} (h : coreStep s = .next t) : t.caps = s.caps := by
  cases hp : s.pending
  case none =>
    simp only [coreStep, coreFetch, hp] at h
    cases h; rfl
  case word v =>
    rw [coreStep_word hp] at h
    split at h
    · exact exec_caps h
    · cases h; rfl
  case subBlock image =>
    rw [coreStep_subBlock hp] at h
    split at h
    · cases h; rfl
    · exact exec_caps h
  case code image =>
    rw [coreStep_code hp] at h
    split at h
    · cases h; rfl
    · split at h
      · exact (exec_caps h).trans (s.advanceBits_caps _)
      · exact (illegalCode_caps h).trans (s.advanceBits_caps _)

theorem coreTurn_caps {s t : State} (h : coreTurn s = .next t) : t.caps = s.caps :=
  coreTurn_keeps (P := fun u => u.caps = s.caps) (fun _ hu => hu)
    (fun _ _ hu _ hstep => (coreStep_caps hstep).trans hu) rfl h

@[simp] theorem State.hostRead_caps (s : State) (a : BusAccess) : (s.hostRead a).caps = s.caps := by
  rw [State.hostRead_env]

@[simp] theorem State.hostWrite_caps (s : State) (a : BusAccess) (v : Word) : (s.hostWrite a v).caps = s.caps := by
  unfold State.hostWrite
  split
  · rfl
  · split
    · obtain ⟨-, hcaps, -⟩ := s.writeRegs_frame a.offset v
      exact hcaps
    · split <;> rfl
    · split <;> rfl
    · rfl

theorem hostAccess_caps {a : BusAccess} {s t : State} (h : hostAccess a s = .next t) : t.caps = s.caps := by
  unfold hostAccess at h
  split at h
  · cases h
  · split at h
    · cases h
    · split at h <;> cases h
      · exact s.hostRead_caps a
      · exact s.hostWrite_caps a _

theorem hostEvent_caps {e : HostEvent} {s t : State} (h : hostEvent e s = .next t) : t.caps = s.caps := by
  cases e <;> simp only [hostEvent] at h
  case access a => exact hostAccess_caps h
  case wait => split at h <;> cases h <;> exact s.hostRead_caps statusRead
  case hardReset drawn => cases h; rfl

theorem hostTurn_caps {s t : State} (h : hostTurn s = .next t) : t.caps = s.caps := by
  unfold hostTurn at h
  split at h
  · cases h; rfl
  · exact (hostEvent_caps h).trans rfl

/-- No step of host or core changes the capacities, a reset least of all (10_state.md R54). -/
theorem step_caps {s t : State} (h : step s = .next t) : t.caps = s.caps := by
  rcases step_cases s with hs | ⟨-, hs⟩ | ⟨-, hs⟩ <;> rw [hs] at h
  · cases h; rfl
  · exact (hostTurn_caps h).trans s.popTurn_caps
  · exact (coreTurn_caps h).trans s.popTurn_caps

/-! ## The statements -/

/-- Settles O17: an idle write is `setReg` at the register's offset and nothing at a reserved one; a write to
CMD is accepted, and its word decodes to nothing. -/
theorem registerWritesStoreTheirFields : Obligations.RegisterWritesStoreTheirFields := by
  refine ⟨fun s r v hbusy hr => ?_, fun s offset v hres hbusy halign hlt => ?_, State.regWord_reserved,
    fun offset r h => ?_, fun s a hspace h => hostAccess_regs_misshapen hspace h s,
    fun s v hbusy herr hv => ?_⟩
  · obtain ⟨halign, hlt⟩ := r.offset_aligned
    refine ⟨s.setReg r v, ?_, s.setReg_regWord_same r v,
      fun r' hne hirq => State.setReg_regWord_other hne hirq s v,
      fun hro => State.setReg_readOnly hro s v, s.setReg_frame r v⟩
    rw [hostAccess_writeRegs hbusy halign hlt, State.writeRegs_offset hr]
  · rw [hostAccess_writeRegs hbusy halign hlt, State.writeRegs_reserved hres]
    exact ⟨State.readRegs_reserved hres s, rfl⟩
  · obtain rfl := eq_offset_of_regAt h
    exact ⟨rfl, r.offset_aligned⟩
  · refine ⟨s.issue v, ?_, coreStep_badCmd (State.issue_pending hbusy herr v) (le_of_reservedBits hv)⟩
    rw [hostAccess_writeRegs hbusy (by decide) (by decide)]
    exact congrArg _ (s.writeRegs_cmd v)

/-- Settles O48: ID is a literal, and the four CAP registers read the capacities, which every step keeps. -/
theorem idAndCapacitiesAreConstants : Obligations.IdAndCapacitiesAreConstants := by
  intro s t h
  have hcaps : t.caps = s.caps := step_caps h
  have hread : ∀ r : Reg, t.readRegs r.offset = t.regWord r := t.readRegs_offset
  rw [← hcaps]
  exact ⟨hread .id, hread .capSrc, hread .capCbuf, hread .capIdx, hread .capCanvas, rfl⟩

end Sys2Proof.Machine
end

section
/-! PROOFS about the memories (20_memory.md): the shapes of access that exist (R71, R72), and the chain that
ASSEMBLE joins in CBUF (R69). -/

namespace Sys2Proof.Machine

/-! ## Shapes of access -/

/-- The byte spaces take bytes only (20_memory.md R71). -/
theorem BusAccess.shapeOk_byteSpace {a : BusAccess} (hspace : a.space ≠ .regs) :
    a.shapeOk = decide (a.bytes = 1) := by
  unfold BusAccess.shapeOk
  split
  case h_1 hregs => exact absurd hregs hspace
  all_goals rfl

theorem hostAccess_byteSpace_misshapen {a : BusAccess} (hspace : a.space ≠ .regs) (h : a.bytes ≠ 1)
    (s : State) : hostAccess a s = .refused .accessShape := by
  rw [hostAccess, if_pos (by rw [BusAccess.shapeOk_byteSpace hspace, decide_eq_false h])]

/-! ## Stores made one after the other -/

theorem placed_append {α : Type} (a : Nat) (xs ys : List α) :
    placed a (xs ++ ys) = placed a xs ++ placed (a + xs.length) ys := by
  induction xs generalizing a with
  | nil => rfl
  | cons x xs ih =>
    have hshift : a + 1 + xs.length = a + (xs.length + 1) := by omega
    simp only [List.cons_append, placed, ih, hshift, List.length_cons]

theorem Mem.writeAll_append {α : Type} [DecidableEq α] (d : α) (m ps qs : List (Nat × α)) :
    Mem.writeAll d m (ps ++ qs) = Mem.writeAll d (Mem.writeAll d m ps) qs :=
  List.foldl_append

/-! ## The chain in SRC -/

/-- A chain starts with its terminator, or with a sub-block and the chain after it. -/
theorem State.chainAt_cases {s : State} {fuel p q : Nat} {bs : List Byte}
    (h : s.chainAt (fuel + 1) p = some (bs, q)) :
    p < s.op.srcLen.toNat ∧
      ((s.srcAt p = 0 ∧ bs = [] ∧ q = p + 1) ∨
        (s.srcAt p ≠ 0 ∧ p + 1 + (s.srcAt p).toNat ≤ s.op.srcLen.toNat ∧
          ∃ rest, s.chainAt fuel (p + 1 + (s.srcAt p).toNat) = some (rest, q) ∧
            bs = s.payload p (s.srcAt p).toNat ++ rest)) := by
  rw [State.chainAt] at h
  split at h
  · cases h
  next hp =>
    refine ⟨Nat.lt_of_not_le hp, ?_⟩
    split at h
    next hzero => cases h; exact .inl ⟨BitVec.eq_of_toNat_eq hzero, rfl, rfl⟩
    next hlen =>
      refine .inr ⟨fun hzero => hlen (by rw [hzero]; rfl), ?_⟩
      split at h
      · cases h
      next hfits =>
        refine ⟨Nat.le_of_not_lt hfits, ?_⟩
        split at h
        next rest _ hrest => cases h; exact ⟨rest, hrest, rfl⟩
        · cases h

/-- A chain ends within SRC_LEN. -/
theorem State.chainAt_end_le {s : State} {fuel p q : Nat} {bs : List Byte}
    (h : s.chainAt fuel p = some (bs, q)) : q ≤ s.op.srcLen.toNat := by
  induction fuel generalizing p bs with
  | zero => cases h
  | succ fuel ih =>
    obtain ⟨hp, ⟨-, -, rfl⟩ | ⟨-, -, rest, hrest, -⟩⟩ := State.chainAt_cases h
    · exact hp
    · exact ih hrest

/-- A chain depends on SRC and SRC_LEN alone. -/
theorem State.chainAt_congr {s t : State} (hsrc : t.mem.src = s.mem.src) (hop : t.op = s.op) (fuel p : Nat) :
    t.chainAt fuel p = s.chainAt fuel p := by
  have hat : t.srcAt = s.srcAt := funext fun a => by rw [State.srcAt, hsrc, ← State.srcAt]
  have hpay : t.payload = s.payload := by funext p n; rw [State.payload, hat, ← State.payload]
  induction fuel generalizing p with
  | zero => rfl
  | succ fuel ih => rw [State.chainAt, State.chainAt, hat, hpay, hop, ih]

@[simp] theorem State.chainAt_startAssemble (s : State) (image : Bool) (fuel p : Nat) :
    (s.startAssemble image).chainAt fuel p = s.chainAt fuel p :=
  State.chainAt_congr (congrArg Memory.src (s.startAssemble_mem image)) (s.startAssemble_op image) fuel p

@[simp] theorem State.chainAt_copySubBlock (s : State) (n fuel p : Nat) :
    (s.copySubBlock n).chainAt fuel p = s.chainAt fuel p :=
  State.chainAt_congr (s.copySubBlock_mem_src n) (s.copySubBlock_op n) fuel p

/-! ## The instructions of ASSEMBLE -/

/-- The state in which a running ASSEMBLE ends once it has copied `bs` and passed the terminator before `q`
(40_subblock.md R124 to R126). -/
def State.assembled (s : State) (bs : List Byte) (q : Nat) : State :=
  let s1 := s.storeCbuf (placed s.cbufLen.toNat bs)
  { s1 with cbufLen := word (s.cbufLen.toNat + bs.length), srcPtr := word q,
            status := { s1.status with cbufValid := true } }.complete

@[simp] theorem State.assembled_cbufLen (s : State) (bs : List Byte) (q : Nat) :
    (s.assembled bs q).cbufLen = word (s.cbufLen.toNat + bs.length) := rfl

/-- What the copy of a sub-block adds stands before the payload copied after it. -/
theorem State.copySubBlock_assembled {s : State} {n : Nat} (hlen : s.cbufLen.toNat + n < 2 ^ 32)
    (bs : List Byte) (q : Nat) :
    (s.copySubBlock n).assembled bs q = s.assembled (s.payload s.srcPtr.toNat n ++ bs) q := by
  have hstart : (s.copySubBlock n).cbufLen.toNat = s.cbufLen.toNat + n := word_toNat hlen
  simp only [State.assembled, State.storeCbuf, hstart, State.copySubBlock_mem_cbuf, placed_append,
    Mem.writeAll_append, List.length_append, State.payload_length, ← Nat.add_assoc]
  rfl

theorem State.cbufAt_assembled {s : State} (hm : s.mem.wf = true) (bs : List Byte) (q a : Nat) :
    (s.assembled bs q).cbufAt a =
      if h : s.cbufLen.toNat ≤ a ∧ a < s.cbufLen.toNat + bs.length then bs[a - s.cbufLen.toNat]'(by omega)
      else s.cbufAt a := by
  obtain ⟨-, -, hcbuf, -⟩ := (Memory.wf_iff _).1 hm
  exact Mem.read_writeAll_placed hcbuf _ _ _

theorem coreStep_assemble {s : State} (hp : s.pending = .word 0x03)
    (hlen : s.op.srcLen.toNat ≤ s.caps.src.toNat) : coreStep s = .next (s.startAssemble false) := by
  rw [coreStep_word hp]
  exact if_neg (Nat.not_lt.2 hlen)

/-- The terminator of an ASSEMBLE of its own (40_subblock.md R124, R126). -/
theorem coreStep_terminator {s : State} (hp : s.pending = .subBlock false)
    (hlt : s.srcPtr.toNat < s.op.srcLen.toNat) (hzero : s.srcAt s.srcPtr.toNat = 0) :
    coreStep s = .next (s.assembled [] (s.srcPtr.toNat + 1)) := by
  have hexec : exec .sbTerm s =
      .next { s with srcPtr := word (s.srcPtr.toNat + 1),
                     status := { s.status with cbufValid := true } }.complete := by
    simp [exec, execSbTerm, finishAssemble, hp, Pending.inImage]
  rw [coreStep_subBlock hp, if_neg (Nat.not_le.2 hlt), hzero]
  refine hexec.trans ?_
  simp only [State.assembled, List.length_nil, Nat.add_zero, word_toNat_self]
  rfl

/-- A sub-block that ends within SRC_LEN and fits CBUF is copied (40_subblock.md R125). -/
theorem coreStep_copySubBlock {s : State} {image : Bool} (hp : s.pending = .subBlock image)
    (hne : s.srcAt s.srcPtr.toNat ≠ 0)
    (hsrc : s.srcPtr.toNat + 1 + (s.srcAt s.srcPtr.toNat).toNat ≤ s.op.srcLen.toNat)
    (hcbuf : s.cbufLen.toNat + (s.srcAt s.srcPtr.toNat).toNat ≤ s.caps.cbuf.toNat) :
    coreStep s = .next (s.copySubBlock (s.srcAt s.srcPtr.toNat).toNat) := by
  rw [coreStep_subBlock hp, if_neg (by omega), decodeLength, if_neg hne]
  simp only [exec, execSbData]
  rw [if_neg (Nat.not_lt.2 hsrc), if_neg (Nat.not_lt.2 hcbuf)]

/-- From its first length byte on, ASSEMBLE joins the whole chain behind what CBUF holds, by induction on the
sub-blocks. -/
theorem coreRun_chain {s : State} {fuel q : Nat} {bs : List Byte} (hp : s.pending = .subBlock false)
    (hchain : s.chainAt fuel s.srcPtr.toNat = some (bs, q))
    (hfits : s.cbufLen.toNat + bs.length ≤ s.caps.cbuf.toNat) :
    ∃ k, coreRun k s = .next (s.assembled bs q) := by
  induction fuel generalizing s bs with
  | zero => cases hchain
  | succ fuel ih =>
    have hrunning : s.pending ≠ .none := by rw [hp]; nofun
    obtain ⟨hlt, ⟨hzero, rfl, rfl⟩ | ⟨hne, hend, rest, hrest, rfl⟩⟩ := State.chainAt_cases hchain
    · exact ⟨1, coreRun_succ 0 hrunning (coreStep_terminator hp hlt hzero)⟩
    · rw [List.length_append, State.payload_length, ← Nat.add_assoc] at hfits
      have hcap := Nat.le_of_add_right_le hfits
      have hlen := hcap.trans_lt s.caps.cbuf.isLt
      have hptr := word_toNat (hend.trans_lt s.op.srcLen.isLt)
      obtain ⟨k, hk⟩ := ih (s := s.copySubBlock (s.srcAt s.srcPtr.toNat).toNat) (bs := rest) hp
        (by rw [State.chainAt_copySubBlock, State.copySubBlock_srcPtr, hptr, hrest])
        (by rw [State.copySubBlock_cbufLen, word_toNat hlen]; exact hfits)
      exact ⟨k + 1, by
        rw [coreRun_succ k hrunning (coreStep_copySubBlock hp hne hend hcap), hk,
          State.copySubBlock_assembled hlen]⟩

/-! ## The statements -/

/-- Settles O29: ASSEMBLE's start, then `coreRun_chain` from an empty CBUF. -/
theorem assembleJoinsTheWholeChain : Obligations.AssembleJoinsTheWholeChain := by
  intro s bs q hm hp hsrc hchain hfits
  have hq : q < 2 ^ 32 := (State.chainAt_end_le hchain).trans_lt s.op.srcLen.isLt
  have hempty : (s.startAssemble false).cbufLen.toNat = 0 := rfl
  obtain ⟨k, hk⟩ := coreRun_chain (s := s.startAssemble false) rfl
    ((s.chainAt_startAssemble false _ _).trans hchain) (by rw [hempty, Nat.zero_add]; exact hfits)
  have hcell := State.cbufAt_assembled (s := s.startAssemble false) hm bs q
  simp only [hempty, Nat.zero_le, true_and, Nat.zero_add, Nat.sub_zero] at hcell
  refine ⟨k + 1, (s.startAssemble false).assembled bs q, ?_, rfl, rfl, ?_, word_toNat hq,
    fun j hj => (hcell j).trans (dif_pos hj), fun a ha => (hcell a).trans (dif_neg (Nat.not_lt.2 ha)), rfl⟩
  · rw [coreRun_succ k (by rw [hp]; nofun) (coreStep_assemble hp hsrc), hk]
  · rw [State.assembled_cbufLen, hempty, Nat.zero_add, word_toNat (hfits.trans_lt s.caps.cbuf.isLt)]

/-- Settles O16: each space takes one width, REGS aligned words only. -/
theorem misshapenAccessIsRefused : Obligations.MisshapenAccessIsRefused := by
  rintro s a (⟨hregs, h⟩ | ⟨hspace, h⟩)
  · exact hostAccess_regs_misshapen hregs h s
  · exact hostAccess_byteSpace_misshapen hspace h s

end Sys2Proof.Machine
end

section
/-! PROOFS about the encodings (30_encoding.md): the fields of LZW_STATE and the numbers of the phases in it
(R105). -/

namespace Sys2Proof.Machine

/-! ## A field of a word, from the word's digits -/

/-- A word whose value has `x` as its `n`-bit digit over `lo` low bits shows `x` in bits `[lo + n - 1 : lo]`. -/
theorem extractLsb'_toNat_of_digits {v : Word} {lo n low x high : Nat} (hlow : low < 2 ^ lo) (hx : x < 2 ^ n)
    (hv : v.toNat = low + 2 ^ lo * (x + 2 ^ n * high)) : (v.extractLsb' lo n).toNat = x := by
  rw [BitVec.extractLsb'_toNat, Nat.shiftRight_eq_div_pow, hv, Nat.add_mul_div_left _ _ (Nat.two_pow_pos lo),
    Nat.div_eq_of_lt hlow, Nat.zero_add, Nat.add_mul_mod_self_left, Nat.mod_eq_of_lt hx]

/-! ## The LZW_STATE word -/

/-- No phase has a number from 5 on (30_encoding.md R105). -/
theorem phaseNumber_le_four (p : Phase) : phaseNumber p ≤ 4 := by cases p <;> decide

/-- The fields of LZW_STATE fill its 32 bits without a carry (10_state.md R52). -/
theorem Lzw.pack_toNat (l : Lzw) :
    l.pack.toNat =
      l.width.toNat + 2 ^ 4 * l.next.toNat + 2 ^ 17 * phaseNumber l.phase + 2 ^ 20 * l.prev.toNat := by
  have := phaseNumber_le_four l.phase
  exact word_toNat (by omega)

theorem Lzw.pack_width (l : Lzw) : l.pack.extractLsb' 0 4 = l.width :=
  BitVec.eq_of_toNat_eq <| extractLsb'_toNat_of_digits (low := 0)
    (high := l.next.toNat + 2 ^ 13 * (phaseNumber l.phase + 2 ^ 3 * l.prev.toNat))
    (by decide) l.width.isLt (by rw [l.pack_toNat]; omega)

theorem Lzw.pack_next (l : Lzw) : l.pack.extractLsb' 4 13 = l.next :=
  BitVec.eq_of_toNat_eq <| extractLsb'_toNat_of_digits
    (high := phaseNumber l.phase + 2 ^ 3 * l.prev.toNat)
    l.width.isLt l.next.isLt (by rw [l.pack_toNat]; omega)

theorem Lzw.pack_phase (l : Lzw) : (l.pack.extractLsb' 17 3).toNat = phaseNumber l.phase :=
  extractLsb'_toNat_of_digits (low := l.width.toNat + 2 ^ 4 * l.next.toNat) (high := l.prev.toNat)
    (by omega) ((phaseNumber_le_four l.phase).trans_lt (by decide)) (by rw [l.pack_toNat]; omega)

theorem Lzw.pack_prev (l : Lzw) : l.pack.extractLsb' 20 12 = l.prev := by
  have := phaseNumber_le_four l.phase
  exact BitVec.eq_of_toNat_eq <| extractLsb'_toNat_of_digits (high := 0)
    (low := l.width.toNat + 2 ^ 4 * l.next.toNat + 2 ^ 17 * phaseNumber l.phase)
    (by omega) l.prev.isLt (by rw [l.pack_toNat]; omega)

theorem State.readRegs_lzwState (s : State) : s.readRegs 0x58 = s.lzw.pack := s.readRegs_offset .lzwState

/-! ## The statements -/

/-- Settles O21: LZW_STATE reads `Lzw.pack`, whose digits in the radices 2^4, 2^13, 2^3 and 2^12 are the fields. -/
theorem lzwStateWordShowsItsFields : Obligations.LzwStateWordShowsItsFields := by
  refine ⟨fun s => ?_, State.reset.readRegs_lzwState.trans rfl⟩
  rw [s.readRegs_lzwState]
  exact ⟨s.lzw.pack_width, s.lzw.pack_next, s.lzw.pack_phase, s.lzw.pack_prev⟩

end Sys2Proof.Machine
end

section
/-! PROOFS about the Sub-block Assembler (40_subblock.md): ASSEMBLE's check and start (R121, R122), the length
byte (R123), the terminator (R124, R126) and the sub-block of data (R125). -/

namespace Sys2Proof.Machine

/-! ## The outcomes of each instruction -/

/-- An error whose context is two register words keeps them as they are (60_exceptions.md R268). -/
theorem raise_toNat (c : ErrCode) (i a : Word) (s : State) :
    raise c i.toNat a.toNat s = .next (s.errorEntry c i a) := by
  rw [raise_eq, word_toNat_self, word_toNat_self]

theorem assembleBody_tooLong {s : State} (h : s.op.srcLen.toNat > s.caps.src.toNat) (image : Bool) :
    assembleBody image s = .next (s.errorEntry .resSrc s.op.srcLen s.caps.src) := by
  rw [assembleBody, if_pos h, raise_toNat]

theorem assembleBody_starts {s : State} (h : s.op.srcLen.toNat ≤ s.caps.src.toNat) (image : Bool) :
    assembleBody image s = .next (s.startAssemble image) := by
  rw [assembleBody, if_neg (Nat.not_lt.2 h)]

theorem finishAssemble_completes {s : State} (h : s.pending.inImage = false) :
    finishAssemble s = .next { s with status := { s.status with cbufValid := true } }.complete := by
  simp only [finishAssemble, h, Bool.false_eq_true, if_false]

theorem execSbData_overrun {s : State} {n : Byte} (h : s.srcPtr.toNat + 1 + n.toNat > s.op.srcLen.toNat) :
    execSbData n s = .next (s.errorEntry .sbOverrun s.srcPtr (word n.toNat)) := by
  rw [execSbData, if_pos h, raise_eq, word_toNat_self]

theorem execSbData_beyondCbuf {s : State} {n : Byte} (hsrc : s.srcPtr.toNat + 1 + n.toNat ≤ s.op.srcLen.toNat)
    (h : s.cbufLen.toNat + n.toNat > s.caps.cbuf.toNat) :
    execSbData n s = .next (s.errorEntry .resCbuf (word (s.cbufLen.toNat + n.toNat)) s.caps.cbuf) := by
  rw [execSbData, if_neg (Nat.not_lt.2 hsrc), if_pos h, raise_eq, word_toNat_self]

theorem execSbData_copies {s : State} {n : Byte} (hsrc : s.srcPtr.toNat + 1 + n.toNat ≤ s.op.srcLen.toNat)
    (hcbuf : s.cbufLen.toNat + n.toNat ≤ s.caps.cbuf.toNat) :
    execSbData n s = .next (s.copySubBlock n.toNat) := by
  rw [execSbData, if_neg (Nat.not_lt.2 hsrc), if_neg (Nat.not_lt.2 hcbuf)]

/-- The copy of a sub-block touches CBUF and the two cursors alone. -/
theorem State.copySubBlock_frame (s : State) (n : Nat) :
    { s.copySubBlock n with
        srcPtr := s.srcPtr, cbufLen := s.cbufLen,
        mem := { (s.copySubBlock n).mem with cbuf := s.mem.cbuf } } = s := rfl

/-! ## The statements -/

/-- Settles O26: `coreStep_subBlock`, with the two classes `decodeLength` gives a byte. -/
theorem lengthByteStep : Obligations.LengthByteStep := by
  intro s image hp
  rw [coreStep_subBlock hp]
  refine ⟨fun hend => if_pos hend, fun hlt hzero => ?_, fun hlt hne => ?_⟩
  · rw [if_neg (Nat.not_le.2 hlt), decodeLength, if_pos hzero]
  · rw [if_neg (Nat.not_le.2 hlt), decodeLength, if_neg hne]

/-- Settles O28: the copied cells are those of `cbufAt_copySubBlock`; neither cursor wraps, since SRC_LEN and
CAP_CBUF bound them. -/
theorem sbDataAppendsItsPayload : Obligations.SbDataAppendsItsPayload := by
  intro s n hm
  refine ⟨execSbData_overrun, execSbData_beyondCbuf, fun hsrc hcbuf => ?_⟩
  exact ⟨s.copySubBlock n.toNat, execSbData_copies hsrc hcbuf,
    word_toNat (hsrc.trans_lt s.op.srcLen.isLt), word_toNat (hcbuf.trans_lt s.caps.cbuf.isLt),
    State.cbufAt_copySubBlock hm n.toNat, s.copySubBlock_frame n.toNat⟩

/-- Settles O25: the two outcomes of the body that ASSEMBLE and IMAGE share. -/
theorem assembleChecksThenStarts : Obligations.AssembleChecksThenStarts :=
  fun _ => ⟨fun hlong => assembleBody_tooLong hlong false, fun hfits => assembleBody_starts hfits false⟩

/-- Settles O27: outside IMAGE the body's end is the command's completion. -/
theorem sbTermCompletesAssemble : Obligations.SbTermCompletesAssemble := by
  intro s himage
  rw [← word_add_one]
  exact finishAssemble_completes (s := { s with srcPtr := word (s.srcPtr.toNat + 1) }) himage

end Sys2Proof.Machine
end

section
/-! PROOFS about the LZW Decompressor (42_lzw.md): LZW_DECODE's checks and start (R151, R152), the clear codes
(R157, R162), the illegal codes (R165), and the strings KNOWN and KWKWK emit with their new entry (R163, R164). -/

namespace Sys2Proof.Machine

/-! ## The code space of a legal MCS -/

/-- CLEAR is at most 256 (42_lzw.md R151). -/
theorem two_pow_le_of_le_eight {m : Nat} (h : m ≤ 8) : 2 ^ m ≤ 256 :=
  Nat.pow_le_pow_right Nat.two_pos h

/-! ## The start of LZW_DECODE -/

theorem lzwBody_noCbuf {s : State} (h : s.status.cbufValid = false) (image : Bool) :
    lzwBody image s = .next (s.errorEntry .sequence 0x04 3) := by
  rw [lzwBody, if_pos h]
  rfl

theorem lzwBody_badMcs {s : State} (hcbuf : s.status.cbufValid = true)
    (h : ¬ (1 ≤ s.op.lzwMcs.toNat ∧ s.op.lzwMcs.toNat ≤ 8)) (image : Bool) :
    lzwBody image s = .next (s.errorEntry .badMcs (word s.op.lzwMcs.toNat) 0) := by
  rw [lzwBody, if_neg (by simp [hcbuf]), if_pos (by omega)]
  rfl

/-- With a CBUF and a legal MCS what is left is the capacity check (42_lzw.md R151). -/
theorem lzwBody_legalMcs {s : State} (hcbuf : s.status.cbufValid = true) (hlow : 1 ≤ s.op.lzwMcs.toNat)
    (hhigh : s.op.lzwMcs.toNat ≤ 8) (image : Bool) :
    lzwBody image s =
      if s.op.frmSize.area > s.caps.idx.toNat then
        .next (s.errorEntry .resIdx (word s.op.frmSize.area) s.caps.idx)
      else .next (s.startDecode image) := by
  rw [lzwBody, if_neg (by simp [hcbuf]), if_neg (by omega), raise_eq, word_toNat_self]

/-- The start of LZW_DECODE touches the working registers, the two cursors, IDX_VALID and what runs next alone. -/
theorem State.startDecode_frame (s : State) (image : Bool) :
    { s.startDecode image with
        lzw := s.lzw, idxLen := s.idxLen, brPos := s.brPos, pending := s.pending,
        status := { (s.startDecode image).status with idxValid := s.status.idxValid } } = s := rfl

/-! ## The clear codes -/

theorem State.resetDict_width_toNat {s : State} (h : s.lzw.mcsL.toNat ≤ 8) :
    s.resetDict.lzw.width.toNat = s.lzw.mcsL.toNat + 1 :=
  ofNat4_toNat (by omega)

theorem State.resetDict_next_toNat {s : State} (h : s.lzw.mcsL.toNat ≤ 8) :
    s.resetDict.lzw.next.toNat = 2 ^ s.lzw.mcsL.toNat + 2 :=
  ofNat13_toNat (n := 2 ^ s.lzw.mcsL.toNat + 2) (by have := two_pow_le_of_le_eight h; omega)

/-- Both clear codes end in the same state, whatever PHASE was (42_lzw.md R159, R162). -/
theorem exec_clear {i : Instr} (h : i = .clearFirst ∨ i = .clear) (s : State) :
    exec i s = .next (s.resetDict.toPhase .afterClear) := by
  rcases h with rfl | rfl <;> rfl

/-! ## The illegal codes -/

theorem decodeCode_firstNotClear {k : CodeCtx} {c : Nat} (hphase : k.phase = .expectClear)
    (hc : c ≠ k.clear) : decodeCode k c = .error (.firstNotClear c) := by
  simp only [decodeCode, hphase, if_neg hc]

theorem decodeCode_afterClearNotBase {k : CodeCtx} {c : Nat} (hphase : k.phase = .afterClear)
    (hc : k.clear ≤ c) : decodeCode k c = .error (.afterClearNotBase c) := by
  simp only [decodeCode, hphase, if_neg (Nat.not_lt.2 hc)]

theorem decodeCode_codeBeyondNext {k : CodeCtx} {c : Nat} (hphase : k.phase = .normal) (hnext : k.next < c)
    (hclear : c ≠ k.clear) (heoi : c ≠ k.eoi) : decodeCode k c = .error (.codeBeyondNext c) := by
  simp only [decodeCode, hphase, if_neg heoi, if_neg hclear, if_neg (Nat.not_lt.2 hnext.le),
    if_neg hnext.ne']

/-- A code the context has no class for raises its error after `take` (42_lzw.md R158, R165). -/
theorem coreStep_illegalCode {s : State} {image : Bool} {e : Reject} (hp : s.pending = .code image)
    (hbits : s.brPos.toNat + s.lzw.width.toNat ≤ 8 * s.cbufLen.toNat)
    (hdec : decodeCode s.lzw.ctx (bitsValue (s.bitsAhead s.lzw.width.toNat)) = .error e) :
    coreStep s = illegalCode e (s.advanceBits s.lzw.width.toNat) := by
  rw [coreStep_code hp, if_neg (Nat.not_lt.2 hbits), hdec]

/-- After `take` the code's start is where the cursor stood; no stream the capacity allows wraps BR_POS. -/
theorem State.codeStart_advanceBits {s : State}
    (hbits : s.brPos.toNat + s.lzw.width.toNat ≤ 8 * s.cbufLen.toNat)
    (hlen : s.cbufLen.toNat ≤ 2 ^ 29 - 1) :
    (s.advanceBits s.lzw.width.toNat).codeStart = s.brPos.toNat := by
  rw [State.codeStart, State.advanceBits_brPos, State.advanceBits_lzw, word_toNat (by omega),
    Nat.add_sub_cancel]

/-! ## The string of a code and its new entry -/

/-- The state after the string `str` of code `c`: `emit`, `add_entry` of the first byte and PREV, PREV moved
(42_lzw.md R163, R164). -/
def State.withString (s : State) (str : List Byte) (c : BitVec 12) : State :=
  ((s.emit str).addEntry (str.headD 0) s.lzw.prev).setPrev c

theorem decodeString_withString {s : State} {str : List Byte} {c : BitVec 12}
    (h : s.idxLen.toNat + str.length ≤ s.lzw.expLen.toNat) :
    decodeString str c s = .next (s.withString str c) := decodeString_fits h

theorem State.withString_idxLen {s : State} {str : List Byte}
    (h : s.idxLen.toNat + str.length ≤ s.lzw.expLen.toNat) (c : BitVec 12) :
    (s.withString str c).idxLen.toNat = s.idxLen.toNat + str.length :=
  word_toNat (h.trans_lt s.lzw.expLen.isLt)

theorem State.idxAt_withString_inside {s : State} (hm : s.mem.wf = true) (str : List Byte) (c : BitVec 12)
    {j : Nat} (hj : j < str.length) : (s.withString str c).idxAt (s.idxLen.toNat + j) = str[j] := by
  rw [State.withString, State.idxAt_setPrev, State.idxAt_addEntry, State.idxAt_emit hm, dif_pos (by omega)]
  simp only [Nat.add_sub_cancel_left]

theorem State.idxAt_withString_outside {s : State} (hm : s.mem.wf = true) {str : List Byte} (c : BitVec 12)
    {k : Nat} (hk : k < s.idxLen.toNat ∨ s.idxLen.toNat + str.length ≤ k) :
    (s.withString str c).idxAt k = s.idxAt k := by
  rw [State.withString, State.idxAt_setPrev, State.idxAt_addEntry, State.idxAt_emit hm, dif_neg (by omega)]

theorem State.dictAt_withString {s : State} (hm : s.mem.wf = true) (str : List Byte) (c : BitVec 12)
    (e : Nat) :
    (s.withString str c).dictAt e =
      if e = s.lzw.next.toNat then { byte := str.headD 0, pred := s.lzw.prev } else s.dictAt e := by
  rw [State.withString, State.dictAt_setPrev, State.dictAt_addEntry (State.emit_wf str hm),
    State.emit_lzw, State.dictAt_emit]

theorem State.withString_next {s : State} (h : s.lzw.next.toNat < 4096) (str : List Byte) (c : BitVec 12) :
    (s.withString str c).lzw.next.toNat = s.lzw.next.toNat + 1 :=
  ofNat13_toNat (n := s.lzw.next.toNat + 1) (by omega)

theorem State.withString_width (s : State) (str : List Byte) (c : BitVec 12) :
    (s.withString str c).lzw.width.toNat =
      if s.lzw.next.toNat + 1 ≥ 2 ^ s.lzw.width.toNat ∧ s.lzw.width.toNat < 12
      then s.lzw.width.toNat + 1 else s.lzw.width.toNat := s.grownWidth_toNat

/-- The string of a code touches IDX, DICT, IDX_LEN, NEXT, WIDTH and PREV alone. -/
theorem State.withString_frame (s : State) (str : List Byte) (c : BitVec 12) :
    { s.withString str c with
        idxLen := s.idxLen,
        lzw := { (s.withString str c).lzw with
                   next := s.lzw.next, width := s.lzw.width, prev := s.lzw.prev },
        mem := { (s.withString str c).mem with idx := s.mem.idx, dict := s.mem.dict } } = s := by
  simp [State.withString]

theorem execKnown_fullDict {s : State} (h : s.lzw.next.toNat = 4096) (c : BitVec 12) :
    execKnown c s = .next (s.errorEntry .dictOverflow (word s.codeStart) (word c.toNat)) :=
  if_pos h

theorem execKnown_translates {s : State} {c : BitVec 12} {str : List Byte} (hnext : s.lzw.next.toNat < 4096)
    (h : s.translate c.toNat = some str) : execKnown c s = decodeString str c s := by
  rw [execKnown, if_neg (show s.lzw.next.toNat ≠ 4096 from hnext.ne), h]

theorem execKwkwk_translates {s : State} {str : List Byte} (h : s.translate s.lzw.prev.toNat = some str) :
    execKwkwk s = decodeString (str ++ [str.headD 0]) (BitVec.ofNat 12 s.lzw.next.toNat) s := by
  rw [execKwkwk, h]

/-! ## The statements -/

/-- Settles O32: the checks one after the other, then the fields `startDecode` sets; the legal MCS and CAP_IDX
keep the narrowed values exact. -/
theorem lzwDecodeChecksThenInitialises : Obligations.LzwDecodeChecksThenInitialises := by
  intro s
  refine ⟨fun hcbuf => lzwBody_noCbuf hcbuf false, fun hcbuf hmcs => lzwBody_badMcs hcbuf hmcs false,
    fun hcbuf hlow hhigh hbeyond => ?_, fun hcbuf hlow hhigh hfits => ?_⟩
  · exact (lzwBody_legalMcs hcbuf hlow hhigh false).trans (if_pos hbeyond)
  · have hpow := two_pow_le_of_le_eight hhigh
    exact ⟨s.startDecode false, (lzwBody_legalMcs hcbuf hlow hhigh false).trans (if_neg (Nat.not_lt.2 hfits)),
      ofNat4_toNat (by omega), ofNat4_toNat (by omega), ofNat13_toNat (by omega), rfl, rfl,
      word_toNat (hfits.trans_lt s.caps.idx.isLt), rfl, rfl, rfl, s.startDecode_frame false, rfl⟩

/-- Settles O33: both clear codes reset WIDTH and NEXT from MCS_L and enter AFTER_CLEAR. -/
theorem clearCodesResetTheCodeSpace : Obligations.ClearCodesResetTheCodeSpace := by
  intro s i hi _ hhigh
  exact ⟨s.resetDict.toPhase .afterClear, exec_clear hi s, State.resetDict_width_toNat hhigh,
    State.resetDict_next_toNat hhigh, rfl, rfl⟩

/-- Settles O34: each phase's rejection by `decodeCode`, raised after `take` at the code's start. -/
theorem illegalCodesRaiseTheirErrors : Obligations.IllegalCodesRaiseTheirErrors := by
  intro s image hp hbits hlen c s1
  have hstart : s1.codeStart = s.brPos.toNat := State.codeStart_advanceBits hbits hlen
  have hraise (code : ErrCode) :
      raise code s1.codeStart c s1 = .next (s1.errorEntry code s.brPos (word c)) := by
    rw [raise_eq, hstart, word_toNat_self]
  refine ⟨fun hphase hc => ?_, fun hphase hc => ?_, fun hphase hnext hclear heoi => ?_⟩
  · exact (coreStep_illegalCode hp hbits (decodeCode_firstNotClear hphase hc)).trans (hraise _)
  · exact (coreStep_illegalCode hp hbits (decodeCode_afterClearNotBase hphase hc)).trans (hraise _)
  · exact (coreStep_illegalCode hp hbits (decodeCode_codeBeyondNext hphase hnext hclear heoi)).trans (hraise _)

/-- Settles O37: the two traps in order, then the code's string and the entry `withString` adds. -/
theorem knownEmitsAndAddsAnEntry : Obligations.KnownEmitsAndAddsAnEntry := by
  intro s c hm
  refine ⟨fun hfull _ => execKnown_fullDict hfull c, fun str hnext hstr hlong => ?_,
    fun str hnext hstr hfits => ?_⟩
  · exact (execKnown_translates hnext hstr).trans (decodeString_long hlong)
  · obtain ⟨b, rest, rfl⟩ := List.exists_cons_of_ne_nil (State.translate_ne_nil hstr)
    exact ⟨s.withString (b :: rest) c, b, rest,
      (execKnown_translates hnext hstr).trans (decodeString_withString hfits), rfl,
      State.withString_idxLen hfits c, fun _ hj => State.idxAt_withString_inside hm _ c hj,
      fun _ hk => State.idxAt_withString_outside hm c hk, State.dictAt_withString hm _ c,
      State.withString_next hnext _ c, s.withString_width _ c, rfl, s.withString_frame _ c⟩

/-- Settles O38: as KNOWN, with PREV's string and its first byte again as the string of the code NEXT. -/
theorem kwkwkExtendsThePreviousString : Obligations.KwkwkExtendsThePreviousString := by
  intro s t0 hm hnext ht0
  obtain ⟨b, rest, rfl⟩ := List.exists_cons_of_ne_nil (State.translate_ne_nil ht0)
  have hlength : ((b :: rest) ++ [b]).length = (b :: rest).length + 1 := List.length_append
  rw [← hlength]
  refine ⟨fun hlong => (execKwkwk_translates ht0).trans (decodeString_long hlong), fun hfits => ?_⟩
  have hinside (j : Nat) (hj : j < ((b :: rest) ++ [b]).length) :=
    State.idxAt_withString_inside hm _ (BitVec.ofNat 12 s.lzw.next.toNat) hj
  refine ⟨s.withString ((b :: rest) ++ [b]) (BitVec.ofNat 12 s.lzw.next.toNat), b, rest,
    (execKwkwk_translates ht0).trans (decodeString_withString hfits), rfl,
    State.withString_idxLen hfits _, fun j hj => ?_, ?_,
    fun _ hk => State.idxAt_withString_outside hm _ hk, State.dictAt_withString hm _ _,
    State.withString_next hnext _ _, s.withString_width _ _, ofNat12_toNat hnext, s.withString_frame _ _⟩
  · rw [hinside j (by omega), List.getElem_append_left hj]
  · rw [hinside _ (by omega), List.getElem_concat_length rfl]

end Sys2Proof.Machine
end

section
/-! PROOFS about the Frame Compositor (43_compositor.md): the passes of the row map (R195, R196), COMPOSE's checks
(R193, R194), and the snapshot, the canvas and the frame it leaves (R197 to R206). -/

namespace Sys2Proof.Machine

/-! ## The passes of the row map -/

/-- The four passes together hold every row (43_compositor.md R196). -/
theorem passRows_total (h : Nat) :
    passRows h 0 8 + passRows h 4 8 + passRows h 2 4 + passRows h 1 2 = h := by
  unfold passRows
  split_ifs <;> omega

theorem rowmapFrom_inside {h start stride k : Nat} (ps : List (Nat × Nat)) (hk : k < passRows h start stride) :
    rowmapFrom h ((start, stride) :: ps) k = start + k * stride := if_pos hk

/-- Past a whole pass the map goes on with the passes after it. -/
theorem rowmapFrom_past (h start stride : Nat) (ps : List (Nat × Nat)) (k : Nat) :
    rowmapFrom h ((start, stride) :: ps) (passRows h start stride + k) = rowmapFrom h ps k := by
  rw [rowmapFrom, if_neg (Nat.not_lt.2 (Nat.le_add_right _ _)), Nat.add_sub_cancel_left]

/-! ## What COMPOSE's checks ask -/

/-- The codes 0 to 3 and no others name a method (30_encoding.md R95). -/
theorem disposalOf_isSome (d : BitVec 3) : (disposalOf d).isSome = true ↔ d.toNat ≤ 3 := by
  revert d
  decide

theorem disposalOf_eq_none {d : BitVec 3} (h : 3 < d.toNat) : disposalOf d = none :=
  Option.not_isSome_iff_eq_none.1 (mt (disposalOf_isSome d).1 (Nat.not_le.2 h))

theorem disposalOf_eq_some {d : BitVec 3} (h : d.toNat ≤ 3) : ∃ m, disposalOf d = some m :=
  Option.isSome_iff_exists.1 ((disposalOf_isSome d).2 h)

theorem State.beyond_eq_true {s : State}
    (h : s.op.frmPos.left.toNat + s.op.frmSize.w.toNat > s.docSize.w.toNat ∨
      s.op.frmPos.top.toNat + s.op.frmSize.h.toNat > s.docSize.h.toNat) :
    (s.beyondRight || s.beyondBottom) = true := by
  simpa [State.beyondRight, State.beyondBottom] using h

theorem State.beyond_eq_false {s : State}
    (hright : s.op.frmPos.left.toNat + s.op.frmSize.w.toNat ≤ s.docSize.w.toNat)
    (hbottom : s.op.frmPos.top.toNat + s.op.frmSize.h.toNat ≤ s.docSize.h.toNat) :
    (s.beyondRight || s.beyondBottom) = false := by
  simpa [State.beyondRight, State.beyondBottom] using ⟨hright, hbottom⟩

theorem State.firstOutOfRange_eq_some {s : State} {k : Nat} (hk : k < s.idxLen.toNat)
    (hout : s.ctLen ≤ (s.idxAt k).toNat) (hbefore : ∀ j, j < k → (s.idxAt j).toNat < s.ctLen) :
    s.firstOutOfRange = some k := by
  simpa [State.firstOutOfRange, List.find?_range_eq_some, hk, hout] using hbefore

theorem Position.pack_eq (p : Position) : p.pack = word (p.top.toNat * 2 ^ 16 + p.left.toNat) := by
  rw [Position.pack, halves, Nat.add_comm, Nat.mul_comm]

/-! ## The outcomes of COMPOSE's checks -/

theorem composeBody_noDocument {s : State} (h : s.status.docOpen = false) :
    composeBody s = .next (s.errorEntry .sequence 0x05 1) := if_pos h

theorem composeBody_noFrame {s : State} (hdoc : s.status.docOpen = true) (h : s.status.idxValid = false) :
    composeBody s = .next (s.errorEntry .sequence 0x05 2) := by
  rw [composeBody, if_neg (by simp [hdoc]), if_pos h]
  rfl

section Validation
variable {s : State} (hdoc : s.status.docOpen = true) (hidx : s.status.idxValid = true)
include hdoc hidx

theorem composeBody_badDisposal (h : disposalOf s.op.frmCtrl.disposal = none) :
    composeBody s = .next (s.errorEntry .badDisposal (word s.op.frmCtrl.disposal.toNat) 0) := by
  simp only [composeBody, hdoc, hidx, h, Bool.true_eq_false, if_false]
  rfl

variable {d : Disposal} (hmethod : disposalOf s.op.frmCtrl.disposal = some d)
include hmethod

theorem composeBody_beyondCanvas (h : (s.beyondRight || s.beyondBottom) = true) :
    composeBody s = .next (s.errorEntry .frameBounds s.op.frmPos.pack
      (word (bit s.beyondRight + 2 * bit s.beyondBottom))) := by
  simp only [composeBody, hdoc, hidx, hmethod, h, Bool.true_eq_false, if_false, if_true, raise_eq, word_toNat_self]

variable (hinside : (s.beyondRight || s.beyondBottom) = false)
include hinside

theorem composeBody_badLength (h : s.idxLen.toNat ≠ s.op.frmSize.area) :
    composeBody s = .next (s.errorEntry .length s.idxLen (word s.op.frmSize.area)) := by
  simp only [composeBody, hdoc, hidx, hmethod, hinside, Bool.true_eq_false, Bool.false_eq_true, if_false, if_pos h,
    raise_eq, word_toNat_self]

theorem composeBody_badIndex (hlength : s.idxLen.toNat = s.op.frmSize.area) {k : Nat}
    (h : s.firstOutOfRange = some k) :
    composeBody s = .next (s.errorEntry .pixelRange (word k) (word (s.idxAt k).toNat)) := by
  simp only [composeBody, hdoc, hidx, hmethod, hinside, hlength, h, ne_eq, not_true_eq_false, Bool.true_eq_false,
    Bool.false_eq_true, if_false, raise_eq]

end Validation

/-! ## The frame rectangle and what COMPOSE touches -/

theorem ComposeReady.inFrame_lt {s : State} {d : Disposal} (hr : ComposeReady s d) {a : Nat}
    (ha : s.inFrame a) : a < s.docSize.area := by
  obtain ⟨x, r, hx, hrow, rfl⟩ := ha
  exact State.frameCell_lt hr.right hr.bottom hx hrow

/-- SAVE outside the frame rectangle, and all of it under the other methods (43_compositor.md R198). -/
theorem State.saveAt_savePreFrame_other {s : State} (hm : s.mem.wf = true) (d : Disposal) {a : Nat}
    (h : ¬ (d = .restorePrevious ∧ s.inFrame a)) : (s.savePreFrame d).saveAt a = s.saveAt a := by
  cases d
  case restorePrevious => exact (State.saveAt_savePreFrame_previous hm a).2 fun ha => h ⟨rfl, ha⟩
  all_goals rfl

/-- No disposal method reaches a canvas cell outside the frame rectangle. -/
theorem State.canvasAt_composite_other {s : State} (hm : s.mem.wf = true) (d : Disposal) {a : Nat}
    (ha : ¬ s.inFrame a) : (s.composite d).canvasAt a = s.canvasAt a := by
  have hdrawn := State.canvasAt_drawFrame_other hm ha
  obtain ⟨hnone, hkeep, -, hbackground, hprevious⟩ := State.canvasAt_composite hm a
  cases d
  case none => exact hnone.trans hdrawn
  case doNotDispose => exact hkeep.trans hdrawn
  case restoreBackground => exact hbackground ha
  case restorePrevious => exact hprevious

/-- COMPOSE touches the three pixel memories, the count, SNAP_DELAY, STATUS and what runs next alone. -/
theorem State.complete_composite_frame (s : State) (d : Disposal) :
    { (s.composite d).complete with
        frameCount := s.frameCount, snapDelay := s.snapDelay, status := s.status, pending := s.pending,
        mem := { (s.composite d).complete.mem with
                   canvas := s.mem.canvas, save := s.mem.save, snap := s.mem.snap } } = s := by
  simp

/-! ## The statements -/

/-- Settles O43: the passes one after the other by `rowmapFrom_past`; the bijection is that of the closed form. -/
theorem rowMapIsABijection : Obligations.RowMapIsABijection := by
  intro h n0 n1 n2 n3
  have past0 (k : Nat) : rowmap (n0 + k) h = rowmapFrom h [(4, 8), (2, 4), (1, 2)] k :=
    rowmapFrom_past h 0 8 _ k
  have past1 (k : Nat) : rowmap (n0 + n1 + k) h = rowmapFrom h [(2, 4), (1, 2)] k := by
    rw [Nat.add_assoc, past0]
    exact rowmapFrom_past h 4 8 _ k
  have past2 (k : Nat) : rowmap (n0 + n1 + n2 + k) h = rowmapFrom h [(1, 2)] k := by
    rw [Nat.add_assoc, past1]
    exact rowmapFrom_past h 2 4 _ k
  refine ⟨passRows_total h, fun k hk => rowmapFrom_inside _ hk, fun k hk => (past0 k).trans (rowmapFrom_inside _ hk),
    fun k hk => (past1 k).trans (rowmapFrom_inside _ hk), fun k hk => (past2 k).trans (rowmapFrom_inside _ hk),
    fun r hr => rowmap_lt hr, fun y hy => ?_⟩
  obtain ⟨r, hr, rfl⟩ := rowmap_surj hy
  exact ⟨r, ⟨hr, rfl⟩, fun r' ⟨hr', he⟩ => rowmap_inj hr' hr he⟩

/-- Settles O44: each check's outcome under the passing of those before it. -/
theorem composeChecksInOrder : Obligations.ComposeChecksInOrder := by
  intro s L U fw fh W H d
  refine ⟨composeBody_noDocument, composeBody_noFrame, fun hdoc hidx => ⟨fun hd => ?_, fun hd hbeyond => ?_,
    fun hd hright hbottom hlength => ?_, fun hd hright hbottom hlength k hk hout hbefore => ?_⟩⟩
  · exact composeBody_badDisposal hdoc hidx (disposalOf_eq_none hd)
  · obtain ⟨m, hmethod⟩ := disposalOf_eq_some hd
    have h := composeBody_beyondCanvas hdoc hidx hmethod (State.beyond_eq_true hbeyond)
    simp only [Position.pack_eq, bit, State.beyondRight, State.beyondBottom, decide_eq_true_eq] at h
    exact h
  · obtain ⟨m, hmethod⟩ := disposalOf_eq_some hd
    exact composeBody_badLength hdoc hidx hmethod (State.beyond_eq_false hright hbottom) hlength
  · obtain ⟨m, hmethod⟩ := disposalOf_eq_some hd
    exact composeBody_badIndex hdoc hidx hmethod (State.beyond_eq_false hright hbottom) hlength
      (State.firstOutOfRange_eq_some hk hout hbefore)

/-- Settles O45: within the document SNAP holds the drawn canvas (`snapAt_composite`), whose cells are those of
`canvasAt_drawFrame_pixel`. -/
theorem composeSnapshotShowsTheFrame : Obligations.ComposeSnapshotShowsTheFrame := by
  intro s d hm hr
  have hsnap := State.snapAt_composite hm d
  refine ⟨(s.composite d).complete, composeBody_ready hr, s.composite_snapDelay d,
    congrArg Status.snapValid (s.composite_status d), fun x r hx hrow => ?_,
    fun a ha hout => (hsnap a).trans ((if_pos ha).trans (State.canvasAt_drawFrame_other hm hout)),
    fun a ha => (hsnap a).trans (if_neg (Nat.not_lt.2 ha))⟩
  have hlt := State.frameCell_lt hr.right hr.bottom hx (State.drawnRow_lt hrow)
  have hpixel := (hsnap _).trans ((if_pos hlt).trans (State.canvasAt_drawFrame_pixel hm hr.right hx hrow))
  simp only [State.transparent, Bool.and_eq_true, decide_eq_true_eq] at hpixel
  exact hpixel

/-- Settles O46: `canvasAt_composite`, method by method; the frame rectangle lies within the document. -/
theorem composeDisposalPreparesTheCanvas : Obligations.ComposeDisposalPreparesTheCanvas := by
  intro s d hm hr
  refine ⟨(s.composite d).complete, composeBody_ready hr, fun hd a ha => ?_, ?_, ?_, fun a ha => ?_⟩
  · have hsnap : (s.composite d).snapAt a = s.drawFrame.canvasAt a :=
      (State.snapAt_composite hm d a).trans (if_pos ha)
    obtain ⟨hnone, hkeep, -⟩ := State.canvasAt_composite hm a
    rcases hd with rfl | rfl
    · exact hnone.trans hsnap.symm
    · exact hkeep.trans hsnap.symm
  · rintro rfl a -
    obtain ⟨-, -, hinside, houtside, -⟩ := State.canvasAt_composite hm a
    exact ⟨hinside, houtside⟩
  · rintro rfl a
    obtain ⟨-, -, -, -, hprevious⟩ := State.canvasAt_composite hm a
    exact hprevious
  · exact State.canvasAt_composite_other hm d fun hin => Nat.not_lt.2 ha (hr.inFrame_lt hin)

/-- Settles O47: only the pre-frame save writes SAVE (`saveAt_composite`), the rest is `complete_composite_frame`. -/
theorem composeFrameAndCompletion : Obligations.ComposeFrameAndCompletion := by
  intro s d hm hr
  have hsave : ∀ a, (s.composite d).complete.saveAt a = (s.savePreFrame d).saveAt a := s.saveAt_composite d
  refine ⟨(s.composite d).complete, composeBody_ready hr, ?_, ?_, rfl, fun a => ?_, ?_,
    s.complete_composite_frame d⟩
  · rw [State.complete_frameCount, State.composite_frameCount, ← word_add_one]
    exact BitVec.eq_of_toNat_eq (by simp [word])
  · rw [State.complete_status, State.composite_status]
  · by_cases h : d = .restorePrevious ∧ s.inFrame a
    · exact .inr h
    · exact .inl ((hsave a).trans (State.saveAt_savePreFrame_other hm d h))
  · rintro rfl a ha
    exact (hsave a).trans ((State.saveAt_savePreFrame_previous hm a).1 ha)

end Sys2Proof.Machine
end

section
/-! PROOFS about the Control Unit (44_control.md): the first core step of a command word that names no command
(R238). -/

namespace Sys2Proof.Machine

/-! ## A command word that names no command -/

/-- END_DOC has the last opcode; a word beyond it names no command (30_encoding.md R92, R93). -/
theorem decodeCommand_beyondEndDoc {v : Word} (h : 0x08 ≤ v.toNat) :
    decodeCommand v = .error (.badCommand v) := by
  unfold decodeCommand
  split
  case h_9 => rfl
  all_goals omega

/-- A reserved bit set or an opcode beyond END_DOC: either way the word's value is beyond END_DOC's. -/
theorem le_toNat_of_illegalFields {v : Word}
    (h : (v.extractLsb' 8 24).toNat ≠ 0 ∨ (v.extractLsb' 0 8).toNat ≥ 0x08) : 0x08 ≤ v.toNat := by
  rcases h with hreserved | hopcode
  · exact le_trans (by decide) (le_of_reservedBits hreserved)
  · rw [BitVec.extractLsb'_toNat, Nat.shiftRight_zero] at hopcode
    exact hopcode.trans (Nat.mod_le _ _)

/-- A word the decoder rejects runs for one instruction, whatever the list of paces says. -/
theorem State.pace_rejected {s : State} {v : Word} {r : Reject} (hp : s.pending = .word v)
    (hv : decodeCommand v = .error r) : s.pace = 1 := by
  have hillegal : s.pending.illegal = true := by simp only [Pending.illegal, hp, hv]
  exact if_pos hillegal

/-- The core's turn on a word the decoder rejects is the error entry (44_control.md R238). -/
theorem coreTurn_rejected {s : State} {v : Word} {r : Reject} (hp : s.pending = .word v)
    (hv : decodeCommand v = .error r) : coreTurn s = .next (s.popPace.errorEntry .badCmd v 0) := by
  have hrunning : s.pending ≠ .none := by simp [hp]
  rw [coreTurn_one hrunning (State.pace_rejected hp hv), coreStep_word (s.popPace_pending.trans hp), hv]

/-- Settles O7: the core moves, and the word it has is one the decoder rejects. -/
theorem illegalCommandWordRaisesBadCmd : Obligations.IllegalCommandWordRaisesBadCmd := by
  intro s v hmover hp hillegal
  have hv := decodeCommand_beyondEndDoc (le_toNat_of_illegalFields hillegal)
  exact (step_core hmover).trans (coreTurn_rejected (s.popTurn_pending.trans hp) hv)

end Sys2Proof.Machine
end

section
/-! PROOFS about the exceptions (60_exceptions.md): what the error entry writes and leaves (R268), and the bit
overrun of a code step (R256). -/

namespace Sys2Proof.Machine

/-! ## The error entry -/

/-- The error entry touches the error registers, STATUS and the pending command alone. -/
theorem State.errorEntry_frame (s : State) (c : ErrCode) (info aux : Word) :
    { s.errorEntry c info aux with err := s.err, status := s.status, pending := s.pending } = s := rfl

/-! ## The statements -/

/-- Settles O31: too few bits is the first outcome of `coreStep_code`, taken in the state before `take`. -/
theorem shortStreamRaisesBitOverrun : Obligations.ShortStreamRaisesBitOverrun :=
  fun _ _ hp hshort => (coreStep_code hp).trans (if_pos hshort)

/-- Settles O8: the flags are those of `errorEntry_status`, which leaves WBUSY, and `errorEntry_frame` is the
rest. -/
theorem errorEntryRecordsAndVoids : Obligations.ErrorEntryRecordsAndVoids := by
  intro s c info aux t
  have hstatus : t.status = _ := s.errorEntry_status c info aux
  refine ⟨s.errorEntry_err c info aux, ?_, ?_, ?_, ?_, ?_, ?_, ?_, s.errorEntry_pending c info aux, ?_,
    s.errorEntry_frame c info aux⟩ <;> rw [hstatus]

end Sys2Proof.Machine
end

section
/-! PROOFS about reset (70_reset_and_hazards.md): what the registers read after one (R281, R282), and what
SOFT_RESET restores and keeps (R284). -/

namespace Sys2Proof.Machine

/-! ## A line held low and a document of no pixels -/

/-- With interrupts disabled the line is low, whatever the flags (60_exceptions.md R274). -/
theorem State.irq_disabled {s : State} (h : s.irqEn = false) : s.irq = false := by
  rw [State.irq, h, Bool.false_and]

/-- A document of no pixels shows none (20_memory.md R64). -/
theorem State.readSnap_noPixels {s : State} (h : s.docSize.area = 0) (a : Nat) : s.readSnap a = 0 := by
  have hbeyond : ¬ a < 4 * s.docSize.area := by omega
  exact if_neg hbeyond

/-! ## The registers after a reset -/

/-- The line is low after a reset, on any memories, capacities and surroundings. -/
theorem State.irq_resetOn (c : Caps) (m : Memory) (e : Env) : (State.resetOn c m e).irq = false :=
  State.irq_disabled rfl

/-- No flag is set after a reset, so STATUS shows none: it shows the stored holdings, as the block is not busy. -/
theorem State.statusWord_resetOn (c : Caps) (m : Memory) (e : Env) : (State.resetOn c m e).statusWord = 0 := by
  have hstatus : (State.resetOn c m e).status = Status.reset := rfl
  have hheld : (State.resetOn c m e).heldSeen = Status.reset.holdings := if_neg Bool.false_ne_true
  rw [State.statusWord, hheld, hstatus, State.irq_resetOn]
  rfl

/-- Every register that is no constant of the implementation reads 0 after a reset, on any memories, capacities
and surroundings (70_reset_and_hazards.md R281). -/
theorem State.regWord_resetOn {r : Reg} (hid : r ≠ .id) (hsrc : r ≠ .capSrc) (hcbuf : r ≠ .capCbuf)
    (hidx : r ≠ .capIdx) (hcanvas : r ≠ .capCanvas) (c : Caps) (m : Memory) (e : Env) :
    (State.resetOn c m e).regWord r = 0 := by
  cases r
  case id | capSrc | capCbuf | capIdx | capCanvas => contradiction
  case status => exact State.statusWord_resetOn c m e
  all_goals rfl

/-! ## SOFT_RESET -/

/-- SOFT_RESET's meaning is its restore alone (44_control.md R235). -/
theorem exec_softReset_eq (s : State) : exec .softReset s = .next s.softReset := rfl

/-- The document has no pixels after SOFT_RESET, so SNAP shows none of those it keeps. -/
theorem State.readSnap_softReset (s : State) (a : Nat) : s.softReset.readSnap a = 0 := by
  have harea : s.softReset.docSize.area = 0 := by rw [State.softReset_docSize]; rfl
  exact State.readSnap_noPixels harea a

/-! ## The statements -/

/-- Settles O10: the next state is `softReset`, whose field lemmas give each clause; SNAP reads 0 as the document
has no size. -/
theorem softResetRestoresRegistersAndKeepsMemory : Obligations.SoftResetRestoresRegistersAndKeepsMemory :=
  fun s => ⟨s.softReset, exec_softReset_eq s, s.softReset_status, s.softReset_irqEn, s.softReset_err,
    s.softReset_op, s.softReset_srcPtr, s.softReset_cbufLen, s.softReset_idxLen, s.softReset_frameCount,
    s.softReset_snapDelay, s.softReset_docSize, s.softReset_brPos, s.softReset_lzw, s.softReset_pending,
    s.softReset_mem, s.softReset_caps, s.softReset_env, s.readSnap_softReset⟩

/-- Settles O12: the constants read what they hold, every other register is `regWord_resetOn`, and a reserved
offset reads 0 in every state. -/
theorem resetLeavesTheTabledValues : Obligations.ResetLeavesTheTabledValues := by
  refine ⟨rfl, fun r hid hsrc hcbuf hidx hcanvas => ?_, rfl, rfl, rfl, rfl, fun offset hreserved => ?_, rfl, ?_,
    rfl⟩
  · exact State.regWord_resetOn hid hsrc hcbuf hidx hcanvas _ _ _
  · exact State.readRegs_reserved hreserved State.reset
  · exact State.irq_resetOn _ _ _

end Sys2Proof.Machine
end

section
/-! PROOFS about the encodings (30_encoding.md): the opcode map and the legal command words (R92), and the two
round trips of decoder and encoder (R90 to R101). -/

namespace Sys2Proof

/-! ## Command words -/

/-- The words that name a command are those up to END_DOC's (30_encoding.md R92, R93). -/
theorem decodeCommand_legal_iff (v : Word) : (∃ i, decodeCommand v = .ok i) ↔ v.toNat ≤ 7 := by
  constructor
  · rintro ⟨i, hi⟩
    by_contra hbeyond
    rw [Machine.decodeCommand_beyondEndDoc (by omega)] at hi
    cases hi
  · intro hle
    have hcases : v.toNat = 0 ∨ v.toNat = 1 ∨ v.toNat = 2 ∨ v.toNat = 3 ∨ v.toNat = 4 ∨ v.toNat = 5 ∨
        v.toNat = 6 ∨ v.toNat = 7 := by omega
    rcases hcases with h | h | h | h | h | h | h | h <;> exact ⟨_, by rw [decodeCommand, h]; rfl⟩

/-- The low byte holds the opcode, and the bits above it are reserved (30_encoding.md R92). -/
theorem le_seven_iff_fields (v : Word) :
    v.toNat ≤ 7 ↔ (v.extractLsb' 8 24).toNat = 0 ∧ (v.extractLsb' 0 8).toNat ≤ 0x07 := by
  simp only [BitVec.extractLsb'_toNat, Nat.shiftRight_eq_div_pow]
  omega

/-- A command word is the encoding of the command it names. -/
theorem encode_of_decodeCommand {v : Word} {i : Instr} (h : decodeCommand v = .ok i) (k : CodeCtx) :
    i.wfIn k = true ∧ encode k i = .cmd32 v := by
  unfold decodeCommand at h
  split at h
  case h_9 => cases h
  all_goals
    next hv =>
      cases h
      exact ⟨rfl, congrArg Encoded.cmd32 (BitVec.eq_of_toNat_eq hv.symm)⟩

/-! ## Length bytes -/

theorem decodeLength_of_ne_zero {n : Byte} (h : n ≠ 0) : decodeLength n = .sbData n := if_neg h

theorem encode_decodeLength (k : CodeCtx) (n : Byte) :
    (decodeLength n).wfIn k = true ∧ encode k (decodeLength n) = .sb8 n := by
  by_cases h : n = 0
  · subst h; exact ⟨rfl, rfl⟩
  · rw [decodeLength_of_ne_zero h]
    exact ⟨by simpa [Instr.wfIn] using h, rfl⟩

/-! ## Codes -/

theorem bitsValue_div_two (b : Bool) (bs : List Bool) : bitsValue (b :: bs) / 2 = bitsValue bs := by
  have := Machine.bit_le_one b
  rw [bitsValue]
  omega

/-- Bit `k` of the number that bits spell is the `k`-th of them, and 0 beyond them (30_encoding.md R99). -/
theorem testBit_bitsValue (bs : List Bool) (k : Nat) : (bitsValue bs).testBit k = bs.getD k false := by
  induction bs generalizing k with
  | nil => simp [bitsValue]
  | cons b bs ih =>
    cases k with
    | zero => cases b <;> simp [bitsValue, bit, Nat.testBit_zero, Nat.add_mod]
    | succ k => rw [Nat.testBit_succ, bitsValue_div_two, ih, List.getD_cons_succ]

/-- The bits of a code are the encoding of the number they spell. -/
theorem codeBits_bitsValue (bs : List Bool) : codeBits bs.length (bitsValue bs) = bs := by
  refine List.ext_getElem (codeBits_length _ _) fun k _ hk => ?_
  simp only [codeBits, List.getElem_map, List.getElem_range, testBit_bitsValue]
  exact List.getD_eq_getElem _ _ hk

/-- A code that decodes at a legal point is the number its instruction encodes, and meets the conditions of its
row (30_encoding.md R100). -/
theorem encode_of_decodeCode {k : CodeCtx} {c : Nat} {i : Instr} (hk : k.ok = true) (hc : c < 2 ^ k.width)
    (h : decodeCode k c = .ok i) : i.wfIn k = true ∧ encode k i = .lzwc (codeBits k.width c) := by
  simp only [CodeCtx.ok, Bool.and_eq_true, decide_eq_true_eq] at hk
  obtain ⟨⟨⟨⟨⟨⟨-, -⟩, -⟩, hwidth⟩, heoi⟩, hnext⟩, -⟩ := hk
  have hpow : 2 ^ k.width ≤ 2 ^ 12 := Nat.pow_le_pow_right Nat.two_pos hwidth
  have hcode : (BitVec.ofNat 12 c).toNat = c := Machine.ofNat12_toNat (by omega)
  unfold decodeCode at h
  split at h
  next hphase =>
    split at h
    next heq => cases h; subst heq; simp [Instr.wfIn, encode, CodeCtx.fits, hphase, hc]
    · cases h
  next hphase =>
    split at h
    next hbase => cases h; simp [Instr.wfIn, encode, CodeCtx.fits, hphase, hc, hcode, hbase]
    · cases h
  next hphase =>
    split at h
    next heq => cases h; subst heq; simp [Instr.wfIn, encode, CodeCtx.fits, hphase, hc]
    next hne =>
    split at h
    next heq => cases h; subst heq; simp [Instr.wfIn, encode, CodeCtx.fits, hphase, hc]
    next hnc =>
    split at h
    next hlt => cases h; simp [Instr.wfIn, encode, CodeCtx.fits, hphase, hc, hcode, hlt, hne, hnc]
    split at h
    next heq =>
      cases h
      subst heq
      simp only [Instr.wfIn, encode, CodeCtx.fits, Config.dictSize, Bool.and_eq_true, decide_eq_true_eq]
      exact ⟨⟨⟨⟨hphase, by omega⟩, by omega⟩, hc⟩, trivial⟩
    · cases h
  · cases h
  · cases h

/-! ## The statements -/

/-- Settles O1: commands and length bytes by their table; a code that fits its width reads back as itself
(`decode_codeBits`), and the conditions of its row select its class. -/
theorem decodeOfEncodeIsIdentity : Obligations.DecodeOfEncodeIsIdentity := by
  intro k i h
  cases i <;> simp only [Instr.wfIn, Bool.and_eq_true, decide_eq_true_eq] at h
  case nop | softReset | beginDoc | assemble | lzwDecode | compose | image | endDoc | sbTerm => rfl
  case sbData n => exact congrArg Except.ok (decodeLength_of_ne_zero (by simpa using h))
  case clearFirst =>
    obtain ⟨hphase, hfits⟩ := h
    rw [encode, decode_codeBits hfits]
    simp [decodeCode, hphase]
  case baseAfterClear c =>
    obtain ⟨⟨hphase, hbase⟩, hfits⟩ := h
    rw [encode, decode_codeBits hfits]
    simp [decodeCode, hphase, hbase]
  case eoi =>
    obtain ⟨hphase, hfits⟩ := h
    rw [encode, decode_codeBits hfits]
    simp [decodeCode, hphase]
  case clear =>
    obtain ⟨hphase, hfits⟩ := h
    rw [encode, decode_codeBits hfits]
    simp [decodeCode, hphase, CodeCtx.eoi]
  case known c =>
    obtain ⟨⟨⟨⟨hphase, hlive⟩, hclear⟩, heoi⟩, hfits⟩ := h
    rw [encode, decode_codeBits hfits]
    simp [decodeCode, hphase, hlive, hclear, heoi]
  case kwkwk =>
    obtain ⟨⟨⟨hphase, heoi⟩, -⟩, hfits⟩ := h
    have hclear : k.clear < k.next := (Nat.lt_succ_self _).trans heoi
    rw [encode, decode_codeBits hfits]
    simp [decodeCode, hphase, heoi.ne', hclear.ne']

/-- Settles O2: each format's decoder names an instruction that encodes to the bits it was given. -/
theorem encodeOfDecodeIsIdentity : Obligations.EncodeOfDecodeIsIdentity := by
  intro k e i hk h
  cases e with
  | cmd32 v => exact encode_of_decodeCommand h k
  | sb8 n =>
    cases h
    exact encode_decodeLength k n
  | lzwc bits =>
    rw [decode] at h
    split at h
    next hlen =>
      have hc : bitsValue bits < 2 ^ k.width := hlen ▸ Machine.bitsValue_lt bits
      obtain ⟨hwf, henc⟩ := encode_of_decodeCode hk hc h
      exact ⟨hwf, henc.trans (by rw [← hlen, codeBits_bitsValue])⟩
    · cases h

/-- Settles O3: the map is the decoder's table, and `le_seven_iff_fields` reads its bound off the fields. -/
theorem commandWordsAreTheOpcodeMap : Obligations.CommandWordsAreTheOpcodeMap :=
  ⟨⟨rfl, rfl, rfl, rfl, rfl, rfl, rfl, rfl⟩,
    fun v => (decodeCommand_legal_iff v).trans (le_seven_iff_fields v)⟩

/-- Settles O4: seven closed evaluations of the decoder. -/
theorem sampleWordsDecode : Obligations.SampleWordsDecode := by
  unfold Obligations.SampleWordsDecode
  decide

end Sys2Proof
end

section
/-! PROOFS about the Bit Reader (41_bitreader.md): the closed form of `take` (R146). -/

namespace Sys2Proof.Machine

/-- The first `n` bytes of CBUF as one little-endian number (41_bitreader.md R146). -/
def State.cbufNumber (s : State) (n : Nat) : Nat :=
  ((List.range n).map fun j => (s.cbufAt j).toNat * 2 ^ (8 * j)).sum

theorem State.cbufNumber_succ (s : State) (n : Nat) :
    s.cbufNumber (n + 1) = 2 ^ (8 * n) * (s.cbufAt n).toNat + s.cbufNumber n := by
  rw [State.cbufNumber, State.cbufNumber, List.range_succ, List.map_append, List.sum_append, List.map_singleton,
    List.sum_singleton, Nat.add_comm, Nat.mul_comm]

theorem State.cbufNumber_lt (s : State) (n : Nat) : s.cbufNumber n < 2 ^ (8 * n) := by
  induction n with
  | zero => exact Nat.one_pos
  | succ n ih =>
    have hbyte : (s.cbufAt n).toNat + 1 ≤ 2 ^ 8 := (s.cbufAt n).isLt
    calc s.cbufNumber (n + 1)
        < 2 ^ (8 * n) * ((s.cbufAt n).toNat + 1) := by rw [s.cbufNumber_succ, Nat.mul_succ]; omega
      _ ≤ 2 ^ (8 * n) * 2 ^ 8 := Nat.mul_le_mul_left _ hbyte
      _ = 2 ^ (8 * (n + 1)) := (Nat.pow_add 2 (8 * n) 8).symm

/-- Bit `q` of that number is bit `q` of the stream (20_memory.md R68). -/
theorem State.testBit_cbufNumber (s : State) {n q : Nat} (hq : q < 8 * n) :
    (s.cbufNumber n).testBit q = s.streamBit q := by
  induction n with
  | zero => omega
  | succ n ih =>
    rw [s.cbufNumber_succ, Nat.testBit_two_pow_mul_add _ (s.cbufNumber_lt n)]
    split
    next hbelow => exact ih hbelow
    next hlast =>
      obtain ⟨hdiv, hmod⟩ : q / 8 = n ∧ q % 8 = q - 8 * n := by omega
      rw [State.streamBit, hdiv, hmod, BitVec.testBit_toNat]

/-- The bits ahead of the cursor spell the field of the number that starts there. -/
theorem State.bitsValue_bitsAhead (s : State) {n w : Nat} (h : s.brPos.toNat + w ≤ 8 * n) :
    bitsValue (s.bitsAhead w) = s.cbufNumber n / 2 ^ s.brPos.toNat % 2 ^ w := by
  have hbits : s.bitsAhead w = (List.range w).map (s.cbufNumber n / 2 ^ s.brPos.toNat).testBit := by
    refine List.map_congr_left fun i hi => ?_
    have hlt := List.mem_range.1 hi
    rw [Nat.testBit_div_two_pow, s.testBit_cbufNumber (by omega), Nat.add_comm]
  rw [hbits, bitsValue_map_testBit]

/-- Settles O30: with enough bits left `take` answers the bits ahead, which `bitsValue_bitsAhead` reads as a
field; a legal CBUF_LEN keeps the cursor from wrapping. -/
theorem takeReadsTheLittleEndianField : Obligations.TakeReadsTheLittleEndianField := by
  intro s w hbits hlen
  refine ⟨s.advanceBits w, ?_, word_toNat (by omega), rfl⟩
  rw [State.take_enough hbits, s.bitsValue_bitsAhead hbits]
  rfl

end Sys2Proof.Machine
end

section
/-! PROOFS about the running decode (42_lzw.md): the strings of live codes and of an added entry (R153 to R155,
R167), the base code after a clear code (R160), EOI (R161, R168), and the decode invariant (R169). -/

namespace Sys2Proof.Machine

/-! ## The strings of live codes -/

/-- `translate` on a code above EOI: the predecessor's string, then the entry's byte, where the chain of the
predecessor ends one link earlier (42_lzw.md R154). -/
theorem walkChain_entry {dict : List (Nat × DictEntry)} {eoi fuel e : Nat} {x : DictEntry} {str : List Byte}
    (he : eoi < e) (hx : Mem.read unwrittenEntry dict e = x)
    (h : walkChain dict eoi fuel x.pred.toNat [] = some str) :
    walkChain dict eoi (fuel + 1) e [] = some (str ++ [x.byte]) := by
  rw [walkChain, if_pos he, hx, ← List.nil_append [x.byte], walkChain_append, h]
  rfl

/-- A live code has a string, by `walkChain_live` at the fuel of `translate`. -/
theorem LzwInv.translate_live {s : State} (hi : LzwInv s) {c : Nat} (hc : s.stringCode c) :
    ∃ str, s.translate c = some str ∧ 1 ≤ str.length ∧ str.length ≤ c - s.eoiCode + 1 ∧
      ∀ b ∈ str, b.toNat < s.clearCode := by
  obtain ⟨str, hwalk, hshort, hlong, hbase⟩ := hi.walkChain_live 4096 c [] (hi.code_lt hc) hc
  exact ⟨str, by rw [State.translate, hwalk, List.append_nil], hshort, hlong, hbase⟩

/-- A live code's chain is short enough to end with one link to spare. -/
theorem LzwInv.walkChain_spare {s : State} (hi : LzwInv s) {c : Nat} (hc : s.stringCode c) (hlt : c < 4095) :
    ∃ str, walkChain s.mem.dict s.eoiCode 4095 c [] = some str ∧ s.translate c = some str := by
  obtain ⟨str, hwalk, -⟩ := hi.walkChain_live 4095 c [] hlt hc
  rw [List.append_nil] at hwalk
  exact ⟨str, hwalk, walkChain_fuel hwalk 1⟩

/-- A base code stands for its own byte (42_lzw.md R153). -/
theorem State.translate_base {s : State} {c : Nat} (hc : c < s.clearCode) :
    s.translate c = some [BitVec.ofNat 8 c] := by
  have heoi := s.eoiCode_eq
  rw [State.translate, Config.dictSize, walkChain, if_neg (by omega)]

/-- An entry stands for its predecessor's string and its byte (42_lzw.md R154). -/
theorem LzwInv.translate_entry {s : State} (hi : LzwInv s) {c : Nat} (hc : s.stringCode c)
    (hentry : s.eoiCode < c) :
    ∃ p, s.translate (s.dictAt c).pred.toNat = some p ∧ s.translate c = some (p ++ [(s.dictAt c).byte]) := by
  obtain ⟨hpred, hlt⟩ := hi.pred_stringCode hc hentry
  have hc4096 := hi.code_lt hc
  obtain ⟨p, hwalk, htrans⟩ := hi.walkChain_spare hpred (by omega)
  exact ⟨p, htrans, walkChain_entry hentry rfl hwalk⟩

/-- Settles O39: the bounds are those of `walkChain_live`, EOI being at least 3; the two kinds of code are
`translate_base` and `translate_entry`. -/
theorem liveCodesTranslate : Obligations.LiveCodesTranslate := by
  intro s c hi hc
  obtain ⟨str, htrans, hshort, hlong, hbase⟩ := hi.translate_live hc
  have hc4096 := hi.code_lt hc
  have hclear : 2 ^ 1 ≤ s.clearCode := Nat.pow_le_pow_right Nat.two_pos hi.mcsLegal.1
  have heoi := s.eoiCode_eq
  refine ⟨str, htrans, hshort, hlong, by omega, hbase, fun hlt => ?_, fun hentry => ?_⟩
  · exact Option.some.inj (htrans.symm.trans (State.translate_base hlt))
  · obtain ⟨p, hp, hstr⟩ := hi.translate_entry hc hentry
    exact ⟨p, hp, Option.some.inj (htrans.symm.trans hstr)⟩

/-! ## An added entry -/

/-- No older code's string changes (42_lzw.md R167). -/
theorem LzwInv.translate_addEntry {s : State} (hi : LzwInv s) (hm : s.mem.wf = true) (b : Byte)
    (p : BitVec 12) {c : Nat} (hc : s.stringCode c) : (s.addEntry b p).translate c = s.translate c :=
  hi.walkChain_addEntry hm b p 4096 c [] hc

/-- Settles O40: the new entry lies on no older chain (`walkChain_addEntry`), so its own chain is its
predecessor's with one link more. -/
theorem addedEntryExtendsTheDictionary : Obligations.AddedEntryExtendsTheDictionary := by
  intro s b p hi hm hnext hp
  refine ⟨fun c hc => hi.translate_addEntry hm b p hc, ?_⟩
  have hplt := hp.1
  obtain ⟨str, hwalk, htrans⟩ := hi.walkChain_spare hp (by omega)
  have hnew : (s.addEntry b p).dictAt s.lzw.next.toNat = ⟨b, p⟩ := by
    rw [State.dictAt_addEntry hm, if_pos rfl]
  refine ⟨str, htrans, walkChain_entry hi.nextRange.1 hnew ?_⟩
  exact (hi.walkChain_addEntry hm b p 4095 p.toNat [] hp).trans hwalk

/-! ## The code steps that leave the decode running -/

/-- A code step that leaves a code to come is a clear code, a base code or a string with its new entry: an error
and an EOI end the command. -/
theorem LzwInv.of_coreStep {s t : State} {image : Bool} (hi : LzwInv s) (hm : s.mem.wf = true)
    (hp : s.pending = .code image) (hlen : s.cbufLen.toNat ≤ 2 ^ 29 - 1) (h : coreStep s = .next t)
    (ht : t.pending ≠ .none) : LzwInv t := by
  rcases coreStep_code_cases hi hp hlen with
    ⟨u, c, i, a, -, -, hs⟩ | ⟨hbits, hs | ⟨c, hc, hfits, hs⟩ | ⟨-, hs⟩ | hstring⟩
  · rw [hs] at h; cases h
    exact absurd rfl ht
  · rw [hs] at h; cases h
    exact (hi.advance hbits hlen).cleared
  · rw [hs] at h; cases h
    exact (hi.advance hbits hlen).based hm hc hfits
  · rw [hs] at h
    exact absurd (finishDecode_pending h) ht
  · obtain ⟨str, c, hphase, hnext, hne, hbase, hle, hclear, heoi, hfits, hs⟩ := hstring
    rw [hs] at h; cases h
    exact (hi.advance hbits hlen).extended hm hphase hnext hne hbase hle hclear heoi hfits

/-- Settles O41: a legal CAP_CBUF bounds the stream, and a code to come is a command not yet ended. -/
theorem codeStepsKeepTheDecodeInvariant : Obligations.CodeStepsKeepTheDecodeInvariant := by
  intro s t image image' hi hcaps hm hlen hp h ht
  obtain ⟨-, -, hcbuf, -⟩ := hcaps
  exact hi.of_coreStep hm hp (hlen.trans hcbuf) h (by rw [ht]; nofun)

/-! ## The base code after a clear code, and EOI -/

/-- Settles O35: `emit` at its boundary; IDX holds the one byte at its old length. -/
theorem baseAfterClearEmitsItsByte : Obligations.BaseAfterClearEmitsItsByte := by
  intro s c hm hc
  refine ⟨fun hfits => ?_, fun hlong => ?_⟩
  · refine ⟨((s.emit [BitVec.ofNat 8 c.toNat]).setPrev c).toPhase .normal, ?_,
      word_toNat (hfits.trans_lt s.lzw.expLen.isLt), fun k => ?_, rfl, rfl, rfl⟩
    · exact if_neg (by simpa [State.emitOverflows] using hfits)
    · rw [State.idxAt_toPhase, State.idxAt_setPrev, State.idxAt_emit hm]
      by_cases hk : k = s.idxLen.toNat
      · subst hk
        simp [Nat.mod_eq_of_lt hc]
      · rw [if_neg hk, dif_neg (by simp only [List.length_singleton]; omega)]
  · have hraise : raiseLength 1 s = .next (s.errorEntry .length (word (s.idxLen.toNat + 1)) s.lzw.expLen) := by
      rw [raiseLength, raise_eq, word_toNat_self]
    exact (if_pos (by simpa [State.emitOverflows] using hlong)).trans hraise

theorem execEoi_short {s : State} (h : s.idxLen ≠ s.lzw.expLen) :
    execEoi s = .next (s.errorEntry .length s.idxLen s.lzw.expLen) :=
  (if_pos h).trans (raise_toNat _ _ _ _)

theorem execEoi_full {s : State} (h : s.idxLen = s.lzw.expLen) : execEoi s = finishDecode (s.toPhase .done) :=
  if_neg (not_not.2 h)

theorem finishDecode_image {s : State} (h : s.pending.inImage = true) :
    finishDecode s = composeBody { s with status := { s.status with idxValid := true } } := if_pos h

theorem finishDecode_completes {s : State} (h : s.pending.inImage = false) :
    finishDecode s = .next { s with status := { s.status with idxValid := true } }.complete :=
  if_neg (by simp [h])

/-- Settles O36: the length check, then the two ends of the body. -/
theorem eoiCompletesAFullImage : Obligations.EoiCompletesAFullImage :=
  fun _ => ⟨execEoi_short,
    fun hfull himage => (execEoi_full hfull).trans (finishDecode_completes himage),
    fun hfull himage => (execEoi_full hfull).trans (finishDecode_image himage)⟩

end Sys2Proof.Machine
end

section
/-! PROOFS about the instructions: what each can leave, said once (10_state.md section 3), the registers and
memories it may write, and the canonical form of the memories (20_memory.md, spaces). -/

namespace Sys2Proof.Machine

/-! ## What an instruction leaves -/

/-- The state in which an ASSEMBLE body ends: past the terminator, with CBUF valid (40_subblock.md R124, R126). -/
@[simp] def State.pastTerminator (s : State) : State :=
  { s with srcPtr := word (s.srcPtr.toNat + 1), status := { s.status with cbufValid := true } }

/-- The state in which an LZW_DECODE body ends: PHASE is DONE and IDX is valid (42_lzw.md R161, R168). -/
@[simp] def State.pastEoi (s : State) : State :=
  { s with lzw := { s.lzw with phase := .done }, status := { s.status with idxValid := true } }

/-- The state after a base code at the start of a string (42_lzw.md R160). -/
@[simp] def State.withBase (s : State) (c : BitVec 12) : State :=
  ((s.emit [BitVec.ofNat 8 c.toNat]).setPrev c).toPhase .normal

/-- LZW_DECODE's start checks pass (42_lzw.md R151). -/
structure DecodeReady (s : State) : Prop where
  assembled : s.status.cbufValid = true
  mcsLegal  : 1 ≤ s.op.lzwMcs.toNat ∧ s.op.lzwMcs.toNat ≤ 8
  fits      : s.op.frmSize.area ≤ s.caps.idx.toNat

/-- The states an instruction can leave of `s`, with what its checks have found. Where a body runs on into the
next one of an IMAGE, the next body's checks are made in the state the first one ends in. -/
inductive Leaves (s : State) : Instr → State → Prop
  | failed {i : Instr} {c : ErrCode} {info aux : Word} (hc : c ≠ .none) : Leaves s i (s.errorEntry c info aux)
  | nop : Leaves s .nop s.complete
  | softReset : Leaves s .softReset s.softReset
  | endDoc : Leaves s .endDoc { s with status := { s.status with docOpen := false } }.complete
  | beginDoc (hfits : s.op.canvasSize.area ≤ s.caps.canvas.toNat) : Leaves s .beginDoc s.openDocument.complete
  | assemble (hlen : s.op.srcLen.toNat ≤ s.caps.src.toNat) : Leaves s .assemble (s.startAssemble false)
  | image (hdoc : s.status.docOpen = true) (hlen : s.op.srcLen.toNat ≤ s.caps.src.toNat) :
      Leaves s .image (s.startAssemble true)
  | lzwDecode (hready : DecodeReady s) : Leaves s .lzwDecode (s.startDecode false)
  | compose {d : Disposal} (hready : ComposeReady s d) : Leaves s .compose (s.composite d).complete
  | sbData {n : Byte} (hsrc : s.srcPtr.toNat + 1 + n.toNat ≤ s.op.srcLen.toNat)
      (hcbuf : s.cbufLen.toNat + n.toNat ≤ s.caps.cbuf.toNat) : Leaves s (.sbData n) (s.copySubBlock n.toNat)
  | sbTerm (himage : s.pending.inImage = false) : Leaves s .sbTerm s.pastTerminator.complete
  | sbTermFailed {c : ErrCode} {info aux : Word} (hc : c ≠ .none) :
      Leaves s .sbTerm (s.pastTerminator.errorEntry c info aux)
  | sbTermDecodes (himage : s.pending.inImage = true) (hready : DecodeReady s.pastTerminator) :
      Leaves s .sbTerm (s.pastTerminator.startDecode true)
  | clear {i : Instr} (hi : i = .clearFirst ∨ i = .clear) : Leaves s i (s.resetDict.toPhase .afterClear)
  | baseAfterClear {c : BitVec 12} (hfits : s.idxLen.toNat + 1 ≤ s.lzw.expLen.toNat) :
      Leaves s (.baseAfterClear c) (s.withBase c)
  | eoi (himage : s.pending.inImage = false) (hfull : s.idxLen = s.lzw.expLen) : Leaves s .eoi s.pastEoi.complete
  | eoiFailed {c : ErrCode} {info aux : Word} (hc : c ≠ .none) : Leaves s .eoi (s.pastEoi.errorEntry c info aux)
  | eoiComposes {d : Disposal} (himage : s.pending.inImage = true) (hready : ComposeReady s.pastEoi d) :
      Leaves s .eoi (s.pastEoi.composite d).complete
  | string {i : Instr} {c : BitVec 12} {str : List Byte} (hi : i = .kwkwk ∨ i = .known c)
      (hfits : s.idxLen.toNat + str.length ≤ s.lzw.expLen.toNat) : Leaves s i (s.withString str c)

theorem Leaves.of_raise {s t : State} {i : Instr} {c : ErrCode} {info aux : Nat} (hc : c ≠ .none)
    (h : raise c info aux s = .next t) : Leaves s i t := by
  cases h; exact .failed hc

theorem lzwBody_outcome {image : Bool} {s t : State} (h : lzwBody image s = .next t) :
    (∃ c info aux, c ≠ .none ∧ t = s.errorEntry c info aux) ∨ (DecodeReady s ∧ t = s.startDecode image) := by
  rcases lzwBody_cases image s with ⟨c, info, aux, hc, hs⟩ | ⟨hcbuf, hlow, hhigh, hfits, hs⟩ <;>
    rw [hs] at h <;> cases h
  · exact .inl ⟨c, info, aux, hc, rfl⟩
  · exact .inr ⟨⟨hcbuf, ⟨hlow, hhigh⟩, hfits⟩, rfl⟩

theorem composeBody_outcome {s t : State} (h : composeBody s = .next t) :
    (∃ c info aux, c ≠ .none ∧ t = s.errorEntry c info aux) ∨
      ∃ d, ComposeReady s d ∧ t = (s.composite d).complete := by
  rcases composeBody_cases s with ⟨c, info, aux, hc, hs⟩ | ⟨d, hready, hs⟩ <;> rw [hs] at h <;> cases h
  · exact .inl ⟨c, info, aux, hc, rfl⟩
  · exact .inr ⟨d, hready, rfl⟩

theorem assembleBody_outcome {image : Bool} {s t : State} (h : assembleBody image s = .next t) :
    (∃ c info aux, c ≠ .none ∧ t = s.errorEntry c info aux) ∨
      (s.op.srcLen.toNat ≤ s.caps.src.toNat ∧ t = s.startAssemble image) := by
  rcases assembleBody_cases image s with ⟨c, info, aux, hc, hs⟩ | ⟨hlen, hs⟩ <;> rw [hs] at h <;> cases h
  · exact .inl ⟨c, info, aux, hc, rfl⟩
  · exact .inr ⟨hlen, rfl⟩

/-- An IMAGE's terminator runs into the start of LZW_DECODE (44_control.md R237). -/
theorem execSbTerm_image {s : State} (h : s.pending.inImage = true) :
    execSbTerm s = lzwBody true s.pastTerminator := if_pos h

theorem execSbTerm_completes {s : State} (h : s.pending.inImage = false) :
    execSbTerm s = .next s.pastTerminator.complete :=
  finishAssemble_completes (s := { s with srcPtr := word (s.srcPtr.toNat + 1) }) h

theorem execEoi_completes {s : State} (hfull : s.idxLen = s.lzw.expLen) (h : s.pending.inImage = false) :
    execEoi s = .next s.pastEoi.complete :=
  (execEoi_full hfull).trans (finishDecode_completes h)

/-- An IMAGE's EOI runs into COMPOSE (44_control.md R237). -/
theorem execEoi_image {s : State} (hfull : s.idxLen = s.lzw.expLen) (h : s.pending.inImage = true) :
    execEoi s = composeBody s.pastEoi :=
  (execEoi_full hfull).trans (finishDecode_image h)

theorem decodeString_leaves {i : Instr} {str : List Byte} {c : BitVec 12} {s t : State}
    (hi : i = .kwkwk ∨ i = .known c) (h : decodeString str c s = .next t) : Leaves s i t := by
  rcases Nat.lt_or_ge s.lzw.expLen.toNat (s.idxLen.toNat + str.length) with hlong | hfits
  · rw [decodeString_long hlong] at h; cases h
    exact .failed (by decide)
  · rw [decodeString_withString hfits] at h; cases h
    exact .string hi hfits

/-- Every next state of every instruction is one of them. -/
theorem exec_leaves {i : Instr} {s t : State} (h : exec i s = .next t) : Leaves s i t := by
  cases i <;> simp only [exec] at h
  case nop => cases h; exact .nop
  case softReset => cases h; exact .softReset
  case endDoc => cases h; exact .endDoc
  case beginDoc =>
    unfold execBeginDoc at h
    split at h
    · exact .of_raise (by decide) h
    next hfits => cases h; exact .beginDoc (Nat.le_of_not_lt hfits)
  case assemble =>
    rcases assembleBody_outcome h with ⟨c, info, aux, hc, rfl⟩ | ⟨hlen, rfl⟩
    · exact .failed hc
    · exact .assemble hlen
  case lzwDecode =>
    rcases lzwBody_outcome h with ⟨c, info, aux, hc, rfl⟩ | ⟨hready, rfl⟩
    · exact .failed hc
    · exact .lzwDecode hready
  case compose =>
    rcases composeBody_outcome h with ⟨c, info, aux, hc, rfl⟩ | ⟨d, hready, rfl⟩
    · exact .failed hc
    · exact .compose hready
  case image =>
    unfold execImage at h
    split at h
    · exact .of_raise (by decide) h
    next hdoc =>
      rcases assembleBody_outcome h with ⟨c, info, aux, hc, rfl⟩ | ⟨hlen, rfl⟩
      · exact .failed hc
      · exact .image (by simpa using hdoc) hlen
  case sbTerm =>
    cases himage : s.pending.inImage
    · rw [execSbTerm_completes himage] at h; cases h
      exact .sbTerm himage
    · rw [execSbTerm_image himage] at h
      rcases lzwBody_outcome h with ⟨c, info, aux, hc, rfl⟩ | ⟨hready, rfl⟩
      · exact .sbTermFailed hc
      · exact .sbTermDecodes himage hready
  case sbData n =>
    unfold execSbData at h
    split at h
    · exact .of_raise (by decide) h
    next hsrc =>
    split at h
    · exact .of_raise (by decide) h
    next hcbuf => cases h; exact .sbData (Nat.le_of_not_lt hsrc) (Nat.le_of_not_lt hcbuf)
  case clearFirst => cases h; exact .clear (.inl rfl)
  case clear => cases h; exact .clear (.inr rfl)
  case baseAfterClear c =>
    unfold execBaseAfterClear at h
    split at h
    · exact .of_raise (by decide) h
    next hfits => cases h; exact .baseAfterClear (by simpa [State.emitOverflows] using hfits)
  case eoi =>
    by_cases hfull : s.idxLen = s.lzw.expLen
    · cases himage : s.pending.inImage
      · rw [execEoi_completes hfull himage] at h; cases h
        exact .eoi himage hfull
      · rw [execEoi_image hfull himage] at h
        rcases composeBody_outcome h with ⟨c, info, aux, hc, rfl⟩ | ⟨d, hready, rfl⟩
        · exact .eoiFailed hc
        · exact .eoiComposes himage hready
    · rw [execEoi_short hfull] at h; cases h
      exact .failed (by decide)
  case known c =>
    unfold execKnown at h
    split at h
    · exact .of_raise (by decide) h
    · split at h
      · cases h
      · exact decodeString_leaves (.inr rfl) h
  case kwkwk =>
    unfold execKwkwk at h
    split at h
    · cases h
    · exact decodeString_leaves (.inl rfl) h

/-! ## What an instruction keeps -/

namespace Leaves

variable {s t : State} {i : Instr} (h : Leaves s i t)
include h

theorem src : t.mem.src = s.mem.src := by
  cases h <;> simp [State.withString]

theorem ct : t.mem.ct = s.mem.ct := by
  cases h <;> simp [State.withString]

theorem caps : t.caps = s.caps := by
  cases h <;> simp [State.withString]

theorem env : t.env = s.env := by
  cases h <;> simp [State.withString]

theorem cbuf (hdata : ∀ n, i ≠ .sbData n) : t.mem.cbuf = s.mem.cbuf := by
  cases h
  case sbData n _ _ => exact absurd rfl (hdata n)
  all_goals simp [State.withString]

section NoString
variable (hkwkwk : i ≠ .kwkwk) (hknown : ∀ c, i ≠ .known c)
include hkwkwk hknown

/-- An instruction that emits no string writes no entry. -/
theorem dict : t.mem.dict = s.mem.dict := by
  cases h
  case string hstring => exact absurd hstring (not_or.2 ⟨hkwkwk, hknown _⟩)
  all_goals simp

theorem idx (hbase : ∀ c, i ≠ .baseAfterClear c) : t.mem.idx = s.mem.idx := by
  cases h
  case string hstring => exact absurd hstring (not_or.2 ⟨hkwkwk, hknown _⟩)
  case baseAfterClear c _ => exact absurd rfl (hbase c)
  all_goals simp

end NoString

section NoFrame
variable (hcompose : i ≠ .compose) (heoi : i ≠ .eoi)
include hcompose heoi

/-- An instruction that runs no COMPOSE body draws nothing and takes no snapshot. -/
theorem save_snap : t.mem.save = s.mem.save ∧ t.mem.snap = s.mem.snap := by
  cases h
  case compose => contradiction
  case eoiComposes => contradiction
  all_goals simp [State.withString]

theorem canvas (hbegin : i ≠ .beginDoc) : t.mem.canvas = s.mem.canvas := by
  cases h
  case compose | eoiComposes | beginDoc => contradiction
  all_goals simp [State.withString]

variable (hreset : i ≠ .softReset)
include hreset

theorem snapDelay : t.snapDelay = s.snapDelay := by
  cases h
  case compose | eoiComposes | softReset => contradiction
  all_goals simp [State.withString]

theorem frameCount (hbegin : i ≠ .beginDoc) : t.frameCount = s.frameCount := by
  cases h
  case compose | eoiComposes | softReset | beginDoc => contradiction
  all_goals simp [State.withString]

end NoFrame

section NoReset
variable (hreset : i ≠ .softReset)
include hreset

theorem op : t.op = s.op := by
  cases h
  case softReset => contradiction
  all_goals simp [State.withString]

theorem irqEn : t.irqEn = s.irqEn := by
  cases h
  case softReset => contradiction
  all_goals simp [State.withString]

theorem wbusy : t.status.wbusy = s.status.wbusy := by
  cases h
  case softReset => contradiction
  all_goals simp [State.withString]

theorem docSize (hbegin : i ≠ .beginDoc) : t.docSize = s.docSize := by
  cases h
  case softReset | beginDoc => contradiction
  all_goals simp [State.withString]

theorem brPos (hdecode : i ≠ .lzwDecode) (hterm : i ≠ .sbTerm) : t.brPos = s.brPos := by
  cases h
  case softReset | lzwDecode | sbTermDecodes => contradiction
  all_goals simp [State.withString]

theorem srcPtr (hterm : i ≠ .sbTerm) (hdata : ∀ n, i ≠ .sbData n) : t.srcPtr = s.srcPtr := by
  cases h
  case softReset | sbTerm | sbTermFailed | sbTermDecodes => contradiction
  case sbData n _ _ => exact absurd rfl (hdata n)
  all_goals simp [State.withString]

theorem cbufLen (hassemble : i ≠ .assemble) (himage : i ≠ .image) (hdata : ∀ n, i ≠ .sbData n) :
    t.cbufLen = s.cbufLen := by
  cases h
  case softReset | assemble | image => contradiction
  case sbData n _ _ => exact absurd rfl (hdata n)
  all_goals simp [State.withString]

end NoReset

/-- The instructions of no LZW unit leave its registers alone. -/
theorem lzw_idxLen
    (hi : i ∈ [Instr.nop, .beginDoc, .assemble, .compose, .image, .endDoc] ∨ ∃ n, i = .sbData n) :
    t.lzw = s.lzw ∧ t.idxLen = s.idxLen := by
  cases h
  case clear hclear => rcases hclear with rfl | rfl <;> simp at hi
  case string hstring => rcases hstring with rfl | rfl <;> simp at hi
  case softReset | lzwDecode | sbTerm | sbTermFailed | sbTermDecodes | baseAfterClear | eoi | eoiFailed |
      eoiComposes => simp at hi
  all_goals simp

/-- No instruction brings a memory out of its canonical form. -/
theorem wf (hm : s.mem.wf = true) : t.mem.wf = true := by
  cases h
  case beginDoc => exact State.openDocument_wf hm
  case compose d _ => exact State.composite_wf d hm
  case sbData n _ _ => exact State.copySubBlock_wf _ hm
  case baseAfterClear => exact State.emit_wf _ hm
  case eoiComposes d _ _ => exact State.composite_wf (s := s.pastEoi) d hm
  case string str _ _ => exact State.addEntry_wf _ _ (State.emit_wf str hm)
  all_goals exact hm

end Leaves

/-! ## What the core runs next -/

/-- SOFT_RESET is spelled by its command word alone. -/
theorem decodeCommand_softReset {v : Word} (h : decodeCommand v = .ok .softReset) : v = softResetWord := by
  obtain ⟨-, henc⟩ := encode_of_decodeCommand h Lzw.reset.ctx
  cases henc
  rfl

theorem decodeLength_ne_softReset (n : Byte) : decodeLength n ≠ .softReset := by
  unfold decodeLength
  split <;> nofun

theorem decodeCode_ne_softReset (k : CodeCtx) (c : Nat) : decodeCode k c ≠ .ok .softReset := by
  unfold decodeCode
  split
  case h_1 | h_2 | h_3 => split_ifs <;> nofun
  case h_4 | h_5 => nofun

/-- The core's next instruction, if its command has one: an error entry, with at most the cursor moved, or one of
the states an instruction leaves (44_control.md R232); SOFT_RESET only as a command. -/
theorem coreStep_leaves {s t : State} (h : coreStep s = .next t) :
    (s.pending = .none ∧ t = s) ∨
    ∃ u, (u = s ∨ u = s.advanceBits s.lzw.width.toNat) ∧
      ((∃ c info aux, c ≠ .none ∧ t = u.errorEntry c info aux) ∨
        ∃ i, (i = .softReset → s.pending = .word softResetWord) ∧ Leaves u i t) := by
  cases hp : s.pending
  case none =>
    simp only [coreStep, coreFetch, hp] at h
    cases h; exact .inl ⟨rfl, rfl⟩
  case word v =>
    refine .inr ⟨s, .inl rfl, ?_⟩
    rw [coreStep_word hp] at h
    split at h
    next hv =>
      exact .inr ⟨_, fun hreset => congrArg Pending.word (decodeCommand_softReset (hreset ▸ hv)), exec_leaves h⟩
    · cases h; exact .inl ⟨_, _, _, by decide, rfl⟩
  case subBlock image =>
    refine .inr ⟨s, .inl rfl, ?_⟩
    rw [coreStep_subBlock hp] at h
    split at h
    · cases h; exact .inl ⟨_, _, _, by decide, rfl⟩
    · exact .inr ⟨_, fun hreset => absurd hreset (decodeLength_ne_softReset _), exec_leaves h⟩
  case code image =>
    rw [coreStep_code hp] at h
    split at h
    · cases h; exact .inr ⟨s, .inl rfl, .inl ⟨_, _, _, by decide, rfl⟩⟩
    · refine .inr ⟨_, .inr rfl, ?_⟩
      split at h
      next hc => exact .inr ⟨_, fun hreset => absurd (hreset ▸ hc) (decodeCode_ne_softReset _ _), exec_leaves h⟩
      next e _ =>
        cases e
        case firstNotClear | afterClearNotBase | codeBeyondNext =>
          cases h; exact .inl ⟨_, _, _, by decide, rfl⟩
        all_goals cases h

theorem coreStep_wf {s t : State} (hm : s.mem.wf = true) (h : coreStep s = .next t) : t.mem.wf = true := by
  rcases coreStep_leaves h with ⟨-, rfl⟩ | ⟨u, hu, hleaves⟩
  · exact hm
  · have hum : u.mem.wf = true := by rcases hu with rfl | rfl <;> exact hm
    rcases hleaves with ⟨c, info, aux, -, rfl⟩ | ⟨i, -, hi⟩
    · exact hum
    · exact hi.wf hum

/-- Settles O49: the states an instruction can leave, one register or memory at a time. -/
theorem instructionsWriteOnlyTheirOwnState : Obligations.InstructionsWriteOnlyTheirOwnState := by
  intro i s t h
  have hl := exec_leaves h
  exact ⟨hl.src, hl.ct, hl.caps, hl.env, hl.cbuf,
    fun hkwkwk hknown => ⟨hl.dict hkwkwk hknown, hl.idx hkwkwk hknown⟩,
    fun hcompose heoi =>
      ⟨(hl.save_snap hcompose heoi).1, (hl.save_snap hcompose heoi).2, hl.canvas hcompose heoi⟩,
    fun hreset => ⟨hl.op hreset, hl.irqEn hreset, hl.wbusy hreset, hl.docSize hreset,
      fun hcompose heoi => ⟨hl.snapDelay hcompose heoi hreset, hl.frameCount hcompose heoi hreset⟩,
      hl.brPos hreset, hl.srcPtr hreset, hl.cbufLen hreset, hl.lzw_idxLen⟩⟩

end Sys2Proof.Machine
end

section
/-! PROOFS about the host's accesses (20_memory.md R60 to R76): what a read and a write can do, said once; the
acceptance of a command (44_control.md R230, R231); the STATUS word (10_state.md R24 to R33); the hardware reset
(70_reset_and_hazards.md R283). -/

namespace Sys2Proof.Machine

/-! ## Reads -/

/-- A read records one value and changes no other of the surroundings but the count of draws. -/
theorem State.hostRead_eq (s : State) (a : BusAccess) :
    ∃ v draws, s.hostRead a = { s with env := { s.env with reads := v :: s.env.reads, draws := draws } } ∧
      (s.readIsDraw a = false → v = s.readExact a) := by
  cases hdraw : s.readIsDraw a
  · exact ⟨s.readExact a, s.env.draws, by simp [State.hostRead, hdraw, State.record], fun _ => rfl⟩
  · exact ⟨s.readDrawn a, s.env.draws + 1, by simp [State.hostRead, hdraw, State.record], nofun⟩

theorem hostAccess_read {s : State} {a : BusAccess} (hshape : a.shapeOk = true) (hregs : a.inRegs = true)
    (hop : a.op = .read) : hostAccess a s = .next (s.hostRead a) := by
  simp [hostAccess, hshape, hregs, hop]

theorem hostAccess_write {s : State} {a : BusAccess} {v : Word} (hshape : a.shapeOk = true)
    (hregs : a.inRegs = true) (hop : a.op = .write v) : hostAccess a s = .next (s.hostWrite a v) := by
  simp [hostAccess, hshape, hregs, hop]

theorem State.readIsDraw_idle {s : State} (h : s.status.busy = false) (a : BusAccess) :
    s.readIsDraw a = false := by
  unfold State.readIsDraw
  split <;> simp [h]

/-- The registers whose reads stay exact (20_memory.md R76). -/
theorem exactWhileBusy_offset {r : Reg}
    (h : r ∈ [Reg.status, .id, .capSrc, .capCbuf, .capIdx, .capCanvas]) : exactWhileBusy r.offset = true := by
  rw [exactWhileBusy, regAt_offset]
  simp only [List.mem_cons, List.not_mem_nil, or_false] at h
  rcases h with rfl | rfl | rfl | rfl | rfl | rfl <;> rfl

/-- Settles O15: the value recorded is exact where the read is no draw, which an idle block, the byte spaces and
the registers of R76 make none. -/
theorem readsHaveNoSideEffect : Obligations.ReadsHaveNoSideEffect := by
  intro s a hshape hregs hop
  obtain ⟨v, draws, hread, hexact⟩ := s.hostRead_eq a
  have hidle (hbusy : s.status.busy = false) : v = s.readExact a := hexact (State.readIsDraw_idle hbusy a)
  refine ⟨v, _, (hostAccess_read hshape hregs hop).trans (congrArg _ hread), rfl, rfl, rfl, rfl,
    fun hsrc => ?_, fun hct => ?_, fun r hspace hoffset hr => ?_, fun hspace hreserved hbusy => ?_,
    fun hsnap hbusy => ?_⟩
  · exact (hexact (by simp [State.readIsDraw, hsrc])).trans (by simp [State.readExact, hsrc])
  · exact (hexact (by simp [State.readIsDraw, hct])).trans (by simp [State.readExact, hct])
  · have hword : s.readExact a = s.regWord r := by simp [State.readExact, hspace, hoffset]
    rw [← hword]
    rcases hr with hbusy | hr
    · exact hidle hbusy
    · exact hexact (by simp [State.readIsDraw, hspace, hoffset, exactWhileBusy_offset hr])
  · rw [hidle hbusy, State.readExact, hspace]
    exact State.readRegs_reserved hreserved s
  · exact (hidle hbusy).trans (by simp [State.readExact, hsnap])

/-! ## Writes -/

theorem State.hostWrite_busy {s : State} (h : s.status.busy = true) (a : BusAccess) (v : Word) :
    s.hostWrite a v = s.dropWrite := if_pos h

/-- A register write issues a command, or touches no register but those only the host writes. -/
theorem State.writeRegs_cases (s : State) (offset : Nat) (v : Word) :
    s.writeRegs offset v = s.issue v ∨
      ∃ irqEn op srcPtr, s.writeRegs offset v = { s with irqEn := irqEn, op := op, srcPtr := srcPtr } := by
  cases hr : regAt offset with
  | none => exact .inr ⟨s.irqEn, s.op, s.srcPtr, State.writeRegs_reserved hr s v⟩
  | some r =>
    obtain rfl := eq_offset_of_regAt hr
    by_cases hcmd : r = .cmd
    · subst hcmd; exact .inl (s.writeRegs_cmd v)
    · refine .inr ⟨(s.setReg r v).irqEn, (s.setReg r v).op, (s.setReg r v).srcPtr, ?_⟩
      rw [State.writeRegs_offset hcmd]
      cases r <;> rfl

/-- An idle write is a register write, stores one byte within SRC or CT, or is ignored. -/
theorem State.hostWrite_idle {s : State} (h : s.status.busy = false) (a : BusAccess) (v : Word) :
    s.hostWrite a v = s ∨ s.hostWrite a v = s.writeRegs a.offset v ∨
    (a.offset < s.caps.src.toNat ∧ s.hostWrite a v = s.storeSrc [(a.offset, field 0 8 v)]) ∨
    (a.offset < Config.ctBytes ∧ s.hostWrite a v = s.storeCt [(a.offset, field 0 8 v)]) := by
  rw [State.hostWrite, if_neg (by simp [h])]
  split
  · exact .inr (.inl rfl)
  · by_cases hsrc : a.offset < s.caps.src.toNat
    · exact .inr (.inr (.inl ⟨hsrc, if_pos hsrc⟩))
    · exact .inl (if_neg hsrc)
  · by_cases hct : a.offset < Config.ctBytes
    · exact .inr (.inr (.inr ⟨hct, if_pos hct⟩))
    · exact .inl (if_neg hct)
  · exact .inl rfl

/-- Settles O14: a write that exists is `hostWrite`, which drops it first of all. -/
theorem writesWhileBusyOnlySetWbusy : Obligations.WritesWhileBusyOnlySetWbusy :=
  fun _ a v hshape hregs hop hbusy =>
    (hostAccess_write hshape hregs hop).trans (congrArg _ (State.hostWrite_busy hbusy a v))

/-- Settles O13: a write to CMD is `issue`, at each of its three branches. -/
theorem commandAcceptance : Obligations.CommandAcceptance := by
  intro s v cmd
  refine ⟨fun hbusy => ?_, fun hbusy herr hv => ?_, fun hbusy haccept => ?_⟩
  · have hwrite : hostAccess cmd s = .next (s.hostWrite cmd v) := by
      simp [cmd, hostAccess, BusAccess.shapeOk, BusAccess.inRegs, Config.regsBytes]
    exact hwrite.trans (congrArg _ (State.hostWrite_busy hbusy cmd v))
  all_goals
    have hissue : hostAccess cmd s = .next (s.issue v) :=
      (hostAccess_writeRegs hbusy (by decide) (by decide) v).trans (congrArg _ (s.writeRegs_cmd v))
    rw [hissue, State.issue, if_neg (by simp [hbusy])]
  · rw [if_pos ⟨herr, hv⟩]
  · rw [if_neg]
    rintro ⟨herr, hv⟩
    rcases haccept with h | h
    · simp [herr] at h
    · exact hv h

/-! ## Bytes of SRC, CT and SNAP -/

theorem field_word_byte (v : Byte) : field 0 8 (word v.toNat) = v := by
  apply BitVec.eq_of_toNat_eq
  rw [field, BitVec.extractLsb'_toNat, word_toNat (by omega), Nat.shiftRight_zero, Nat.mod_eq_of_lt v.isLt]

theorem hostAccess_byteWrite {s : State} {space : Space} (hspace : space ≠ .regs) (off : Nat) (v : Word) :
    hostAccess { space := space, offset := off, bytes := 1, op := .write v } s =
      .next (s.hostWrite { space := space, offset := off, bytes := 1, op := .write v } v) := by
  cases space
  case regs => exact absurd rfl hspace
  all_goals rfl

theorem State.readSrc_storeSrc {s : State} (hm : s.mem.wf = true) (off : Nat) (v : Byte)
    (a : Nat) :
    (s.storeSrc [(off, v)]).readSrc a = if a = off ∧ a < s.caps.src.toNat then v else s.readSrc a := by
  have hcell : (s.storeSrc [(off, v)]).srcAt a = if a = off then v else s.srcAt a :=
    Mem.read_write off a v ((Memory.wf_iff _).1 hm).1
  simp only [State.readSrc, hcell, State.storeSrc_caps]
  split_ifs <;> tauto

theorem State.readCt_storeCt {s : State} (hm : s.mem.wf = true) (off : Nat) (v : Byte) (a : Nat) :
    (s.storeCt [(off, v)]).readCt a = if a = off ∧ a < Config.ctBytes then v else s.readCt a := by
  have hcell : (s.storeCt [(off, v)]).ctAt a = if a = off then v else s.ctAt a :=
    Mem.read_write off a v ((Memory.wf_iff _).1 hm).2.1
  simp only [State.readCt, hcell]
  split_ifs <;> tauto

/-- Settles O18: within the space the store of the byte, beyond it nothing. -/
theorem byteWritesLandInSrcAndCt : Obligations.ByteWritesLandInSrcAndCt := by
  intro s off v hm hbusy
  refine ⟨?_, ?_, fun hoff => if_neg (Nat.not_lt.2 hoff), fun hoff => if_neg (Nat.not_lt.2 hoff)⟩
  · rw [hostAccess_byteWrite (by decide), State.hostWrite, if_neg (by simp [hbusy]), field_word_byte]
    by_cases hoff : off < s.caps.src.toNat
    · exact ⟨_, congrArg _ (if_pos hoff), State.readSrc_storeSrc hm off v, rfl⟩
    · refine ⟨s, congrArg _ (if_neg hoff), fun a => (if_neg ?_).symm, rfl⟩
      rintro ⟨rfl, ha⟩
      exact hoff ha
  · rw [hostAccess_byteWrite (by decide), State.hostWrite, if_neg (by simp [hbusy]), field_word_byte]
    by_cases hoff : off < Config.ctBytes
    · exact ⟨_, congrArg _ (if_pos hoff), State.readCt_storeCt hm off v, rfl⟩
    · refine ⟨s, congrArg _ (if_neg hoff), fun a => (if_neg ?_).symm, rfl⟩
      rintro ⟨rfl, ha⟩
      exact hoff ha

/-- Byte `b` of cell `c` of the document, as SNAP shows it (20_memory.md R64). -/
theorem State.readSnap_cell {s : State} {c b : Nat} (hc : c < s.docSize.area) (hb : b < 4) :
    s.readSnap (4 * c + b) = (s.snapAt c).byteAt b := by
  have hdiv : (4 * c + b) / 4 = c := by omega
  have hmod : (4 * c + b) % 4 = b := by omega
  rw [State.readSnap, if_pos (by omega), hdiv, hmod]

/-- Settles O19: a pixel's cell lies within the document, and its bytes are in the order of `Pixel.byteAt`. -/
theorem snapReadsPixelBytes : Obligations.SnapReadsPixelBytes := by
  intro s
  refine ⟨fun x y hx hy => ?_, fun off hoff => if_neg ?_, fun off v hbusy => ?_⟩
  · have hcell : y * s.docSize.w.toNat + x < s.docSize.area := cell_lt hx hy
    exact ⟨State.readSnap_cell hcell (by decide), State.readSnap_cell hcell (by decide),
      State.readSnap_cell hcell (by decide), State.readSnap_cell hcell (by decide)⟩
  · rw [Nat.mul_assoc] at hoff
    exact Nat.not_lt.2 hoff
  · rw [hostAccess_byteWrite (by decide), State.hostWrite, if_neg (by simp [hbusy])]

/-! ## The STATUS word -/

/-- The nine bits STATUS shows, lowest first (10_state.md R24 to R33). -/
def State.statusBits (s : State) : List Bool :=
  [s.status.busy, s.status.done, s.status.err, s.heldSeen.docOpen, s.heldSeen.cbufValid, s.heldSeen.idxValid,
    s.heldSeen.snapValid, s.status.wbusy, s.irq]

theorem State.bitsValue_statusBits_lt (s : State) : bitsValue s.statusBits < 2 ^ 9 := bitsValue_lt _

theorem State.readRegs_status (s : State) : s.readRegs 0x08 = word (bitsValue s.statusBits) := by
  have hread : s.readRegs 0x08 = s.statusWord := s.readRegs_offset .status
  rw [hread, State.statusWord]
  simp only [State.statusBits, bitsValue]
  congr 1
  omega

/-- Settles O20: the word is the number its nine bits spell, so it shows them and none above. -/
theorem statusWordShowsItsBits : Obligations.StatusWordShowsItsBits := by
  intro s
  have hlt := s.bitsValue_statusBits_lt
  have hnat : (s.readRegs 0x08).toNat = bitsValue s.statusBits := by
    rw [s.readRegs_status, word_toNat (by omega)]
  have hbits : (s.readRegs 0x08).getLsbD = (bitsValue s.statusBits).testBit := by
    funext i
    rw [← hnat, BitVec.testBit_toNat]
  refine ⟨?_, hnat ▸ hlt, State.statusWord_resetOn _ _ _⟩
  rw [hbits]
  refine (codeBits_bitsValue s.statusBits).trans ?_
  cases hbusy : s.status.busy <;> simp [State.statusBits, State.heldSeen, hbusy, State.irq, Status.holdings]

/-! ## The error registers -/

/-- Settles O9: the three registers at their offsets, and the table of codes by evaluation. -/
theorem errorRegistersReadTheErrorEntry : Obligations.ErrorRegistersReadTheErrorEntry :=
  ⟨fun s c info aux =>
    ⟨(s.errorEntry c info aux).readRegs_offset .errCode, (s.errorEntry c info aux).readRegs_offset .errInfo,
      (s.errorEntry c info aux).readRegs_offset .errAux⟩, by decide⟩

/-! ## The hardware reset -/

/-- Settles O11: the registers are SOFT_RESET's, and each memory is canonical with the last value drawn for each
of its cells (`Mem.read_canon`). -/
theorem hardResetRestoresRegistersAndDrawsMemory : Obligations.HardResetRestoresRegistersAndDrawsMemory := by
  intro s drawn
  refine ⟨s.hardReset drawn, rfl, fun u hu => ?_, rfl, rfl, Memory.wf_canon _ _, Memory.within_canon _ _,
    fun a v ha hv => Mem.read_canon ha hv, fun a v ha hv => Mem.read_canon ha hv,
    fun a v ha hv => Mem.read_canon ha hv, fun a v ha hv => Mem.read_canon ha hv,
    fun a v ha hv => Mem.read_canon ha hv, fun a v ha hv => Mem.read_canon ha hv,
    fun a v ha hv => Mem.read_canon ha hv, fun a v ha hv => Mem.read_canon ha hv⟩
  rw [exec_softReset_eq] at hu
  cases hu
  rfl

/-! ## The host's step -/

/-- The state in other surroundings. -/
@[simp] def State.withEnv (s : State) (env : Env) : State := { s with env := env }

/-- The states the host's next event can leave of `s`: its record of reads grows, a write is made, or the block is
reset; beside it the host's list of events moves on. -/
inductive HostLeaves (s : State) : State → Prop
  | surroundings {env : Env} (hshown : env.shown = s.env.shown) : HostLeaves s (s.withEnv env)
  | write {env : Env} (hshown : env.shown = s.env.shown) (a : BusAccess) (v : Word) :
      HostLeaves s ((s.withEnv env).hostWrite a v)
  | hardReset {env : Env} {drawn : Memory} {es : List HostEvent} (hevent : s.env.host = .hardReset drawn :: es) :
      HostLeaves s ((s.withEnv env).hardReset drawn)

theorem State.hostRead_surroundings (s : State) (a : BusAccess) :
    ∃ env, env.shown = s.env.shown ∧ s.hostRead a = s.withEnv env := by
  obtain ⟨v, draws, hread, -⟩ := s.hostRead_eq a
  exact ⟨{ s.env with reads := v :: s.env.reads, draws := draws }, rfl, hread⟩

/-- A wait reads STATUS, whether or not it stays on the list (30_encoding.md R108). -/
theorem hostEvent_cases {e : HostEvent} {s t : State} (h : hostEvent e s = .next t) :
    (∃ env, env.shown = s.env.shown ∧ t = s.withEnv env) ∨ (∃ a v, t = s.hostWrite a v) ∨
      ∃ drawn, e = .hardReset drawn ∧ t = s.hardReset drawn := by
  cases e with
  | access a =>
    simp only [hostEvent, hostAccess] at h
    split at h
    · cases h
    split at h
    · cases h
    split at h <;> cases h
    · exact .inl (s.hostRead_surroundings a)
    next v _ => exact .inr (.inl ⟨a, v, rfl⟩)
  | wait =>
    obtain ⟨env, hshown, hread⟩ := s.hostRead_surroundings statusRead
    simp only [hostEvent, hread] at h
    split at h <;> cases h
    · exact .inl ⟨{ env with host := .wait :: env.host }, hshown, rfl⟩
    · exact .inl ⟨env, hshown, rfl⟩
  | hardReset drawn => cases h; exact .inr (.inr ⟨drawn, rfl, rfl⟩)

/-- Every host step is one of them. -/
theorem hostTurn_leaves {s t : State} (h : hostTurn s = .next t) : HostLeaves s t := by
  unfold hostTurn at h
  split at h
  · cases h; exact .surroundings rfl
  next e es hevent =>
    rcases hostEvent_cases h with ⟨env, hshown, rfl⟩ | ⟨a, v, rfl⟩ | ⟨drawn, rfl, rfl⟩
    · exact .surroundings hshown
    · exact .write (env := { s.env with host := es }) rfl a v
    · exact .hardReset (env := { s.env with host := es }) hevent

/-- Settles O59: a read changes the surroundings alone, and a write made while busy is dropped. -/
theorem hostAccessWhileBusyIsInvisibleToTheCore : Obligations.HostAccessWhileBusyIsInvisibleToTheCore := by
  intro s t e hbusy hreset h
  rcases hostEvent_cases h with ⟨env, -, rfl⟩ | ⟨a, v, rfl⟩ | ⟨drawn, rfl, -⟩
  · rfl
  · rw [State.hostWrite_busy hbusy]
    rfl
  · exact absurd rfl (hreset drawn)

/-! ## The canonical form of the memories -/

theorem State.hostWrite_wf {s : State} (hm : s.mem.wf = true) (a : BusAccess) (v : Word) :
    (s.hostWrite a v).mem.wf = true := by
  cases hbusy : s.status.busy
  · rcases State.hostWrite_idle hbusy a v with h | h | ⟨-, h⟩ | ⟨-, h⟩ <;> rw [h]
    · exact hm
    · obtain ⟨hmem, -⟩ := s.writeRegs_frame a.offset v
      rw [hmem]; exact hm
    · exact State.storeSrc_wf _ hm
    · exact State.storeCt_wf _ hm
  · rw [State.hostWrite_busy hbusy]
    exact hm

theorem hostTurn_wf {s t : State} (hm : s.mem.wf = true) (h : hostTurn s = .next t) : t.mem.wf = true := by
  cases hostTurn_leaves h with
  | surroundings => exact hm
  | @write env _ a v => exact State.hostWrite_wf (s := s.withEnv env) hm a v
  | hardReset => exact Memory.wf_canon _ _

/-- Settles O50: neither the host's event nor the instructions of the core's turn bring a memory out of its
canonical form. -/
theorem stepKeepsMemoryCanonical : Obligations.StepKeepsMemoryCanonical := by
  intro s t hm h
  rcases step_cases s with hs | ⟨-, hs⟩ | ⟨-, hs⟩ <;> rw [hs] at h
  · cases h; exact hm
  · exact hostTurn_wf (s := s.popTurn) hm h
  · exact coreTurn_keeps (s := s.popTurn) (P := fun u => u.mem.wf = true) (fun _ hu => hu)
      (fun _ _ hu _ hstep => coreStep_wf hu hstep) hm h

end Sys2Proof.Machine
end

section
/-! PROOFS about the block's invariant (Safety.lean): it holds at reset (70_reset_and_hazards.md R281, R282), every
step of the host and of the core keeps it, and what follows from it: how a command ends (44_control.md R233), what
leaves the error state (60_exceptions.md R270), and that no step stops the machine. -/

namespace Sys2Proof.Machine

/-! ## The data of the invariant -/

/-- What the invariant says of the memories and of the sizes that index them. -/
structure Bounded (s : State) : Prop where
  capsLegal : s.caps.ok
  canonical : s.mem.wf = true
  inBounds  : s.mem.within s.caps = true
  docFits   : s.docSize.area ≤ s.caps.canvas.toNat
  cbufFits  : s.cbufLen.toNat ≤ s.caps.cbuf.toNat
  idxFits   : s.idxLen.toNat ≤ s.caps.idx.toNat

theorem Inv.bounded {s : State} (hi : Inv s) : Bounded s :=
  ⟨hi.capsLegal, hi.canonical, hi.inBounds, hi.docFits, hi.cbufFits, hi.idxFits⟩

/-- The invariant's data stand on the memories, the capacities, DOC_SIZE and the two lengths alone. -/
theorem Bounded.of_eq {s t : State} (hb : Bounded s) (hcaps : t.caps = s.caps) (hmem : t.mem = s.mem)
    (hdoc : t.docSize = s.docSize) (hcbuf : t.cbufLen = s.cbufLen) (hidx : t.idxLen = s.idxLen) : Bounded t := by
  obtain ⟨h1, h2, h3, h4, h5, h6⟩ := hb
  constructor <;> simp only [hcaps, hmem, hdoc, hcbuf, hidx] <;> assumption

/-! ## The stores of COMPOSE lie within the canvas -/

section Frame
variable {s : State} {cap : Nat} (hcap : s.docSize.area ≤ cap)
include hcap

theorem State.documentStores_lt (f : Nat → Pixel) : ∀ p ∈ s.documentCells.map fun a => (a, f a), p.1 < cap := by
  intro p hp
  obtain ⟨a, ha, rfl⟩ := List.mem_map.1 hp
  exact (List.mem_range.1 ha).trans_le hcap

variable (hright : s.op.frmPos.left.toNat + s.op.frmSize.w.toNat ≤ s.docSize.w.toNat)
  (hbottom : s.op.frmPos.top.toNat + s.op.frmSize.h.toNat ≤ s.docSize.h.toNat)
include hright hbottom

theorem State.frameStores_lt (f : Nat → Pixel) : ∀ p ∈ s.frameCells.map fun a => (a, f a), p.1 < cap := by
  intro p hp
  obtain ⟨a, ha, rfl⟩ := List.mem_map.1 hp
  obtain ⟨x, r, hx, hr, rfl⟩ := State.mem_frameCells.1 ha
  exact (State.frameCell_lt hright hbottom hx hr).trans_le hcap

theorem State.painted_lt : ∀ p ∈ s.painted, p.1 < cap := by
  intro p hp
  obtain ⟨x, r, hx, hr, -, rfl⟩ := State.mem_painted.1 hp
  exact (State.frameCell_lt hright hbottom hx (State.drawnRow_lt hr)).trans_le hcap

end Frame

theorem State.savePreFrame_within {s : State} {c : Caps} {d : Disposal} (hready : ComposeReady s d)
    (hdoc : s.docSize.area ≤ c.canvas.toNat) (h : s.mem.within c = true) :
    (s.savePreFrame d).mem.within c = true := by
  cases d
  case restorePrevious =>
    exact State.storeSave_within h (State.frameStores_lt hdoc hready.right hready.bottom s.canvasAt)
  all_goals exact h

theorem State.dispose_within {s : State} {c : Caps} (d : Disposal) (hdoc : s.docSize.area ≤ c.canvas.toNat)
    (hright : s.op.frmPos.left.toNat + s.op.frmSize.w.toNat ≤ s.docSize.w.toNat)
    (hbottom : s.op.frmPos.top.toNat + s.op.frmSize.h.toNat ≤ s.docSize.h.toNat)
    (h : s.mem.within c = true) : (s.dispose d).mem.within c = true := by
  cases d
  case restoreBackground =>
    exact State.storeCanvas_within h (State.frameStores_lt hdoc hright hbottom fun _ => transparentCell)
  case restorePrevious =>
    exact State.storeCanvas_within h (State.frameStores_lt hdoc hright hbottom s.saveAt)
  all_goals exact h

theorem State.composite_within {s : State} {c : Caps} {d : Disposal} (hready : ComposeReady s d)
    (hdoc : s.docSize.area ≤ c.canvas.toNat) (h : s.mem.within c = true) :
    (s.composite d).mem.within c = true := by
  have hsaved := State.savePreFrame_within hready hdoc h
  have hdrawn : (s.drawn d).mem.within c = true :=
    State.storeCanvas_within hsaved
      (State.painted_lt (by simpa using hdoc) (by simpa using hready.right) (by simpa using hready.bottom))
  have hsnap : (s.drawn d).takeSnapshot.mem.within c = true :=
    State.storeSnap_within hdrawn (State.documentStores_lt (by simpa using hdoc) _)
  exact State.dispose_within d (by simpa using hdoc) (by simpa using hready.right) (by simpa using hready.bottom)
    hsnap

/-! ## What each update does to the data -/

theorem Bounded.openDocument {s : State} (hb : Bounded s)
    (hfits : s.op.canvasSize.area ≤ s.caps.canvas.toNat) : Bounded s.openDocument :=
  { capsLegal := hb.capsLegal, canonical := State.openDocument_wf hb.canonical,
    inBounds := State.openDocument_within hb.inBounds hfits, docFits := hfits, cbufFits := hb.cbufFits,
    idxFits := hb.idxFits }

theorem Bounded.composite {s : State} {d : Disposal} (hb : Bounded s) (hready : ComposeReady s d) :
    Bounded (s.composite d) :=
  { capsLegal := by simpa using hb.capsLegal, canonical := State.composite_wf d hb.canonical,
    inBounds := by simpa using State.composite_within hready hb.docFits hb.inBounds,
    docFits := by simpa using hb.docFits, cbufFits := by simpa using hb.cbufFits,
    idxFits := by simpa using hb.idxFits }

theorem Bounded.startAssemble {s : State} (hb : Bounded s) (image : Bool) : Bounded (s.startAssemble image) :=
  { hb with cbufFits := Nat.zero_le _ }

theorem Bounded.startDecode {s : State} (hb : Bounded s) (image : Bool) : Bounded (s.startDecode image) :=
  { hb with idxFits := Nat.zero_le _ }

theorem Bounded.copySubBlock {s : State} (hb : Bounded s) {n : Nat}
    (hn : s.cbufLen.toNat + n ≤ s.caps.cbuf.toNat) : Bounded (s.copySubBlock n) :=
  { capsLegal := hb.capsLegal, canonical := State.copySubBlock_wf n hb.canonical,
    inBounds := State.copySubBlock_within hb.inBounds hn, docFits := hb.docFits,
    cbufFits := (word_toNat (hn.trans_lt s.caps.cbuf.isLt)).trans_le hn, idxFits := hb.idxFits }

theorem Bounded.emit {s : State} (hb : Bounded s) {bs : List Byte}
    (hfits : s.idxLen.toNat + bs.length ≤ s.caps.idx.toNat) : Bounded (s.emit bs) :=
  { capsLegal := hb.capsLegal, canonical := State.emit_wf bs hb.canonical,
    inBounds := State.emit_within hb.inBounds hfits, docFits := hb.docFits, cbufFits := hb.cbufFits,
    idxFits := (word_toNat (hfits.trans_lt s.caps.idx.isLt)).trans_le hfits }

theorem Bounded.addEntry {s : State} (hb : Bounded s) (hnext : s.lzw.next.toNat < 4096) (b : Byte)
    (p : BitVec 12) : Bounded (s.addEntry b p) :=
  { hb with canonical := State.addEntry_wf b p hb.canonical, inBounds := State.addEntry_within b p hb.inBounds hnext }

theorem Bounded.withBase {s : State} (hb : Bounded s) (hfits : s.idxLen.toNat + 1 ≤ s.caps.idx.toNat)
    (c : BitVec 12) : Bounded (s.withBase c) := by
  have hemit : Bounded (s.emit [BitVec.ofNat 8 c.toNat]) := hb.emit hfits
  exact hemit.of_eq rfl rfl rfl rfl rfl

theorem Bounded.withString {s : State} (hb : Bounded s) {str : List Byte}
    (hfits : s.idxLen.toNat + str.length ≤ s.caps.idx.toNat) (hnext : s.lzw.next.toNat < 4096) (c : BitVec 12) :
    Bounded (s.withString str c) := by
  have hadd : Bounded ((s.emit str).addEntry (str.headD 0) s.lzw.prev) := (hb.emit hfits).addEntry hnext _ _
  exact hadd.of_eq rfl rfl rfl rfl rfl

/-! ## The invariant, by what runs -/

theorem Bounded.inv_errorEntry {s : State} (hb : Bounded s) {c : ErrCode} (hc : c ≠ .none) (info aux : Word) :
    Inv (s.errorEntry c info aux) :=
  { hb with
    busyExact := by simp, busyUndone := by simp, oneSource := by simp, errVoids := by simp
    errNamed := by simp [hc], errOnly := by simp, assembling := nofun, decoding := nofun }

/-- A command that ends done, from a block without an error. -/
theorem Bounded.inv_complete {s : State} (hb : Bounded s) (herr : s.status.err = false)
    (hcode : s.err.code = .none) : Inv s.complete :=
  { hb with
    busyExact := by simp, busyUndone := by simp, oneSource := by simp [herr], errVoids := by simp [herr]
    errNamed := by simp [herr, hcode], errOnly := by simp, assembling := nofun, decoding := nofun }

/-- After a reset, on legal capacities and memories that keep to them. -/
theorem inv_resetOn {c : Caps} {m : Memory} (hcaps : c.ok) (hm : m.wf = true) (hin : m.within c = true) (e : Env) :
    Inv (State.resetOn c m e) :=
  { capsLegal := hcaps, canonical := hm, inBounds := hin
    docFits := Nat.zero_le _, cbufFits := Nat.zero_le _, idxFits := Nat.zero_le _
    busyExact := ⟨nofun, fun h => absurd rfl h⟩, busyUndone := nofun, oneSource := nofun, errVoids := nofun
    errNamed := ⟨nofun, fun h => absurd rfl h⟩, errOnly := nofun, assembling := nofun, decoding := nofun }

/-- A command is under way, and the block is not in the error state. -/
structure Running (s : State) : Prop where
  pending : s.pending ≠ .none
  busy    : s.status.busy = true
  undone  : s.status.done = false
  noError : s.status.err = false
  noCode  : s.err.code = .none

/-- Only SOFT_RESET runs in the error state (44_control.md R231). -/
theorem Inv.running {s : State} (hi : Inv s) (hp : s.pending ≠ .none) (hreset : s.pending ≠ .word softResetWord) :
    Running s := by
  have hbusy := hi.busyExact.2 hp
  have herr : s.status.err = false := by
    by_contra herr
    exact (hi.errOnly (by simpa using herr)).elim hp hreset
  exact ⟨hp, hbusy, hi.busyUndone hbusy, herr, by simpa [herr] using hi.errNamed⟩

theorem Running.inv {s : State} (hrun : Running s) (hb : Bounded s)
    (hassemble : ∀ image, s.pending = .subBlock image →
      s.op.srcLen.toNat ≤ s.caps.src.toNat ∧ (image = true → s.status.docOpen = true))
    (hdecode : ∀ image, s.pending = .code image →
      LzwInv s ∧ s.status.cbufValid = true ∧ (image = true → s.status.docOpen = true)) : Inv s :=
  { hb with
    busyExact := ⟨fun _ => hrun.pending, fun _ => hrun.busy⟩, busyUndone := fun _ => hrun.undone
    oneSource := by simp [hrun.undone], errVoids := by simp [hrun.noError]
    errNamed := by simp [hrun.noError, hrun.noCode], errOnly := by simp [hrun.noError]
    assembling := hassemble, decoding := hdecode }

theorem Running.inv_startAssemble {s : State} (hrun : Running s) (hb : Bounded s) {image : Bool}
    (hlen : s.op.srcLen.toNat ≤ s.caps.src.toNat) (hdoc : image = true → s.status.docOpen = true) :
    Inv (s.startAssemble image) := by
  have hstart : Running (s.startAssemble image) := ⟨nofun, hrun.busy, hrun.undone, hrun.noError, hrun.noCode⟩
  refine hstart.inv (hb.startAssemble image) (fun image' h => ?_) nofun
  cases h
  exact ⟨hlen, hdoc⟩

/-- A decode that has started meets the decode invariant (42_lzw.md R152, R169). -/
theorem DecodeReady.lzwInv {s : State} (hr : DecodeReady s) (image : Bool) : LzwInv (s.startDecode image) := by
  obtain ⟨hlow, hhigh⟩ := hr.mcsLegal
  have hpow := two_pow_le_of_le_eight hhigh
  have hpow1 : 2 ^ 1 ≤ 2 ^ s.op.lzwMcs.toNat := Nat.pow_le_pow_right Nat.two_pos hlow
  have hdouble : 2 ^ (s.op.lzwMcs.toNat + 1) = 2 * 2 ^ s.op.lzwMcs.toNat := by rw [Nat.pow_succ, Nat.mul_comm]
  have hmcs : (s.startDecode image).lzw.mcsL.toNat = s.op.lzwMcs.toNat := ofNat4_toNat (by omega)
  have hwidth : (s.startDecode image).lzw.width.toNat = s.op.lzwMcs.toNat + 1 := ofNat4_toNat (by omega)
  have hnext : (s.startDecode image).lzw.next.toNat = 2 ^ s.op.lzwMcs.toNat + 2 := ofNat13_toNat (by omega)
  have hexp : (s.startDecode image).lzw.expLen.toNat = s.op.frmSize.area :=
    word_toNat (hr.fits.trans_lt s.caps.idx.isLt)
  have heoi : (s.startDecode image).eoiCode = 2 ^ s.op.lzwMcs.toNat + 1 := by
    rw [State.eoiCode_eq, State.clearCode, Lzw.ctx, CodeCtx.clear, hmcs]
  exact
    { mcsLegal := by omega, widthRange := by omega, nextRange := by omega
      nextFits := by rw [hnext, hwidth, hdouble]; omega
      nextEdge := by
        rw [hnext, hwidth, hdouble, hmcs]
        intro hedge
        have hone : s.op.lzwMcs.toNat = 1 := Nat.pow_right_injective (le_refl 2) (by omega : 2 ^ _ = 2 ^ 1)
        rw [hone]
        exact .inr ⟨rfl, rfl, rfl⟩
      chains := by intro e h1 h2; omega
      phases := .inl rfl
      fresh := fun _ => ⟨by omega, by omega⟩
      prevString := nofun
      counted := ⟨Nat.zero_le _, hexp.trans_le hr.fits⟩
      indices := fun k hk => absurd hk (Nat.not_lt_zero k)
      cursor := Nat.zero_le _ }

theorem Running.inv_startDecode {s : State} (hrun : Running s) (hb : Bounded s) {image : Bool}
    (hready : DecodeReady s) (hdoc : image = true → s.status.docOpen = true) : Inv (s.startDecode image) := by
  have hstart : Running (s.startDecode image) := ⟨nofun, hrun.busy, hrun.undone, hrun.noError, hrun.noCode⟩
  refine hstart.inv (hb.startDecode image) nofun fun image' h => ?_
  cases h
  exact ⟨hready.lzwInv image, hready.assembled, hdoc⟩

/-! ## The instructions of the core -/

/-- A command word (44_control.md R232). -/
theorem Inv.of_command {s t : State} {i : Instr} {v : Word} (hi : Inv s) (hp : s.pending = .word v)
    (hdec : decodeCommand v = .ok i) (h : Leaves s i t) : Inv t := by
  have hb := hi.bounded
  obtain ⟨-, henc⟩ := encode_of_decodeCommand hdec s.lzw.ctx
  have hrun (hreset : v ≠ softResetWord) : Running s :=
    hi.running (by rw [hp]; nofun) (by rw [hp]; simpa using hreset)
  cases h
  case failed hc => exact hb.inv_errorEntry hc _ _
  case softReset => exact inv_resetOn hb.capsLegal hb.canonical hb.inBounds _
  case nop =>
    cases henc
    have hr := hrun (by decide)
    exact hb.inv_complete hr.noError hr.noCode
  case endDoc =>
    cases henc
    have hr := hrun (by decide)
    have hclosed : Bounded { s with status := { s.status with docOpen := false } } := hb.of_eq rfl rfl rfl rfl rfl
    exact hclosed.inv_complete hr.noError hr.noCode
  case beginDoc hfits =>
    cases henc
    have hr := hrun (by decide)
    exact (hb.openDocument hfits).inv_complete hr.noError hr.noCode
  case assemble hlen =>
    cases henc
    exact (hrun (by decide)).inv_startAssemble hb hlen nofun
  case image hdoc hlen =>
    cases henc
    exact (hrun (by decide)).inv_startAssemble hb hlen fun _ => hdoc
  case lzwDecode hready =>
    cases henc
    exact (hrun (by decide)).inv_startDecode hb hready nofun
  case compose d hready =>
    cases henc
    have hr := hrun (by decide)
    exact (hb.composite hready).inv_complete (by simpa using hr.noError) (by simpa using hr.noCode)
  case clear hclear => rcases hclear with rfl | rfl <;> cases henc
  case string hstring => rcases hstring with rfl | rfl <;> cases henc
  all_goals cases henc

/-- The terminator of a chain (40_subblock.md R124, 44_control.md R237). -/
theorem Inv.of_sbTerm {s t : State} {image : Bool} (hi : Inv s) (hp : s.pending = .subBlock image)
    (h : Leaves s .sbTerm t) : Inv t := by
  have hb := hi.bounded
  have hend : Bounded s.pastTerminator := hb.of_eq rfl rfl rfl rfl rfl
  have hr := hi.running (by rw [hp]; nofun) (by rw [hp]; nofun)
  cases h
  case failed hc => exact hb.inv_errorEntry hc _ _
  case sbTerm => exact hend.inv_complete hr.noError hr.noCode
  case sbTermFailed hc => exact hend.inv_errorEntry hc _ _
  case sbTermDecodes himage hready =>
    have hend' : Running s.pastTerminator := ⟨hr.pending, hr.busy, hr.undone, hr.noError, hr.noCode⟩
    obtain ⟨-, hdoc⟩ := hi.assembling image hp
    exact hend'.inv_startDecode hend hready fun _ => hdoc (by simpa [hp, Pending.inImage] using himage)
  case clear hclear => simp at hclear
  case string hstring => simp at hstring

/-- A sub-block (40_subblock.md R125). -/
theorem Inv.of_sbData {s t : State} {image : Bool} {n : Byte} (hi : Inv s) (hp : s.pending = .subBlock image)
    (h : Leaves s (.sbData n) t) : Inv t := by
  have hr := hi.running (by rw [hp]; nofun) (by rw [hp]; nofun)
  cases h
  case failed hc => exact hi.bounded.inv_errorEntry hc _ _
  case sbData hsrc hcbuf =>
    have hcopy : Running (s.copySubBlock n.toNat) := ⟨hr.pending, hr.busy, hr.undone, hr.noError, hr.noCode⟩
    refine hcopy.inv (hi.bounded.copySubBlock hcbuf) (fun image' h => hi.assembling image' h) fun image' h => ?_
    rw [State.copySubBlock_pending, hp] at h
    cases h
  case clear hclear => simp at hclear
  case string hstring => simp at hstring

/-- A code of a running decode (42_lzw.md R158, R169). -/
theorem Inv.of_code {s t : State} {image : Bool} (hi : Inv s) (hp : s.pending = .code image)
    (h : coreStep s = .next t) : Inv t := by
  obtain ⟨hlzw, hcbuf, hdoc⟩ := hi.decoding image hp
  obtain ⟨-, hexp⟩ := hlzw.counted
  obtain ⟨-, -, hcap, -⟩ := hi.capsLegal
  have hlen := hi.cbufFits.trans hcap
  have hr := hi.running (by rw [hp]; nofun) (by rw [hp]; nofun)
  have hb : Bounded (s.advanceBits s.lzw.width.toNat) := hi.bounded.of_eq rfl rfl rfl rfl rfl
  have goOn {u : State} (hu : coreStep s = .next u) (hbu : Bounded u) (hpu : u.pending = s.pending)
      (hstatus : u.status = s.status) (herr : u.err = s.err) : Inv u := by
    have hru : Running u := ⟨hpu ▸ hr.pending, hstatus ▸ hr.busy, hstatus ▸ hr.undone, hstatus ▸ hr.noError,
      herr ▸ hr.noCode⟩
    refine hru.inv hbu (fun image' h' => ?_) fun image' h' => ?_
    · rw [hpu, hp] at h'; cases h'
    · rw [hpu, hp] at h'; cases h'
      exact ⟨hlzw.of_coreStep hi.canonical hp hlen hu hru.pending, hstatus ▸ hcbuf, hstatus ▸ hdoc⟩
  rcases coreStep_code_cases hlzw hp hlen with
    ⟨u, c, info, aux, hc, hu, hs⟩ | ⟨-, hs | ⟨c, -, hfits, hs⟩ | ⟨hfull, hs⟩ | hstring⟩
  · rw [hs] at h; cases h
    have hbu : Bounded u := by rcases hu with rfl | rfl <;> [exact hi.bounded; exact hb]
    exact hbu.inv_errorEntry hc info aux
  · rw [hs] at h; cases h
    exact goOn hs (hb.of_eq rfl rfl rfl rfl rfl) rfl rfl rfl
  · rw [hs] at h; cases h
    exact goOn hs (hb.withBase (hfits.trans hexp) c) rfl rfl rfl
  · have hend : Bounded (s.advanceBits s.lzw.width.toNat).pastEoi := hb.of_eq rfl rfl rfl rfl rfl
    have heoi : exec .eoi (s.advanceBits s.lzw.width.toNat) = .next t :=
      (execEoi_full (s := s.advanceBits s.lzw.width.toNat) hfull).trans (hs.symm.trans h)
    cases exec_leaves heoi
    case failed hc => exact hb.inv_errorEntry hc _ _
    case eoi => exact hend.inv_complete hr.noError hr.noCode
    case eoiFailed hc => exact hend.inv_errorEntry hc _ _
    case eoiComposes hready =>
      exact (hend.composite hready).inv_complete (by simpa using hr.noError) (by simpa using hr.noCode)
    case clear hclear => simp at hclear
    case string hstring => simp at hstring
  · obtain ⟨str, c, -, hnext, -, -, -, -, -, hfits, hs⟩ := hstring
    have hs' : coreStep s = .next ((s.advanceBits s.lzw.width.toNat).withString str c) := hs
    rw [hs'] at h; cases h
    exact goOn hs' (hb.withString (hfits.trans hexp) hnext c) (by simp [State.withString])
      (by simp [State.withString]) (by simp [State.withString])

/-- The core's next instruction keeps the invariant. -/
theorem Inv.of_coreStep {s t : State} (hi : Inv s) (h : coreStep s = .next t) : Inv t := by
  cases hp : s.pending with
  | none =>
    simp only [Machine.coreStep, coreFetch, hp] at h
    cases h; exact hi
  | word v =>
    rw [coreStep_word hp] at h
    split at h
    next hdec => exact hi.of_command hp hdec (exec_leaves h)
    · cases h; exact hi.bounded.inv_errorEntry (by decide) _ _
  | subBlock image =>
    rw [coreStep_subBlock hp] at h
    split at h
    · cases h; exact hi.bounded.inv_errorEntry (by decide) _ _
    · by_cases hzero : s.srcAt s.srcPtr.toNat = 0
      · rw [decodeLength, if_pos hzero] at h
        exact hi.of_sbTerm hp (exec_leaves h)
      · rw [decodeLength_of_ne_zero hzero] at h
        exact hi.of_sbData hp (exec_leaves h)
  | code image => exact hi.of_code hp h

/-! ## The surroundings and WBUSY -/

/-- The state in other surroundings and with another WBUSY: what `blind` leaves out. -/
@[simp] def State.amid (s : State) (env : Env) (wbusy : Bool) : State :=
  { s with status := { s.status with wbusy := wbusy }, env := env }

/-- States that differ only in what `blind` leaves out. -/
theorem State.eq_amid_of_blind {s t : State} (h : s.blind = t.blind) : t = s.amid t.env t.status.wbusy := by
  obtain ⟨⟨⟩⟩ := s
  obtain ⟨⟨⟩⟩ := t
  simp only [State.blind, State.mk.injEq, Status.mk.injEq] at h
  simp [h]

theorem LzwInv.amid {s : State} (h : LzwInv s) (env : Env) (wbusy : Bool) : LzwInv (s.amid env wbusy) :=
  ⟨h.mcsLegal, h.widthRange, h.nextRange, h.nextFits, h.nextEdge, h.chains, h.phases, h.fresh, h.prevString,
    h.counted, h.indices, h.cursor⟩

theorem Inv.amid {s : State} (hi : Inv s) (env : Env) (wbusy : Bool) : Inv (s.amid env wbusy) :=
  { capsLegal := hi.capsLegal, canonical := hi.canonical, inBounds := hi.inBounds, busyExact := hi.busyExact
    busyUndone := hi.busyUndone, oneSource := hi.oneSource, errVoids := hi.errVoids, errNamed := hi.errNamed
    errOnly := hi.errOnly, docFits := hi.docFits, cbufFits := hi.cbufFits, idxFits := hi.idxFits
    assembling := hi.assembling
    decoding := fun image hp => ⟨(hi.decoding image hp).1.amid env wbusy, (hi.decoding image hp).2⟩ }

theorem Inv.withEnv {s : State} (hi : Inv s) (env : Env) : Inv (s.withEnv env) := hi.amid env s.status.wbusy

/-! ## The host -/

/-- A store or a register write while nothing runs. -/
theorem Inv.of_idle {s t : State} (hi : Inv s) (hidle : s.pending = .none) (hb : Bounded t)
    (hstatus : t.status = s.status) (herr : t.err = s.err) (hp : t.pending = s.pending) : Inv t :=
  { hb with
    busyExact := by rw [hstatus, hp]; exact hi.busyExact
    busyUndone := by rw [hstatus]; exact hi.busyUndone
    oneSource := by rw [hstatus]; exact hi.oneSource
    errVoids := by rw [hstatus]; exact hi.errVoids
    errNamed := by rw [hstatus, herr]; exact hi.errNamed
    errOnly := by rw [hstatus, hp]; exact hi.errOnly
    assembling := by rw [hp, hidle]; nofun
    decoding := by rw [hp, hidle]; nofun }

/-- The acceptance of a command (44_control.md R230, R231). -/
theorem Inv.of_issue {s : State} (hi : Inv s) (v : Word) : Inv (s.issue v) := by
  unfold State.issue
  split
  · exact hi.amid s.env true
  · split
    · exact hi
    next hbusy haccept =>
      refine { hi.bounded with
        busyExact := by simp, busyUndone := by simp, oneSource := by simp, errVoids := hi.errVoids
        errNamed := hi.errNamed, errOnly := fun herr => .inr ?_, assembling := nofun, decoding := nofun }
      by_contra hv
      exact haccept ⟨herr, fun h => hv (congrArg Pending.word h)⟩

theorem Inv.of_hostWrite {s : State} (hi : Inv s) (a : BusAccess) (v : Word) : Inv (s.hostWrite a v) := by
  have hb := hi.bounded
  cases hbusy : s.status.busy
  · have hidle : s.pending = .none := by simpa [hbusy] using hi.busyExact
    rcases State.hostWrite_idle hbusy a v with h | h | ⟨hoff, h⟩ | ⟨hoff, h⟩ <;> rw [h]
    · exact hi
    · rcases s.writeRegs_cases a.offset v with h | ⟨irqEn, op, srcPtr, h⟩ <;> rw [h]
      · exact hi.of_issue v
      · exact hi.of_idle hidle (hb.of_eq rfl rfl rfl rfl rfl) rfl rfl rfl
    · refine hi.of_idle hidle { hb with canonical := ?_, inBounds := ?_ } rfl rfl rfl
      · exact State.storeSrc_wf _ hb.canonical
      · exact State.storeSrc_within hb.inBounds (by simpa using hoff)
    · refine hi.of_idle hidle { hb with canonical := ?_, inBounds := ?_ } rfl rfl rfl
      · exact State.storeCt_wf _ hb.canonical
      · exact State.storeCt_within hb.inBounds (by simpa using hoff)
  · rw [State.hostWrite_busy hbusy]
    exact hi.amid s.env true

theorem Inv.of_hostTurn {s t : State} (hi : Inv s) (h : hostTurn s = .next t) : Inv t := by
  cases hostTurn_leaves h with
  | @surroundings env => exact hi.withEnv env
  | @write env _ a v => exact (hi.withEnv env).of_hostWrite a v
  | @hardReset env drawn => exact inv_resetOn hi.capsLegal (Memory.wf_canon _ _) (Memory.within_canon _ _) env

/-! ## The statements -/

/-- Settles O51: the reset capacities are legal and the memories empty. -/
theorem resetMeetsTheBlockInvariant : Obligations.ResetMeetsTheBlockInvariant :=
  inv_resetOn (by unfold Caps.ok; decide) Memory.wf_empty (Memory.within_empty _) _

/-- Settles O52: the host's event and each instruction of the core's turn keep the invariant, which looks at
neither turns nor paces. -/
theorem stepKeepsTheBlockInvariant : Obligations.StepKeepsTheBlockInvariant := by
  intro s t hi h
  have hpop : Inv s.popTurn := hi.withEnv { s.env with turns := s.env.turns.tail }
  rcases step_cases s with hs | ⟨-, hs⟩ | ⟨-, hs⟩ <;> rw [hs] at h
  · cases h; exact hi
  · exact hpop.of_hostTurn h
  · exact coreTurn_keeps (P := Inv) (fun u hu => hu.withEnv { u.env with paces := u.env.paces.tail })
      (fun _ _ hu _ hstep => hu.of_coreStep hstep) hpop h

end Sys2Proof.Machine
end

section
/-! PROOFS about the steps of the block (44_control.md R230 to R237): who moves, what a core step runs, the commands
of no unit, the start of a document, the bodies of IMAGE, how a command ends (R233), what leaves the error state
(60_exceptions.md R270), and that no step stops the machine. -/

namespace Sys2Proof.Machine

/-! ## Who moves (log 4) -/

theorem State.coreReady_eq_true {s : State} (h : s.pending ≠ .none) : s.coreReady = true := decide_eq_true h

theorem State.coreReady_eq_false {s : State} (h : s.pending = .none) : s.coreReady = false :=
  decide_eq_false (not_not.2 h)

theorem State.hostReady_eq_true {s : State} (h : s.env.host ≠ []) : s.hostReady = true := decide_eq_true h

theorem State.hostReady_eq_false {s : State} (h : s.env.host = []) : s.hostReady = false :=
  decide_eq_false (not_not.2 h)

/-- Settles O6: `mover` at each of its branches. -/
theorem stepGivesTheTurnToAReadyAgent : Obligations.StepGivesTheTurnToAReadyAgent := by
  intro s
  refine ⟨fun hp hh => step_idle ?_, fun hp hh => step_core ?_, fun hp hh => step_host ?_,
    fun ts hp hh hturns => step_core ?_, fun ts hp hh hturns => step_host ?_⟩
  · simp [State.mover, State.coreReady_eq_false hp, State.hostReady_eq_false hh]
  · simp [State.mover, State.coreReady_eq_true hp, State.hostReady_eq_false hh]
  · simp [State.mover, State.coreReady_eq_false hp, State.hostReady_eq_true hh]
  · simp [State.mover, State.coreReady_eq_true hp, State.hostReady_eq_true hh, hturns]
  · simp [State.mover, State.coreReady_eq_true hp, State.hostReady_eq_true hh, hturns]

/-- The core moves only where it has a command. -/
theorem State.pending_of_mover {s : State} (h : s.mover = some .core) : s.pending ≠ .none := by
  intro hp
  simp only [State.mover, State.coreReady_eq_false hp] at h
  cases hh : s.hostReady <;> simp [hh] at h

/-! ## What a core step runs (log 5) -/

/-- Settles O5: `coreTurn` at the paces 0 and 1, and the three kinds of fetch. -/
theorem coreStepRunsTheFetchedInstruction : Obligations.CoreStepRunsTheFetchedInstruction := by
  intro s hmover
  have hp := State.pending_of_mover hmover
  have hstep : step s = coreTurn s.popTurn := step_core hmover
  refine ⟨hstep, fun hzero => hstep.trans (coreTurn_zero hzero), fun hpaces => ?_, fun hone => ?_⟩
  · simp [State.pace, hpaces]
  · have hrun : step s = coreStep s.popTurn.popPace := hstep.trans (coreTurn_one hp hone)
    refine ⟨hrun, fun v i hv hdec => ?_, fun image hsub hlt => ?_, fun image i hcode hbits hdec => ?_⟩
    · rw [hrun, coreStep_word (s := s.popTurn.popPace) hv, hdec]
    · rw [hrun, coreStep_subBlock (s := s.popTurn.popPace) hsub]
      exact if_neg (Nat.not_le.2 hlt)
    · have hdec' : decodeCode s.popTurn.popPace.lzw.ctx
          (bitsValue (s.popTurn.popPace.bitsAhead s.popTurn.popPace.lzw.width.toNat)) = .ok i := hdec
      rw [hrun, coreStep_code (s := s.popTurn.popPace) hcode, hdec']
      exact if_neg (Nat.not_lt.2 hbits)

/-! ## The commands of no unit, and BEGIN_DOC -/

/-- Settles O22: NOP is `complete`. -/
theorem nopOnlyCompletes : Obligations.NopOnlyCompletes := fun _ => rfl

/-- Settles O23: END_DOC is `complete` with the document closed. -/
theorem endDocClosesTheDocument : Obligations.EndDocClosesTheDocument := fun _ => rfl

/-- Settles O42: the capacity check, then `openDocument`, whose canvas is `canvasAt_openDocument`. -/
theorem beginDocOpensABlankCanvas : Obligations.BeginDocOpensABlankCanvas := by
  intro s hm
  refine ⟨fun hlarge => ?_, fun hfits => ?_⟩
  · refine (if_pos hlarge).trans ?_
    rw [raise_eq, word_toNat_self]
  · exact ⟨s.openDocument.complete, if_neg (Nat.not_lt.2 hfits), rfl, rfl, State.canvasAt_openDocument hm, rfl,
      rfl, rfl⟩

/-! ## The bodies of IMAGE (44_control.md R237) -/

theorem execImage_noDocument {s : State} (h : s.status.docOpen = false) :
    execImage s = .next (s.errorEntry .sequence 0x06 1) := if_pos h

theorem execImage_document {s : State} (h : s.status.docOpen = true) : execImage s = assembleBody true s :=
  if_neg (by simp [h])

/-- Settles O24: IMAGE is its document check and ASSEMBLE's body; its terminator is LZW_DECODE's body, and its EOI
is COMPOSE's. -/
theorem imageRunsTheThreeBodies : Obligations.ImageRunsTheThreeBodies := by
  intro s
  refine ⟨execImage_noDocument, fun hdoc hlong => (execImage_document hdoc).trans (assembleBody_tooLong hlong true),
    fun hdoc hfits => (execImage_document hdoc).trans (assembleBody_starts hfits true), fun hp => ?_,
    fun hp hfull => execEoi_image hfull (by rw [hp]; rfl)⟩
  rw [← word_add_one]
  have hterm : exec .sbTerm s = lzwBody true s.pastTerminator := execSbTerm_image (by rw [hp]; rfl)
  have hcbuf : s.pastTerminator.status.cbufValid = true := rfl
  refine ⟨fun ⟨hlow, hhigh, hfits⟩ => ?_, fun hbad => ?_⟩
  · have hstart (image : Bool) : lzwBody image s.pastTerminator = .next (s.pastTerminator.startDecode image) :=
      (lzwBody_legalMcs hcbuf hlow hhigh image).trans (if_neg (Nat.not_lt.2 hfits))
    exact ⟨_, hstart false, hterm.trans (hstart true)⟩
  · rw [hterm]
    by_cases hmcs : 1 ≤ s.op.lzwMcs.toNat ∧ s.op.lzwMcs.toNat ≤ 8
    · have hlarge : s.op.frmSize.area > s.caps.idx.toNat := Nat.lt_of_not_le fun h => hbad ⟨hmcs.1, hmcs.2, h⟩
      have herr (image : Bool) : lzwBody image s.pastTerminator = _ :=
        (lzwBody_legalMcs hcbuf hmcs.1 hmcs.2 image).trans (if_pos hlarge)
      exact (herr true).trans (herr false).symm
    · exact (lzwBody_badMcs hcbuf hmcs true).trans (lzwBody_badMcs hcbuf hmcs false).symm

/-! ## How a command ends -/

/-- An instruction other than SOFT_RESET ends its command done, ends it failed, or leaves it running with the
flags and error registers as they were (44_control.md R233). -/
theorem Leaves.ends_or_runs {s t : State} {i : Instr} (h : Leaves s i t) (hreset : i ≠ .softReset) :
    (t.pending = .none ∧ t.status.busy = false ∧ t.status.done = true ∧ t.status.err = s.status.err) ∨
    (t.pending = .none ∧ t.status.busy = false ∧ t.status.done = false ∧ t.status.err = true) ∨
    ((s.pending ≠ .none → t.pending ≠ .none) ∧ t.status.busy = s.status.busy ∧ t.status.done = s.status.done ∧
      t.status.err = s.status.err) := by
  cases h
  case softReset => contradiction
  case failed | sbTermFailed | eoiFailed => exact .inr (.inl ⟨rfl, rfl, rfl, rfl⟩)
  case nop | endDoc | beginDoc | sbTerm | eoi => exact .inl ⟨rfl, rfl, rfl, rfl⟩
  case compose | eoiComposes => exact .inl (by simp)
  case assemble | image | lzwDecode | sbTermDecodes => exact .inr (.inr ⟨nofun, rfl, rfl, rfl⟩)
  case sbData | clear | baseAfterClear => exact .inr (.inr ⟨id, rfl, rfl, rfl⟩)
  case string => exact .inr (.inr (by simp [State.withString]))

/-- From a running command that is no SOFT_RESET. -/
theorem Running.coreStep_ends_or_runs {s t : State} (hrun : Running s) (hreset : s.pending ≠ .word softResetWord)
    (h : coreStep s = .next t) :
    (t.pending = .none ∧ t.status.busy = false ∧ t.status.done = !t.status.err) ∨
    (t.pending ≠ .none ∧ t.status.busy = true ∧ t.status.done = false ∧ t.status.err = false) := by
  rcases coreStep_leaves h with ⟨hp, -⟩ | ⟨u, hu, hleaves⟩
  · exact absurd hp hrun.pending
  · have hup : u.pending = s.pending := by rcases hu with rfl | rfl <;> rfl
    have hus : u.status = s.status := by rcases hu with rfl | rfl <;> rfl
    rcases hleaves with ⟨c, info, aux, -, rfl⟩ | ⟨i, hi, hl⟩
    · exact .inl ⟨rfl, rfl, rfl⟩
    · rcases hl.ends_or_runs fun h => hreset (hi h) with ⟨hp, hbusy, hdone, herr⟩ | ⟨hp, hbusy, hdone, herr⟩ |
        ⟨hp, hbusy, hdone, herr⟩
      · rw [hus, hrun.noError] at herr
        exact .inl ⟨hp, hbusy, by rw [hdone, herr]; rfl⟩
      · exact .inl ⟨hp, hbusy, by rw [hdone, herr]; rfl⟩
      · rw [hus] at hbusy hdone herr
        exact .inr ⟨hp (hup ▸ hrun.pending), hbusy.trans hrun.busy, hdone.trans hrun.undone, herr.trans hrun.noError⟩

theorem coreStep_softReset {s : State} (hp : s.pending = .word softResetWord) : coreStep s = .next s.softReset := by
  rw [coreStep_word hp]
  rfl

/-- Settles O54: SOFT_RESET leaves no flag, every other instruction ends its command one way or runs on. -/
theorem commandsEndDoneOrFailed : Obligations.CommandsEndDoneOrFailed := by
  intro s t hi hp h
  by_cases hreset : s.pending = .word softResetWord
  · rw [coreStep_softReset hreset] at h; cases h
    exact ⟨fun hrun => absurd rfl hrun, fun _ => ⟨rfl, fun _ => ⟨rfl, rfl⟩, fun hne => absurd hreset hne⟩⟩
  · rcases (hi.running hp hreset).coreStep_ends_or_runs hreset h with ⟨hend, hbusy, hdone⟩ | ⟨hrun, hflags⟩
    · exact ⟨fun hrun => absurd hend hrun, fun _ => ⟨hbusy, fun heq => absurd heq hreset, fun _ => hdone⟩⟩
    · exact ⟨fun _ => hflags, fun hend => absurd hend hrun⟩

/-! ## The error state -/

/-- No write of the host touches ERR or the error registers. -/
theorem State.hostWrite_err (s : State) (a : BusAccess) (v : Word) :
    (s.hostWrite a v).status.err = s.status.err ∧ (s.hostWrite a v).err = s.err := by
  cases hbusy : s.status.busy
  · rcases State.hostWrite_idle hbusy a v with h | h | ⟨-, h⟩ | ⟨-, h⟩ <;> rw [h]
    · exact ⟨rfl, rfl⟩
    · rcases s.writeRegs_cases a.offset v with h | ⟨irqEn, op, srcPtr, h⟩ <;> rw [h]
      · unfold State.issue
        split_ifs <;> exact ⟨rfl, rfl⟩
      · exact ⟨rfl, rfl⟩
    · exact ⟨rfl, rfl⟩
    · exact ⟨rfl, rfl⟩
  · rw [State.hostWrite_busy hbusy]
    exact ⟨rfl, rfl⟩

/-- A pending SOFT_RESET ends in its core step, unless the pace lets it wait. -/
theorem coreRun_softReset {s : State} (hp : s.pending = .word softResetWord) (k : Nat) :
    coreRun (k + 1) s = .next s.softReset := by
  rw [coreRun_succ k (by rw [hp]; nofun) (coreStep_softReset hp), coreRun_none k rfl]

/-- Settles O53: the core runs nothing but a SOFT_RESET then, and the host's writes leave the error as it is. -/
theorem onlyResetLeavesTheErrorState : Obligations.OnlyResetLeavesTheErrorState := by
  intro s t hi herr h
  rcases step_cases s with hs | ⟨-, hs⟩ | ⟨hp, hs⟩ <;> rw [hs] at h
  · cases h; exact .inl ⟨herr, rfl⟩
  · cases hostTurn_leaves h with
    | surroundings => exact .inl ⟨herr, rfl⟩
    | @write env _ a v =>
      obtain ⟨hflag, hregs⟩ := (s.popTurn.withEnv env).hostWrite_err a v
      exact .inl ⟨hflag.trans herr, hregs⟩
    | hardReset hevent => exact .inr (.inr ⟨_, _, hevent⟩)
  · have hreset := (hi.errOnly herr).resolve_left hp
    rw [coreTurn] at h
    cases hk : s.popTurn.pace with
    | zero => rw [hk] at h; cases h; exact .inl ⟨herr, rfl⟩
    | succ k =>
      rw [hk, coreRun_softReset (s := s.popTurn.popPace) hreset] at h
      cases h; exact .inr (.inl ⟨hreset, rfl⟩)

/-! ## No step stops the machine -/

theorem composeBody_total (s : State) : ∃ t, composeBody s = .next t := by
  rcases composeBody_cases s with ⟨c, info, aux, -, h⟩ | ⟨d, -, h⟩ <;> exact ⟨_, h⟩

theorem lzwBody_total (image : Bool) (s : State) : ∃ t, lzwBody image s = .next t := by
  rcases lzwBody_cases image s with ⟨c, info, aux, -, h⟩ | ⟨-, -, -, -, h⟩ <;> exact ⟨_, h⟩

theorem assembleBody_total (image : Bool) (s : State) : ∃ t, assembleBody image s = .next t := by
  rcases assembleBody_cases image s with ⟨c, info, aux, -, h⟩ | ⟨-, h⟩ <;> exact ⟨_, h⟩

theorem finishDecode_total (s : State) : ∃ t, finishDecode s = .next t := by
  unfold finishDecode
  split
  · exact composeBody_total _
  · exact ⟨_, rfl⟩

theorem finishAssemble_total (s : State) : ∃ t, finishAssemble s = .next t := by
  unfold finishAssemble
  split
  · exact lzwBody_total _ _
  · exact ⟨_, rfl⟩

/-- No instruction but a string of the dictionary can stop the machine (log 11). -/
theorem exec_total {i : Instr} (hknown : ∀ c, i ≠ .known c) (hkwkwk : i ≠ .kwkwk) (s : State) :
    ∃ t, exec i s = .next t := by
  cases i <;> simp only [exec]
  case nop | softReset | endDoc | clearFirst | clear => exact ⟨_, rfl⟩
  case beginDoc => unfold execBeginDoc; split <;> exact ⟨_, rfl⟩
  case assemble => exact assembleBody_total _ _
  case lzwDecode => exact lzwBody_total _ _
  case compose => exact composeBody_total _
  case image =>
    unfold execImage
    split
    · exact ⟨_, rfl⟩
    · exact assembleBody_total _ _
  case sbTerm => exact finishAssemble_total _
  case sbData n => unfold execSbData; split_ifs <;> exact ⟨_, rfl⟩
  case baseAfterClear c => unfold execBaseAfterClear; split <;> exact ⟨_, rfl⟩
  case eoi =>
    unfold execEoi
    split
    · exact ⟨_, rfl⟩
    · exact finishDecode_total _
  case known c => exact absurd rfl (hknown c)
  case kwkwk => exact absurd rfl hkwkwk

/-- The core's next instruction always runs from a state of the invariant. -/
theorem Inv.coreStep_total {s : State} (hi : Inv s) : ∃ t, coreStep s = .next t := by
  cases hp : s.pending with
  | none => exact ⟨s, by simp [coreStep, coreFetch, hp]⟩
  | word v =>
    rw [coreStep_word hp]
    split
    next i hdec =>
      obtain ⟨-, henc⟩ := encode_of_decodeCommand hdec s.lzw.ctx
      refine exec_total (fun c h => ?_) (fun h => ?_) s <;> subst h <;> cases henc
    · exact ⟨_, rfl⟩
  | subBlock image =>
    rw [coreStep_subBlock hp]
    split
    · exact ⟨_, rfl⟩
    · refine exec_total (fun c h => ?_) (fun h => ?_) s <;> unfold decodeLength at h <;> split at h <;> cases h
  | code image =>
    obtain ⟨hlzw, -, -⟩ := hi.decoding image hp
    obtain ⟨-, -, hcap, -⟩ := hi.capsLegal
    rcases coreStep_code_cases hlzw hp (hi.cbufFits.trans hcap) with
      ⟨u, c, info, aux, -, -, h⟩ | ⟨-, h | ⟨c, -, -, h⟩ | ⟨-, h⟩ | ⟨str, c, -, -, -, -, -, -, -, -, h⟩⟩
    case inr.inr.inr.inl => rw [h]; exact finishDecode_total _
    all_goals exact ⟨_, h⟩

/-- Whatever number of instructions a core step runs, it ends in a state of the invariant. -/
theorem Inv.coreRun_total {s : State} (hi : Inv s) (k : Nat) : ∃ t, coreRun k s = .next t ∧ Inv t :=
  coreRun_next (fun _ hu _ => (hu.coreStep_total).imp fun _ ht => ⟨ht, hu.of_coreStep ht⟩) k hi

theorem hostEvent_total {e : HostEvent} (h : ∀ a, e = .access a → a.shapeOk = true ∧ a.inRegs = true) (s : State) :
    ∃ t, hostEvent e s = .next t := by
  cases e with
  | access a =>
    obtain ⟨hshape, hregs⟩ := h a rfl
    cases hop : a.op
    · exact ⟨_, hostAccess_read hshape hregs hop⟩
    · exact ⟨_, hostAccess_write hshape hregs hop⟩
  | wait =>
    simp only [hostEvent]
    split <;> exact ⟨_, rfl⟩
  | hardReset drawn => exact ⟨_, rfl⟩

theorem hostTurn_total {s : State}
    (h : ∀ a, HostEvent.access a ∈ s.env.host → a.shapeOk = true ∧ a.inRegs = true) :
    ∃ t, hostTurn s = .next t := by
  unfold hostTurn
  split
  · exact ⟨_, rfl⟩
  next e es hhost => exact hostEvent_total (fun a ha => h a (by rw [hhost, ha]; exact List.mem_cons_self)) _

/-- Settles O55: the host's accesses exist by assumption, and the core's instructions all run. -/
theorem invariantStatesNeverStop : Obligations.InvariantStatesNeverStop := by
  intro s hi hhost
  have hpop : Inv s.popTurn := hi.withEnv { s.env with turns := s.env.turns.tail }
  rcases step_cases s with hs | ⟨-, hs⟩ | ⟨-, hs⟩ <;> rw [hs]
  · exact ⟨s, rfl⟩
  · exact hostTurn_total (s := s.popTurn) hhost
  · obtain ⟨t, ht, -⟩ := (hpop.withEnv { s.popTurn.env with paces := s.popTurn.env.paces.tail }).coreRun_total
      s.popTurn.pace
    exact ⟨t, ht⟩

end Sys2Proof.Machine
end

section
/-! PROOFS about what a running command depends on and shows (20_memory.md R75 to R77, logs 5 and 16): its course
does not depend on WBUSY or the surroundings, and the host sees nothing of it but BUSY until it ends. -/

namespace Sys2Proof.Machine

/-! ## The bodies in other surroundings, under another command

A body reads neither WBUSY nor the surroundings, and of what runs next only whether it is part of an IMAGE, at its
end. So it takes the same course in all of them. -/

/-- The state in other surroundings, with another WBUSY, as part of another command. -/
def State.seen (s : State) (env : Env) (wbusy : Bool) (p : Pending) : State :=
  { s with status := { s.status with wbusy := wbusy }, env := env, pending := p }

/-- `r` is what `t` is of `s`, as part of another command: the same error, or the same state with that command
still under way. -/
def Follows (s t : State) (env : Env) (wbusy : Bool) (p : Pending) (r : Res) : Prop :=
  (t.pending = .none ∧ t.status.err = true ∧ r = .next (t.amid env wbusy)) ∨
  (t.pending = s.pending ∧ r = .next (t.seen env wbusy p))

/-- Under the command it has. -/
theorem Follows.amid {s t : State} {env : Env} {wbusy : Bool} {r : Res} (h : Follows s t env wbusy s.pending r) :
    r = .next (t.amid env wbusy) := by
  rcases h with ⟨-, -, rfl⟩ | ⟨hp, rfl⟩
  · rfl
  · rw [← hp]
    rfl

section Seen
variable {s t : State} (env : Env) (wbusy : Bool) (p : Pending)

theorem raise_seen {c : ErrCode} {info aux : Nat} (h : raise c info aux s = .next t) :
    raise c info aux (s.seen env wbusy p) = .next (t.amid env wbusy) := by
  cases h; rfl

theorem State.composite_seen (d : Disposal) :
    ((s.seen env wbusy p).composite d).complete = (s.composite d).complete.amid env wbusy := by
  cases d <;> rfl

theorem ComposeReady.seen {d : Disposal} (h : ComposeReady s d) : ComposeReady (s.seen env wbusy p) d :=
  ⟨h.document, h.decoded, h.method, h.right, h.bottom, h.length, h.range⟩

theorem composeBody_seen (h : composeBody s = .next t) :
    composeBody (s.seen env wbusy p) = .next (t.amid env wbusy) := by
  unfold composeBody at h
  split at h
  next hdoc => cases h; exact composeBody_noDocument (s := s.seen env wbusy p) hdoc
  next hdoc =>
  have hdoc : s.status.docOpen = true := by simpa using hdoc
  split at h
  next hidx => cases h; exact composeBody_noFrame (s := s.seen env wbusy p) hdoc hidx
  next hidx =>
  have hidx : s.status.idxValid = true := by simpa using hidx
  split at h
  next hnone => cases h; exact composeBody_badDisposal (s := s.seen env wbusy p) hdoc hidx hnone
  next d hmethod =>
  split at h
  next hbeyond =>
    rw [raise_eq, word_toNat_self] at h; cases h
    exact composeBody_beyondCanvas (s := s.seen env wbusy p) hdoc hidx hmethod hbeyond
  next hinside =>
  have hinside : (s.beyondRight || s.beyondBottom) = false := by simpa using hinside
  split at h
  next hlength =>
    rw [raise_eq, word_toNat_self] at h; cases h
    exact composeBody_badLength (s := s.seen env wbusy p) hdoc hidx hmethod hinside hlength
  next hlength =>
  have hlength : s.idxLen.toNat = s.op.frmSize.area := not_not.1 hlength
  split at h
  next k hk =>
    cases h
    exact composeBody_badIndex (s := s.seen env wbusy p) hdoc hidx hmethod hinside hlength hk
  next hrange =>
    obtain ⟨hright, hbottom⟩ : s.beyondRight = false ∧ s.beyondBottom = false := by simpa using hinside
    have hready : ComposeReady s d :=
      ⟨hdoc, hidx, hmethod, by simpa [State.beyondRight] using hright, by simpa [State.beyondBottom] using hbottom,
        hlength, s.firstOutOfRange_none.1 hrange⟩
    cases h
    exact (composeBody_ready (hready.seen env wbusy p)).trans (congrArg _ (State.composite_seen env wbusy p d))

theorem lzwBody_seen {image : Bool} (h : lzwBody image s = .next t) :
    lzwBody image (s.seen env wbusy p) = .next (t.amid env wbusy) := by
  unfold lzwBody at h
  split at h
  next hcbuf => exact (if_pos hcbuf).trans (raise_seen env wbusy p h)
  next hcbuf =>
  split at h
  next hmcs => exact (if_neg hcbuf).trans ((if_pos hmcs).trans (raise_seen env wbusy p h))
  next hmcs =>
  refine (if_neg hcbuf).trans ((if_neg hmcs).trans ?_)
  split at h
  next hlarge => exact (if_pos hlarge).trans (raise_seen env wbusy p h)
  next hfits => cases h; exact if_neg hfits

theorem assembleBody_seen {image : Bool} (h : assembleBody image s = .next t) :
    assembleBody image (s.seen env wbusy p) = .next (t.amid env wbusy) := by
  unfold assembleBody at h
  split at h
  next hlong => exact (if_pos hlong).trans (raise_seen env wbusy p h)
  next hfits => cases h; exact if_neg hfits

theorem execSbData_follows {n : Byte} (h : execSbData n s = .next t) :
    Follows s t env wbusy p (execSbData n (s.seen env wbusy p)) := by
  unfold execSbData at h
  split at h
  next hsrc => cases h; exact .inl ⟨rfl, rfl, if_pos hsrc⟩
  next hsrc =>
  split at h
  next hcbuf => cases h; exact .inl ⟨rfl, rfl, (if_neg hsrc).trans (if_pos hcbuf)⟩
  next hcbuf => cases h; exact .inr ⟨rfl, (if_neg hsrc).trans (if_neg hcbuf)⟩

theorem execBaseAfterClear_follows {c : BitVec 12} (h : execBaseAfterClear c s = .next t) :
    Follows s t env wbusy p (execBaseAfterClear c (s.seen env wbusy p)) := by
  unfold execBaseAfterClear at h
  split at h
  next hlong => cases h; exact .inl ⟨rfl, rfl, if_pos hlong⟩
  next hfits => cases h; exact .inr ⟨rfl, if_neg hfits⟩

theorem decodeString_follows {str : List Byte} {c : BitVec 12} (h : decodeString str c s = .next t) :
    Follows s t env wbusy p (decodeString str c (s.seen env wbusy p)) := by
  unfold decodeString at h
  split at h
  next hlong => cases h; exact .inl ⟨rfl, rfl, if_pos hlong⟩
  next hfits => cases h; exact .inr ⟨by simp, if_neg hfits⟩

theorem execKnown_follows {c : BitVec 12} (h : execKnown c s = .next t) :
    Follows s t env wbusy p (execKnown c (s.seen env wbusy p)) := by
  unfold execKnown at h ⊢
  split at h
  next hfull => cases h; exact .inl ⟨rfl, rfl, if_pos hfull⟩
  next hnext =>
  have htrans : (s.seen env wbusy p).translate c.toNat = s.translate c.toNat := rfl
  rw [if_neg (show ¬ (s.seen env wbusy p).lzw.next.toNat = Config.dictSize from hnext), htrans]
  split at h
  · cases h
  · exact decodeString_follows env wbusy p h

theorem execKwkwk_follows (h : execKwkwk s = .next t) :
    Follows s t env wbusy p (execKwkwk (s.seen env wbusy p)) := by
  unfold execKwkwk at h ⊢
  have htrans : (s.seen env wbusy p).translate (s.seen env wbusy p).lzw.prev.toNat = s.translate s.lzw.prev.toNat :=
    rfl
  rw [htrans]
  split at h
  · cases h
  · exact decodeString_follows env wbusy p h

theorem illegalCode_follows {e : Reject} (h : illegalCode e s = .next t) :
    Follows s t env wbusy p (illegalCode e (s.seen env wbusy p)) := by
  cases e
  case firstNotClear | afterClearNotBase | codeBeyondNext => cases h; exact .inl ⟨rfl, rfl, rfl⟩
  all_goals cases h

end Seen

/-- The instructions in the middle of a body: the sub-blocks and the codes but EOI. -/
inductive Instr.MidBody : Instr → Prop
  | sbData (n : Byte) : MidBody (.sbData n)
  | clearFirst : MidBody .clearFirst
  | baseAfterClear (c : BitVec 12) : MidBody (.baseAfterClear c)
  | clear : MidBody .clear
  | known (c : BitVec 12) : MidBody (.known c)
  | kwkwk : MidBody .kwkwk

theorem exec_follows {i : Instr} (hi : Instr.MidBody i) {s t : State} (h : exec i s = .next t) (env : Env)
    (wbusy : Bool) (p : Pending) : Follows s t env wbusy p (exec i (s.seen env wbusy p)) := by
  cases hi with
  | sbData n => exact execSbData_follows env wbusy p h
  | clearFirst | clear => cases h; exact .inr ⟨rfl, rfl⟩
  | baseAfterClear c => exact execBaseAfterClear_follows env wbusy p h
  | known c => exact execKnown_follows env wbusy p h
  | kwkwk => exact execKwkwk_follows env wbusy p h

/-! ## The core in other surroundings -/

section Amid
variable {s t : State} (env : Env) (wbusy : Bool)

theorem execSbTerm_amid (h : execSbTerm s = .next t) : execSbTerm (s.amid env wbusy) = .next (t.amid env wbusy) := by
  cases himage : s.pending.inImage
  · rw [execSbTerm_completes himage] at h; cases h
    exact execSbTerm_completes (s := s.amid env wbusy) himage
  · rw [execSbTerm_image himage] at h
    exact (execSbTerm_image (s := s.amid env wbusy) himage).trans
      (lzwBody_seen (s := s.pastTerminator) env wbusy s.pending h)

theorem execEoi_amid (h : execEoi s = .next t) : execEoi (s.amid env wbusy) = .next (t.amid env wbusy) := by
  by_cases hfull : s.idxLen = s.lzw.expLen
  · cases himage : s.pending.inImage
    · rw [execEoi_completes hfull himage] at h; cases h
      exact execEoi_completes (s := s.amid env wbusy) hfull himage
    · rw [execEoi_image hfull himage] at h
      exact (execEoi_image (s := s.amid env wbusy) hfull himage).trans
        (composeBody_seen (s := s.pastEoi) env wbusy s.pending h)
  · rw [execEoi_short hfull] at h; cases h
    exact execEoi_short (s := s.amid env wbusy) hfull

/-- Every instruction but SOFT_RESET, which clears WBUSY. -/
theorem exec_amid {i : Instr} (hreset : i ≠ .softReset) (h : exec i s = .next t) :
    exec i (s.amid env wbusy) = .next (t.amid env wbusy) := by
  have midBody (hi : Instr.MidBody i) : exec i (s.amid env wbusy) = .next (t.amid env wbusy) :=
    (exec_follows hi h env wbusy s.pending).amid
  cases i
  case softReset => contradiction
  case nop | endDoc => cases h; rfl
  case beginDoc =>
    simp only [exec, execBeginDoc] at h ⊢
    split at h
    next hlarge => cases h; exact if_pos hlarge
    next hfits => cases h; exact if_neg hfits
  case assemble => exact assembleBody_seen env wbusy s.pending h
  case lzwDecode => exact lzwBody_seen env wbusy s.pending h
  case compose => exact composeBody_seen env wbusy s.pending h
  case image =>
    simp only [exec, execImage] at h
    split at h
    next hdoc => cases h; exact if_pos hdoc
    next hdoc => exact (if_neg hdoc).trans (assembleBody_seen env wbusy s.pending h)
  case sbTerm => exact execSbTerm_amid env wbusy h
  case eoi => exact execEoi_amid env wbusy h
  case sbData n => exact midBody (.sbData n)
  case clearFirst => exact midBody .clearFirst
  case baseAfterClear c => exact midBody (.baseAfterClear c)
  case clear => exact midBody .clear
  case known c => exact midBody (.known c)
  case kwkwk => exact midBody .kwkwk

/-- The core's next instruction, SOFT_RESET apart. -/
theorem coreStep_amid (hreset : s.pending ≠ .word softResetWord) (h : coreStep s = .next t) :
    coreStep (s.amid env wbusy) = .next (t.amid env wbusy) := by
  cases hp : s.pending with
  | none =>
    simp only [coreStep, coreFetch, hp] at h
    cases h
    simp [coreStep, coreFetch, hp]
  | word v =>
    rw [coreStep_word hp] at h
    rw [coreStep_word (s := s.amid env wbusy) hp]
    split at h
    next hdec =>
      have hword (hi : _ = Instr.softReset) : s.pending = .word softResetWord :=
        hp.trans (congrArg Pending.word (decodeCommand_softReset (hi ▸ hdec)))
      exact exec_amid env wbusy (fun hi => hreset (hword hi)) h
    · cases h; rfl
  | subBlock image =>
    rw [coreStep_subBlock hp] at h
    rw [coreStep_subBlock (s := s.amid env wbusy) hp]
    split at h
    next hend => cases h; exact if_pos hend
    next hlt => exact (if_neg hlt).trans (exec_amid env wbusy (decodeLength_ne_softReset _) h)
  | code image =>
    rw [coreStep_code hp] at h
    rw [coreStep_code (s := s.amid env wbusy) hp]
    split at h
    next hshort => cases h; exact if_pos hshort
    next hbits =>
      refine (if_neg hbits).trans ?_
      have hdec' : decodeCode (s.amid env wbusy).lzw.ctx
        (bitsValue ((s.amid env wbusy).bitsAhead (s.amid env wbusy).lzw.width.toNat)) =
          decodeCode s.lzw.ctx (bitsValue (s.bitsAhead s.lzw.width.toNat)) := rfl
      rw [hdec']
      split at h
      next hdec =>
        exact exec_amid (s := s.advanceBits s.lzw.width.toNat) env wbusy
          (fun hi => decodeCode_ne_softReset _ _ (hi ▸ hdec)) h
      · exact (illegalCode_follows (s := s.advanceBits s.lzw.width.toNat) env wbusy s.pending h).amid

end Amid

/-- Settles O58: two such states are one state in two surroundings, and so are their next states; SOFT_RESET
leaves the same of both. -/
theorem coreStepIgnoresTheHost : Obligations.CoreStepIgnoresTheHost := by
  intro s s' t hblind h
  rw [State.eq_amid_of_blind hblind]
  by_cases hreset : s.pending = .word softResetWord
  · rw [coreStep_softReset hreset] at h; cases h
    exact ⟨_, coreStep_softReset (s := s.amid s'.env s'.status.wbusy) hreset, rfl⟩
  · exact ⟨_, coreStep_amid _ _ hreset h, rfl⟩

/-! ## What the host sees of a running command -/

/-- All that a host read made while busy shows of the block, but for free draws (20_memory.md R76), is the same. -/
structure SameView (s t : State) : Prop where
  busy  : t.status.busy = s.status.busy
  done  : t.status.done = s.status.done
  err   : t.status.err = s.status.err
  wbusy : t.status.wbusy = s.status.wbusy
  irqEn : t.irqEn = s.irqEn
  shown : t.env.shown = s.env.shown
  caps  : t.caps = s.caps
  src   : t.mem.src = s.mem.src
  ct    : t.mem.ct = s.mem.ct

theorem SameView.refl (s : State) : SameView s s := ⟨rfl, rfl, rfl, rfl, rfl, rfl, rfl, rfl, rfl⟩

theorem SameView.irq {s t : State} (h : SameView s t) : t.irq = s.irq := by
  rw [State.irq, State.irq, h.irqEn, h.done, h.err]

theorem SameView.statusWord {s t : State} (h : SameView s t) (hbusy : s.status.busy = true) :
    t.statusWord = s.statusWord := by
  have hheld : t.heldSeen = s.heldSeen := by
    rw [State.heldSeen_busy hbusy, State.heldSeen_busy (h.busy.trans hbusy), h.shown]
  rw [State.statusWord, State.statusWord, h.busy, h.done, h.err, hheld, h.wbusy, h.irq]

/-- A register that is exact while busy is one of the six of R76. -/
theorem exactWhileBusy_reg {offset : Nat} (h : exactWhileBusy offset = true) :
    ∃ r ∈ [Reg.status, .id, .capSrc, .capCbuf, .capIdx, .capCanvas], offset = r.offset := by
  unfold exactWhileBusy at h
  split at h
  case h_7 => cases h
  all_goals
    next hr => exact ⟨_, by simp, eq_offset_of_regAt hr⟩

theorem SameView.readExact {s t : State} (h : SameView s t) (hbusy : s.status.busy = true) {a : BusAccess}
    (hexact : s.readIsDraw a = false) : t.readExact a = s.readExact a := by
  unfold State.readIsDraw at hexact
  unfold State.readExact
  split at hexact
  · rw [hbusy] at hexact
    obtain ⟨r, hr, hoffset⟩ := exactWhileBusy_reg (offset := a.offset) (by simpa using hexact)
    simp only [hoffset, State.readRegs_offset]
    simp only [List.mem_cons, List.not_mem_nil, or_false] at hr
    rcases hr with rfl | rfl | rfl | rfl | rfl | rfl
    · exact h.statusWord hbusy
    all_goals simp only [State.regWord, h.caps]
  · simp only [State.readSrc, State.srcAt, h.caps, h.src]
  · simp only [State.readCt, State.ctAt, h.ct]
  · rw [hbusy] at hexact; cases hexact

theorem SameView.readIsDraw {s t : State} (h : SameView s t) (a : BusAccess) : t.readIsDraw a = s.readIsDraw a := by
  rw [State.readIsDraw, State.readIsDraw, h.busy]

theorem Leaves.softReset_ends {s t : State} (h : Leaves s .softReset t) :
    t.pending = .none ∧ t.status.busy = false := by
  cases h
  case failed | softReset => exact ⟨rfl, rfl⟩
  case clear hclear => simp at hclear
  case string hstring => simp at hstring

/-- The command has ended, or nothing of it shows. -/
def EndedOrUnseen (s t : State) : Prop := (t.pending = .none ∧ t.status.busy = false) ∨ SameView s t

theorem coreStep_endedOrUnseen {s t u : State} (h : EndedOrUnseen s t) (hp : t.pending ≠ .none)
    (hstep : coreStep t = .next u) : EndedOrUnseen s u := by
  have hview := h.resolve_left fun hend => hp hend.1
  rcases coreStep_leaves hstep with ⟨hend, -⟩ | ⟨v, hv, hleaves⟩
  · exact absurd hend hp
  have hvview : SameView s v := by
    rcases hv with rfl | rfl
    · exact hview
    · exact ⟨hview.busy, hview.done, hview.err, hview.wbusy, hview.irqEn, hview.shown, hview.caps, hview.src,
        hview.ct⟩
  rcases hleaves with ⟨c, info, aux, -, rfl⟩ | ⟨i, -, hl⟩
  · exact .inl ⟨rfl, rfl⟩
  by_cases hreset : i = .softReset
  · subst hreset
    exact .inl hl.softReset_ends
  rcases hl.ends_or_runs hreset with ⟨hend, hbusy, -, -⟩ | ⟨hend, hbusy, -, -⟩ | ⟨-, hbusy, hdone, herr⟩
  · exact .inl ⟨hend, hbusy⟩
  · exact .inl ⟨hend, hbusy⟩
  · exact .inr ⟨hbusy.trans hvview.busy, hdone.trans hvview.done, herr.trans hvview.err,
      (hl.wbusy hreset).trans hvview.wbusy, (hl.irqEn hreset).trans hvview.irqEn,
      (congrArg Env.shown hl.env).trans hvview.shown, hl.caps.trans hvview.caps, hl.src.trans hvview.src,
      hl.ct.trans hvview.ct⟩

theorem coreTurn_endedOrUnseen {s t : State} (h : coreTurn s = .next t) : EndedOrUnseen s t := by
  refine coreTurn_keeps (P := EndedOrUnseen s) (fun u hu => ?_) (fun u v hu hp hstep => ?_) (.inr (.refl s)) h
  · refine hu.imp id fun hview => ?_
    exact ⟨hview.busy, hview.done, hview.err, hview.wbusy, hview.irqEn, hview.shown, hview.caps, hview.src, hview.ct⟩
  · exact coreStep_endedOrUnseen hu hp hstep

/-! ## Bits of STATUS under a mask -/

theorem and_eq_of_bits {v w m : Word} (h : ∀ k, m.getLsbD k = true → v.getLsbD k = w.getLsbD k) :
    v &&& m = w &&& m := by
  refine BitVec.eq_of_getLsbD_eq fun k _ => ?_
  rw [BitVec.getLsbD_and, BitVec.getLsbD_and]
  cases hm : m.getLsbD k
  · simp
  · rw [h k hm]

theorem or_eq_of_bits {v w m : Word} (h : ∀ k, m.getLsbD k = false → v.getLsbD k = w.getLsbD k) :
    v ||| m = w ||| m := by
  refine BitVec.eq_of_getLsbD_eq fun k _ => ?_
  rw [BitVec.getLsbD_or, BitVec.getLsbD_or]
  cases hm : m.getLsbD k
  · rw [h k hm]
  · simp

/-- Bit `k` of STATUS is the `k`-th of its bits, and 0 above them. -/
theorem State.getLsbD_status (s : State) (k : Nat) : (s.readRegs 0x08).getLsbD k = s.statusBits.getD k false := by
  have hlt := s.bitsValue_statusBits_lt
  rw [← BitVec.testBit_toNat, s.readRegs_status, word_toNat (by omega), testBit_bitsValue]

/-- The mask 0xFC holds the bits 2 to 7. -/
theorem getLsbD_maskFC {k : Nat} (h : (0xFC : Word).getLsbD k = true) : 2 ≤ k ∧ k ≤ 7 := by
  have hbits : ∀ k : Fin 32, (0xFC : Word).getLsbD k = true → 2 ≤ k.val ∧ k.val ≤ 7 := by decide
  exact hbits ⟨k, BitVec.lt_of_getLsbD h⟩ h

/-- An acceptance shows the holdings it keeps aside, and ERR and WBUSY as they were. -/
theorem State.issue_status {s : State} {v : Word} (hidle : s.status.busy = false)
    (hbusy : (s.issue v).status.busy = true) :
    (s.issue v).readRegs 0x08 &&& 0xFC = s.readRegs 0x08 &&& 0xFC := by
  have hissue : s.issue v = { s with
      status := { s.status with done := false, busy := true }, pending := .word v,
      env := { s.env with shown := s.status.holdings } } := by
    unfold State.issue at hbusy ⊢
    rw [if_neg (by simp [hidle])] at hbusy ⊢
    split at hbusy
    · rw [hidle] at hbusy; cases hbusy
    next haccept => exact if_neg haccept
  refine and_eq_of_bits fun k hk => ?_
  obtain ⟨hlow, hhigh⟩ := getLsbD_maskFC hk
  rw [State.getLsbD_status, State.getLsbD_status, hissue]
  simp only [State.statusBits, State.heldSeen_idle hidle]
  interval_cases k <;> rfl

/-- WBUSY and the surroundings, but for the holdings kept aside, show in bit 7 of STATUS at most. -/
theorem State.amid_status (s : State) {env : Env} (hshown : env.shown = s.env.shown) (wbusy : Bool) :
    (s.amid env wbusy).readRegs 0x08 ||| 0x80 = s.readRegs 0x08 ||| 0x80 := by
  refine or_eq_of_bits fun k hk => ?_
  have hne : k ≠ 7 := by rintro rfl; revert hk; decide
  have hset : (s.amid env wbusy).statusBits = s.statusBits.set 7 wbusy := by
    simp only [State.statusBits, State.heldSeen, State.amid, hshown, Status.holdings]
    rfl
  rw [State.getLsbD_status, State.getLsbD_status, hset, List.getD_eq_getElem?_getD, List.getD_eq_getElem?_getD,
    List.getElem?_set_ne hne.symm]

/-- Settles O60: an acceptance keeps the holdings aside that STATUS goes on showing, a core step leaves the whole
view until the command ends, and a host step is in other surroundings. -/
theorem onlyBusyShowsUntilTheEnd : Obligations.OnlyBusyShowsUntilTheEnd := by
  refine ⟨fun s t v hidle hbusy h => ?_, fun s t hs ht h => ?_, fun s t hs ht h => ?_⟩
  · have haccess : hostAccess _ s = .next (s.writeRegs Reg.cmd.offset v) :=
      hostAccess_writeRegs hidle (by decide) (by decide) v
    rw [s.writeRegs_cmd] at haccess
    cases haccess.symm.trans h
    exact State.issue_status hidle hbusy
  · have hview : SameView s t := (coreTurn_endedOrUnseen h).resolve_left fun hend => by
      rw [hend.2] at ht; cases ht
    exact ⟨hview.irq, fun a => ⟨hview.readIsDraw a, hview.readExact hs⟩⟩
  · cases hostTurn_leaves h with
    | surroundings hshown => exact ⟨rfl, s.amid_status hshown s.status.wbusy⟩
    | @write env hshown a v =>
      rw [State.hostWrite_busy (s := s.withEnv env) hs]
      exact ⟨rfl, s.amid_status hshown true⟩
    | hardReset => cases ht

end Sys2Proof.Machine
end

section
/-! PROOFS about how a command runs to its end (44_control.md R232, R241): the number of instructions it takes, and
its core steps at any paces (00_scope.md R10, log 5). -/

namespace Sys2Proof.Machine

/-! ## The instructions a command has left -/

/-- At most so many instructions are left: a sub-block takes two bytes of SRC at least, and a code two bits of
CBUF; each body has one instruction more, its last. -/
def State.instructionsLeft (s : State) : Nat :=
  match s.pending with
  | .none => 0
  | .word _ => s.stepBound
  | .subBlock _ => (s.op.srcLen.toNat - s.srcPtr.toNat) / 2 + 4 * s.caps.cbuf.toNat + 2
  | .code _ => (8 * s.cbufLen.toNat - s.brPos.toNat) / 2 + 1

section Left
variable {s : State}

theorem State.instructionsLeft_none (h : s.pending = .none) : s.instructionsLeft = 0 := by
  rw [State.instructionsLeft, h]

theorem State.instructionsLeft_word {v : Word} (h : s.pending = .word v) : s.instructionsLeft = s.stepBound := by
  rw [State.instructionsLeft, h]

theorem State.instructionsLeft_subBlock {image : Bool} (h : s.pending = .subBlock image) :
    s.instructionsLeft = (s.op.srcLen.toNat - s.srcPtr.toNat) / 2 + 4 * s.caps.cbuf.toNat + 2 := by
  rw [State.instructionsLeft, h]

theorem State.instructionsLeft_code {image : Bool} (h : s.pending = .code image) :
    s.instructionsLeft = (8 * s.cbufLen.toNat - s.brPos.toNat) / 2 + 1 := by
  rw [State.instructionsLeft, h]

/-- The start of a decode has the codes of its stream left. -/
theorem Bounded.instructionsLeft_startDecode (hb : Bounded s) (image : Bool) :
    (s.startDecode image).instructionsLeft ≤ 4 * s.caps.cbuf.toNat + 1 := by
  have hcbuf := hb.cbufFits
  have hleft : (s.startDecode image).instructionsLeft = (8 * s.cbufLen.toNat - 0) / 2 + 1 :=
    State.instructionsLeft_code rfl
  omega

theorem State.instructionsLeft_startAssemble (image : Bool) :
    (s.startAssemble image).instructionsLeft =
      (s.op.srcLen.toNat - s.srcPtr.toNat) / 2 + 4 * s.caps.cbuf.toNat + 2 := State.instructionsLeft_subBlock rfl

/-- No command has more left than the bound of the statement. -/
theorem Bounded.instructionsLeft_le (hb : Bounded s) : s.instructionsLeft ≤ s.stepBound := by
  have hcbuf := hb.cbufFits
  unfold State.instructionsLeft State.stepBound
  split <;> omega

end Left

/-- A command's first instruction. -/
theorem Inv.fewer_of_command {s t : State} {i : Instr} {v : Word} (hi : Inv s) (hp : s.pending = .word v)
    (hdec : decodeCommand v = .ok i) (h : Leaves s i t) : t.instructionsLeft < s.instructionsLeft := by
  have hdecode := hi.bounded.instructionsLeft_startDecode false
  have hassemble := s.instructionsLeft_startAssemble
  obtain ⟨-, henc⟩ := encode_of_decodeCommand hdec s.lzw.ctx
  rw [State.instructionsLeft_word hp, State.stepBound]
  cases h
  case failed | nop | softReset | endDoc | beginDoc | compose =>
    rw [State.instructionsLeft_none rfl]; omega
  case assemble | image => rw [hassemble]; omega
  case lzwDecode => omega
  case clear hclear => rcases hclear with rfl | rfl <;> cases henc
  case string hstring => rcases hstring with rfl | rfl <;> cases henc
  all_goals cases henc

/-- A terminator. -/
theorem Inv.fewer_of_sbTerm {s t : State} {image : Bool} (hi : Inv s) (hp : s.pending = .subBlock image)
    (h : Leaves s .sbTerm t) : t.instructionsLeft < s.instructionsLeft := by
  have hend : Bounded s.pastTerminator := hi.bounded.of_eq rfl rfl rfl rfl rfl
  have hdecode : (s.pastTerminator.startDecode true).instructionsLeft ≤ 4 * s.caps.cbuf.toNat + 1 :=
    hend.instructionsLeft_startDecode true
  rw [State.instructionsLeft_subBlock hp]
  cases h
  case failed | sbTerm | sbTermFailed => rw [State.instructionsLeft_none rfl]; omega
  case sbTermDecodes => omega
  case clear hclear => simp at hclear
  case string hstring => simp at hstring

/-- A sub-block takes its length byte and one payload byte at least. -/
theorem fewer_of_sbData {s t : State} {image : Bool} {n : Byte} (hp : s.pending = .subBlock image) (hn : n ≠ 0)
    (h : Leaves s (.sbData n) t) : t.instructionsLeft < s.instructionsLeft := by
  rw [State.instructionsLeft_subBlock hp]
  cases h
  case failed => rw [State.instructionsLeft_none rfl]; omega
  case sbData hsrc _ =>
    have hpos : n.toNat ≠ 0 := fun hzero => hn (BitVec.eq_of_toNat_eq hzero)
    have hptr : (s.copySubBlock n.toNat).srcPtr.toNat = s.srcPtr.toNat + 1 + n.toNat :=
      word_toNat (hsrc.trans_lt s.op.srcLen.isLt)
    have hleft : (s.copySubBlock n.toNat).instructionsLeft = _ := State.instructionsLeft_subBlock hp
    rw [hleft, hptr, State.copySubBlock_op, State.copySubBlock_caps]
    omega
  case clear hclear => simp at hclear
  case string hstring => simp at hstring

/-- A code takes `WIDTH` bits, two at least. -/
theorem Inv.fewer_of_code {s t : State} {image : Bool} (hi : Inv s) (hp : s.pending = .code image)
    (h : coreStep s = .next t) : t.instructionsLeft < s.instructionsLeft := by
  obtain ⟨hlzw, -, -⟩ := hi.decoding image hp
  obtain ⟨-, -, hcap, -⟩ := hi.capsLegal
  have hlen := hi.cbufFits.trans hcap
  have hwidth : 2 ≤ s.lzw.width.toNat := (Nat.succ_le_succ hlzw.mcsLegal.1).trans hlzw.widthRange.1
  have ended {u : State} (hu : u.pending = .none) : u.instructionsLeft < s.instructionsLeft := by
    rw [State.instructionsLeft_none hu, State.instructionsLeft_code hp]; omega
  have goesOn {u : State} (hbits : s.brPos.toNat + s.lzw.width.toNat ≤ 8 * s.cbufLen.toNat)
      (hu : u.pending = s.pending) (hpos : u.brPos = (s.advanceBits s.lzw.width.toNat).brPos)
      (hcbuf : u.cbufLen = s.cbufLen) : u.instructionsLeft < s.instructionsLeft := by
    rw [State.instructionsLeft_code (hu.trans hp), State.instructionsLeft_code hp, hpos, hcbuf,
      State.advanceBits_brPos, word_toNat (by omega)]
    omega
  rcases coreStep_code_cases hlzw hp hlen with
    ⟨u, c, info, aux, -, -, hs⟩ | ⟨hbits, hs | ⟨c, -, -, hs⟩ | ⟨-, hs⟩ | ⟨str, c, -, -, -, -, -, -, -, -, hs⟩⟩ <;>
    rw [hs] at h
  · cases h; exact ended rfl
  · cases h; exact goesOn hbits rfl rfl rfl
  · cases h; exact goesOn hbits rfl rfl rfl
  · exact ended (finishDecode_pending h)
  · cases h; exact goesOn hbits (by simp) (by simp) (by simp)

/-- Every instruction of a command leaves fewer to come. -/
theorem Inv.fewer {s t : State} (hi : Inv s) (hrun : s.pending ≠ .none) (h : coreStep s = .next t) :
    t.instructionsLeft < s.instructionsLeft := by
  cases hp : s.pending with
  | none => exact absurd hp hrun
  | word v =>
    rw [coreStep_word hp] at h
    split at h
    next hdec => exact hi.fewer_of_command hp hdec (exec_leaves h)
    · cases h
      rw [State.instructionsLeft_none rfl, State.instructionsLeft_word hp, State.stepBound]; omega
  | subBlock image =>
    rw [coreStep_subBlock hp] at h
    split at h
    · cases h
      rw [State.instructionsLeft_none rfl, State.instructionsLeft_subBlock hp]; omega
    · by_cases hzero : s.srcAt s.srcPtr.toNat = 0
      · rw [decodeLength, if_pos hzero] at h
        exact hi.fewer_of_sbTerm hp (exec_leaves h)
      · rw [decodeLength_of_ne_zero hzero] at h
        exact fewer_of_sbData hp hzero (exec_leaves h)
  | code image => exact hi.fewer_of_code hp h

/-- A run of as many instructions as are left ends the command, by induction on their number. -/
theorem Inv.coreRun_ends {s : State} (hi : Inv s) {n : Nat} (hn : s.instructionsLeft ≤ n) :
    ∃ t, coreRun n s = .next t ∧ t.pending = .none ∧ Inv t := by
  induction n generalizing s with
  | zero =>
    refine ⟨s, rfl, ?_, hi⟩
    by_contra hrun
    obtain ⟨t, ht⟩ := hi.coreStep_total
    have := hi.fewer hrun ht
    omega
  | succ n ih =>
    by_cases hrun : s.pending = .none
    · exact ⟨s, coreRun_none _ hrun, hrun, hi⟩
    · obtain ⟨t, ht⟩ := hi.coreStep_total
      rw [coreRun_succ n hrun ht]
      have := hi.fewer hrun ht
      exact ih (hi.of_coreStep ht) (by omega)

/-! ## Runs in other surroundings -/

theorem coreStep_wbusy {s t : State} (hreset : s.pending ≠ .word softResetWord) (h : coreStep s = .next t) :
    t.status.wbusy = s.status.wbusy := by
  rcases coreStep_leaves h with ⟨-, rfl⟩ | ⟨u, hu, hleaves⟩
  · rfl
  · have hus : u.status = s.status := by rcases hu with rfl | rfl <;> rfl
    rw [← hus]
    rcases hleaves with ⟨c, info, aux, -, rfl⟩ | ⟨i, hi, hl⟩
    · rfl
    · exact hl.wbusy fun h => hreset (hi h)

/-- An instruction takes the same course in other surroundings, WBUSY being as it is. -/
theorem coreStep_withEnv {s t : State} (h : coreStep s = .next t) (env : Env) :
    coreStep (s.withEnv env) = .next (t.withEnv env) := by
  by_cases hreset : s.pending = .word softResetWord
  · rw [coreStep_softReset hreset] at h; cases h
    exact coreStep_softReset (s := s.withEnv env) hreset
  · have hsame : t.withEnv env = t.amid env s.status.wbusy := by
      rw [← coreStep_wbusy hreset h]
      rfl
    rw [hsame]
    exact coreStep_amid env s.status.wbusy hreset h

theorem coreRun_withEnv {s t : State} {k : Nat} (h : coreRun k s = .next t) (env : Env) :
    coreRun k (s.withEnv env) = .next (t.withEnv env) := by
  induction k generalizing s with
  | zero => cases h; rfl
  | succ k ih =>
    by_cases hp : s.pending = .none
    · rw [coreRun_none _ hp] at h; cases h
      exact coreRun_none _ hp
    · simp only [coreRun, hp, if_false] at h
      cases hu : coreStep s with
      | next u =>
        rw [hu] at h
        rw [coreRun_succ (s := s.withEnv env) k hp (coreStep_withEnv hu env)]
        exact ih h
      | fault f => rw [hu] at h; cases h
      | refused r => rw [hu] at h; cases h

/-! ## Core steps at any paces -/

/-- The surroundings with a pace taken. -/
def Env.popPace (env : Env) : Env := { env with paces := env.paces.tail }

/-- A core step is a run at the pace it has, with the pace taken. -/
theorem coreTurn_withEnv {s t : State} {env : Env} (h : coreRun (s.withEnv env).pace s = .next t) :
    coreTurn (s.withEnv env) = .next (t.withEnv env.popPace) := coreRun_withEnv h env.popPace

/-- With no pace given a core step runs one instruction. -/
theorem State.pace_none {s : State} (h : s.env.paces = []) : s.pace = 1 := by
  simp [State.pace, h]

/-- At any list of paces the core steps end where the run ends: each step of the list runs some instructions, or
none, and each step after it one. By induction on the list, then on the instructions. -/
theorem Inv.coreTurns_end {s t : State} {k : Nat} (hi : Inv s) (h : coreRun k s = .next t)
    (hend : t.pending = .none) (ps : List Nat) (env : Env) (hps : env.paces = ps) :
    ∃ env', coreTurns (ps.length + k) (s.withEnv env) = .next (t.withEnv env') := by
  induction ps generalizing s env with
  | nil =>
    induction k generalizing s env with
    | zero => cases h; exact ⟨env, coreTurns_none _ hend⟩
    | succ k ih =>
      by_cases hp : s.pending = .none
      · rw [coreRun_none _ hp] at h; cases h
        exact ⟨env, coreTurns_none _ hp⟩
      · obtain ⟨u, hu⟩ := hi.coreStep_total
        rw [coreRun_succ k hp hu] at h
        have hpace : coreRun (s.withEnv env).pace s = .next u := by
          rw [State.pace_none (s := s.withEnv env) hps, coreRun_succ 0 hp hu, coreRun]
        obtain ⟨env', henv'⟩ := ih (hi.of_coreStep hu) h env.popPace (by rw [Env.popPace, hps]; rfl)
        refine ⟨env', ?_⟩
        rw [← Nat.add_assoc, coreTurns_succ (s := s.withEnv env) _ hp (coreTurn_withEnv hpace)]
        exact henv'
  | cons p ps ih =>
    by_cases hp : s.pending = .none
    · rw [coreRun_none _ hp] at h; cases h
      exact ⟨env, coreTurns_none _ hp⟩
    · obtain ⟨u, hu, hiu⟩ := hi.coreRun_total (s.withEnv env).pace
      have hrest : coreRun k u = .next t := by
        rw [← coreRun_add _ k s u hu]
        exact coreRun_mono h hend (Nat.le_add_left _ _)
      obtain ⟨env', henv'⟩ := ih hiu hrest env.popPace (by rw [Env.popPace, hps]; rfl)
      refine ⟨env', ?_⟩
      rw [List.length_cons, Nat.add_right_comm, coreTurns_succ (s := s.withEnv env) _ hp (coreTurn_withEnv hu)]
      exact henv'

/-- Paces of 0 pass with nothing done, while the command is no illegal word. -/
theorem coreTurns_zeros {s : State} (hp : s.pending ≠ .none) (hlegal : s.pending.illegal = false) (m j : Nat)
    (ps : List Nat) (env : Env) (hps : env.paces = List.replicate m 0 ++ ps) :
    coreTurns (m + j) (s.withEnv env) = coreTurns j (s.withEnv { env with paces := ps }) := by
  induction m generalizing env with
  | zero =>
    have henv : { env with paces := ps } = env := by rw [← List.nil_append ps, ← List.replicate_zero, ← hps]
    rw [henv, Nat.zero_add]
  | succ m ih =>
    have hpace : (s.withEnv env).pace = 0 := by
      rw [State.pace_legal (s := s.withEnv env) hlegal, State.withEnv, hps]
      rfl
    rw [Nat.add_right_comm, coreTurns_succ (s := s.withEnv env) _ hp (coreTurn_zero hpace)]
    exact ih env.popPace (by rw [Env.popPace, hps]; rfl)

/-- Settles O56: `coreRun_ends` within the bound; at any paces by `coreTurns_end`; and `n` core steps by `n - 1`
paces of 0 before one that reaches the end. -/
theorem everyCommandEnds : Obligations.EveryCommandEnds := by
  intro s hi
  obtain ⟨t, hrun, hend, hit⟩ := hi.coreRun_ends hi.bounded.instructionsLeft_le
  have hidle : t.status.busy = false := by simpa [hend] using hit.busyExact
  refine ⟨t, hrun, hend, hidle, fun ps => ?_, fun n hn hp hlegal => ?_⟩
  · obtain ⟨env', henv'⟩ := hi.coreTurns_end hrun hend ps { s.env with paces := ps } rfl
    exact ⟨_, henv', rfl⟩
  · refine ⟨List.replicate (n - 1) 0 ++ [s.stepBound], ?_, fun m hm => ?_⟩
    · have hzeros := coreTurns_zeros hp hlegal (n - 1) 1 [s.stepBound]
        { s.env with paces := List.replicate (n - 1) 0 ++ [s.stepBound] } rfl
      have hpace : (s.withEnv { s.env with paces := [s.stepBound] }).pace = s.stepBound :=
        State.pace_legal (s := s.withEnv { s.env with paces := [s.stepBound] }) hlegal
      have hlast : coreTurns 1 (s.withEnv { s.env with paces := [s.stepBound] }) = .next (t.withEnv _) :=
        coreTurns_succ 0 hp (coreTurn_withEnv (by rw [hpace]; exact hrun))
      rw [Nat.sub_add_cancel hn] at hzeros
      exact ⟨_, hzeros.trans hlast, rfl⟩
    · have hsplit : List.replicate (n - 1) 0 ++ [s.stepBound] =
          List.replicate m 0 ++ (List.replicate (n - 1 - m) 0 ++ [s.stepBound]) := by
        rw [← List.append_assoc, List.replicate_append_replicate, Nat.add_sub_cancel' (by omega)]
      exact ⟨_, coreTurns_zeros hp hlegal m 0 _
        { s.env with paces := List.replicate (n - 1) 0 ++ [s.stepBound] } hsplit, rfl⟩

end Sys2Proof.Machine
end

section
/-! PROOFS about IMAGE (44_control.md R237): it leaves what ASSEMBLE, LZW_DECODE and COMPOSE leave, run one after the
other. A body inside IMAGE and the same body as a command of its own run side by side; they part only at its end. -/

namespace Sys2Proof.Machine

/-! ## A body as part of another command -/

/-- The state as part of another command. -/
def State.withPending (s : State) (p : Pending) : State := s.seen s.env s.status.wbusy p

/-- An acceptance from a block that is busy changes the command alone. -/
theorem Running.acceptedAs {s : State} (hrun : Running s) (v : Word) : s.acceptedAs v = s.withPending (.word v) := by
  have hstatus : { s.status with done := false, busy := true } = s.status := by
    rw [← hrun.undone, ← hrun.busy]
  simp only [State.acceptedAs, hstatus]
  rfl

/-- A command accepted after one that ended where a body of IMAGE goes on. -/
theorem Running.complete_acceptedAs {s : State} (hrun : Running s) (v : Word) :
    s.complete.acceptedAs v = s.withPending (.word v) := by
  rw [← hrun.acceptedAs]
  rfl

/-- The surroundings and WBUSY are as they were after any instruction of a body. -/
theorem Leaves.amid_self {s t : State} {i : Instr} (h : Leaves s i t) (hreset : i ≠ .softReset) :
    t.amid s.env s.status.wbusy = t := by
  rw [← h.env, ← h.wbusy hreset]
  rfl

theorem composeBody_withPending {s t : State} (h : composeBody s = .next t) (p : Pending) :
    composeBody (s.withPending p) = .next t := by
  have hl : Leaves s .compose t := exec_leaves h
  rw [State.withPending, composeBody_seen _ _ _ h, hl.amid_self nofun]

/-- `r` is what a body's own command answers, as `p'`, where IMAGE answers `t`: the same error, or the same state
with the body still under way, as `p` and as `p'`. -/
def Beside (t : State) (p p' : Pending) (r : Res) : Prop :=
  (t.pending = .none ∧ t.status.err = true ∧ r = .next t) ∨ (t.pending = p ∧ r = .next (t.withPending p'))

theorem Follows.beside {s t : State} {p : Pending} {r : Res} (h : Follows s t s.env s.status.wbusy p r)
    (henv : t.env = s.env) (hwbusy : t.status.wbusy = s.status.wbusy) : Beside t s.pending p r := by
  rw [← henv, ← hwbusy] at h
  exact h

/-- The same, where the body starts. -/
theorem assembleBody_beside {s t : State} (h : assembleBody true s = .next t) (p : Pending) :
    Beside t (.subBlock true) (.subBlock false) (assembleBody false (s.withPending p)) := by
  unfold assembleBody at h
  split at h
  next hlong => cases h; exact .inl ⟨rfl, rfl, if_pos hlong⟩
  next hfits => cases h; exact .inr ⟨rfl, if_neg hfits⟩

theorem lzwBody_beside {s t : State} (h : lzwBody true s = .next t) (p : Pending) :
    Beside t (.code true) (.code false) (lzwBody false (s.withPending p)) := by
  unfold lzwBody at h
  split at h
  next hcbuf => cases h; exact .inl ⟨rfl, rfl, if_pos hcbuf⟩
  next hcbuf =>
  split at h
  next hmcs => cases h; exact .inl ⟨rfl, rfl, (if_neg hcbuf).trans (if_pos hmcs)⟩
  next hmcs =>
  split at h
  next hlarge => cases h; exact .inl ⟨rfl, rfl, (if_neg hcbuf).trans ((if_neg hmcs).trans (if_pos hlarge))⟩
  next hfits => cases h; exact .inr ⟨rfl, (if_neg hcbuf).trans ((if_neg hmcs).trans (if_neg hfits))⟩

/-! ## The instructions of the bodies -/

/-- A sub-block, or a chain that is cut off, is the same in ASSEMBLE and IMAGE; at the terminator IMAGE goes on. -/
theorem coreStep_subBlock_beside {s t : State} (hp : s.pending = .subBlock true) (h : coreStep s = .next t) :
    Beside t (.subBlock true) (.subBlock false) (coreStep (s.withPending (.subBlock false))) ∨
    (lzwBody true s.pastTerminator = .next t ∧
      coreStep (s.withPending (.subBlock false)) = .next s.pastTerminator.complete) := by
  rw [coreStep_subBlock hp] at h
  rw [coreStep_subBlock (s := s.withPending (.subBlock false)) rfl]
  split at h
  next hend => cases h; exact .inl (.inl ⟨rfl, rfl, if_pos hend⟩)
  next hlt =>
  have hbyte : exec (decodeLength ((s.withPending (.subBlock false)).srcAt
      (s.withPending (.subBlock false)).srcPtr.toNat)) (s.withPending (.subBlock false)) =
        exec (decodeLength (s.srcAt s.srcPtr.toNat)) (s.withPending (.subBlock false)) := rfl
  rw [if_neg (show ¬ (s.withPending (.subBlock false)).op.srcLen.toNat ≤
    (s.withPending (.subBlock false)).srcPtr.toNat from hlt), hbyte]
  by_cases hzero : s.srcAt s.srcPtr.toNat = 0
  · rw [decodeLength, if_pos hzero] at h ⊢
    exact .inr ⟨(execSbTerm_image (by rw [hp]; rfl)).symm.trans h, execSbTerm_completes rfl⟩
  · rw [decodeLength_of_ne_zero hzero] at h ⊢
    have hl := exec_leaves h
    refine .inl ?_
    rw [← hp]
    exact (exec_follows (.sbData _) h s.env s.status.wbusy _).beside hl.env (hl.wbusy nofun)

/-- The classes of a code are EOI and those in the middle of a body. -/
theorem decodeCode_midBody {k : CodeCtx} {c : Nat} {i : Instr} (h : decodeCode k c = .ok i) (hi : i ≠ .eoi) :
    Instr.MidBody i := by
  unfold decodeCode at h
  split at h
  case h_1 => split_ifs at h; cases h; exact .clearFirst
  case h_2 => split_ifs at h; cases h; exact .baseAfterClear _
  case h_3 =>
    split_ifs at h <;> cases h
    · exact absurd rfl hi
    · exact .clear
    · exact .known _
    · exact .kwkwk
  case h_4 | h_5 => cases h

/-- A code is the same in LZW_DECODE and IMAGE; at a full EOI IMAGE goes on. -/
theorem coreStep_code_beside {s t : State} (hp : s.pending = .code true) (h : coreStep s = .next t) :
    Beside t (.code true) (.code false) (coreStep (s.withPending (.code false))) ∨
    (composeBody (s.advanceBits s.lzw.width.toNat).pastEoi = .next t ∧
      coreStep (s.withPending (.code false)) = .next (s.advanceBits s.lzw.width.toNat).pastEoi.complete) := by
  rw [coreStep_code hp] at h
  rw [coreStep_code (s := s.withPending (.code false)) rfl]
  split at h
  next hshort => cases h; exact .inl (.inl ⟨rfl, rfl, if_pos hshort⟩)
  next hbits =>
  have hcode : decodeCode (s.withPending (.code false)).lzw.ctx
      (bitsValue ((s.withPending (.code false)).bitsAhead (s.withPending (.code false)).lzw.width.toNat)) =
        decodeCode s.lzw.ctx (bitsValue (s.bitsAhead s.lzw.width.toNat)) := rfl
  rw [if_neg (show ¬ 8 * (s.withPending (.code false)).cbufLen.toNat <
    (s.withPending (.code false)).brPos.toNat + (s.withPending (.code false)).lzw.width.toNat from hbits), hcode]
  generalize hu : s.advanceBits s.lzw.width.toNat = u at h ⊢
  have hup : u.pending = .code true := by rw [← hu]; exact hp
  have hu' : (s.withPending (.code false)).advanceBits (s.withPending (.code false)).lzw.width.toNat =
    u.seen u.env u.status.wbusy (.code false) := by rw [← hu]; rfl
  rw [hu', ← hup]
  split at h
  next i hdec =>
    by_cases hi : i = .eoi
    · subst hi
      by_cases hfull : u.idxLen = u.lzw.expLen
      · exact .inr ⟨(execEoi_image hfull (by rw [hup]; rfl)).symm.trans h, execEoi_completes hfull rfl⟩
      · have hshort : exec .eoi u = _ := execEoi_short hfull
        rw [hshort] at h; cases h
        exact .inl (.inl ⟨rfl, rfl, execEoi_short hfull⟩)
    · have hl := exec_leaves h
      refine .inl ((exec_follows (decodeCode_midBody hdec hi) h u.env u.status.wbusy _).beside hl.env (hl.wbusy ?_))
      rintro rfl
      exact decodeCode_ne_softReset _ _ hdec
  next e _ =>
    rw [hup]
    cases e
    case firstNotClear | afterClearNotBase | codeBeyondNext => cases h; exact .inl (.inl ⟨rfl, rfl, rfl⟩)
    all_goals cases h

/-! ## A body's run as a command of its own -/

/-- `s` runs to its end: with the error that IMAGE ends with in `t`, or complete where IMAGE goes on to `t`, with the
body `next`. -/
def EndsBeside (next : State → Res) (t s : State) : Prop :=
  ∃ k a, coreRun k s = .next a ∧ a.pending = .none ∧ ((a.status.err = true ∧ t = a) ∨
    ∃ u v m, Running u ∧ a = u.complete ∧ next u = .next v ∧ Inv v ∧ coreRun m v = .next t)

/-- What comes before the end. -/
theorem EndsBeside.of_coreStep {next : State → Res} {t s u : State} (hp : s.pending ≠ .none)
    (h : coreStep s = .next u) (hu : EndsBeside next t u) : EndsBeside next t s := by
  obtain ⟨k, a, hrun, ha⟩ := hu
  exact ⟨k + 1, a, (coreRun_succ k hp h).trans hrun, ha⟩

/-- Side by side with IMAGE at one instruction, and from there on where the body goes on. -/
theorem Beside.endsBeside {next : State → Res} {s v t : State} {p p' : Pending} {k : Nat}
    (h : Beside v p p' (coreStep s)) (hp : s.pending ≠ .none) (hrun : coreRun k v = .next t)
    (hgo : v.pending = p → EndsBeside next t (v.withPending p')) : EndsBeside next t s := by
  rcases h with ⟨hv, herr, hs⟩ | ⟨hv, hs⟩
  · rw [coreRun_none _ hv] at hrun
    cases hrun
    exact .of_coreStep hp hs ⟨0, v, rfl, hv, .inl ⟨herr, rfl⟩⟩
  · exact .of_coreStep hp hs (hgo hv)

/-- A body of which each instruction runs side by side with IMAGE's, as `p` in IMAGE and as `p'`, until IMAGE goes on
with `next`. -/
def BodyBeside (next : State → Res) (p p' : Pending) : Prop :=
  ∀ s t, Inv s → s.pending = p → coreStep s = .next t → Beside t p p' (coreStep (s.withPending p')) ∨
    ∃ u, Running u ∧ next u = .next t ∧ coreStep (s.withPending p') = .next u.complete

/-- By induction on the instructions of IMAGE. -/
theorem BodyBeside.endsBeside {next : State → Res} {p p' : Pending} (hbody : BodyBeside next p p') (hp' : p' ≠ .none)
    {s t : State} {k : Nat} (hi : Inv s) (hp : s.pending = p) (hrunning : p ≠ .none) (hrun : coreRun k s = .next t)
    (hend : t.pending = .none) : EndsBeside next t (s.withPending p') := by
  induction k generalizing s with
  | zero => cases hrun; exact absurd (hp.symm.trans hend) hrunning
  | succ k ih =>
    obtain ⟨v, hv⟩ := hi.coreStep_total
    have hiv := hi.of_coreStep hv
    rw [coreRun_succ k (hp ▸ hrunning) hv] at hrun
    rcases hbody s v hi hp hv with hbeside | ⟨u, hu, hnext, hs⟩
    · exact hbeside.endsBeside hp' hrun fun hvp => ih hiv hvp hrun
    · exact .of_coreStep hp' hs ⟨0, _, rfl, rfl, .inr ⟨u, v, k, hu, rfl, hnext, hiv, hrun⟩⟩

/-- The sub-blocks, after which IMAGE goes on with LZW_DECODE. -/
theorem subBlocks_beside : BodyBeside (lzwBody true) (.subBlock true) (.subBlock false) := by
  intro s t hi hp h
  obtain ⟨hpending, hbusy, hundone, hnoError, hnoCode⟩ := hi.running (by rw [hp]; nofun) (by rw [hp]; nofun)
  exact (coreStep_subBlock_beside hp h).imp_right fun ⟨hnext, hs⟩ =>
    ⟨s.pastTerminator, ⟨hpending, hbusy, hundone, hnoError, hnoCode⟩, hnext, hs⟩

/-- The codes, after which IMAGE goes on with COMPOSE. -/
theorem codes_beside : BodyBeside composeBody (.code true) (.code false) := by
  intro s t hi hp h
  obtain ⟨hpending, hbusy, hundone, hnoError, hnoCode⟩ := hi.running (by rw [hp]; nofun) (by rw [hp]; nofun)
  exact (coreStep_code_beside hp h).imp_right fun ⟨hnext, hs⟩ =>
    ⟨(s.advanceBits s.lzw.width.toNat).pastEoi, ⟨hpending, hbusy, hundone, hnoError, hnoCode⟩, hnext, hs⟩

/-! ## The three commands -/

theorem coreStep_assembleWord {s : State} (h : s.pending = .word 0x03) : coreStep s = assembleBody false s :=
  coreStep_word h

theorem coreStep_lzwDecodeWord {s : State} (h : s.pending = .word 0x04) : coreStep s = lzwBody false s :=
  coreStep_word h

theorem coreStep_composeWord {s : State} (h : s.pending = .word 0x05) : coreStep s = composeBody s :=
  coreStep_word h

theorem coreStep_imageWord {s : State} (h : s.pending = .word 0x06) : coreStep s = execImage s :=
  coreStep_word h

/-- ASSEMBLE, from where IMAGE starts. -/
theorem Inv.assemble_beside {s t : State} {k : Nat} (hi : Inv s) (hp : s.pending = .word 0x06)
    (hdoc : s.status.docOpen = true) (hrun : coreRun k s = .next t) (hend : t.pending = .none) :
    EndsBeside (lzwBody true) t (s.withPending (.word 0x03)) := by
  cases k with
  | zero => cases hrun; rw [hp] at hend; cases hend
  | succ k =>
    obtain ⟨v, hv⟩ := hi.coreStep_total
    rw [coreRun_succ k (by rw [hp]; nofun) hv] at hrun
    have hstart : assembleBody true s = .next v := by rw [← execImage_document hdoc, ← coreStep_imageWord hp, hv]
    have hbeside := assembleBody_beside hstart (.word 0x03)
    rw [← coreStep_assembleWord (s := s.withPending (.word 0x03)) rfl] at hbeside
    exact hbeside.endsBeside nofun hrun fun hvp =>
      subBlocks_beside.endsBeside nofun (hi.of_coreStep hv) hvp nofun hrun hend

/-- LZW_DECODE, from where IMAGE has assembled its stream. -/
theorem lzwDecode_beside {u v t : State} {k : Nat} (hstart : lzwBody true u = .next v) (hi : Inv v)
    (hrun : coreRun k v = .next t) (hend : t.pending = .none) :
    EndsBeside composeBody t (u.withPending (.word 0x04)) := by
  have hbeside := lzwBody_beside hstart (.word 0x04)
  rw [← coreStep_lzwDecodeWord (s := u.withPending (.word 0x04)) rfl] at hbeside
  exact hbeside.endsBeside nofun hrun fun hvp => codes_beside.endsBeside nofun hi hvp nofun hrun hend

/-- Settles O57: each body ends beside its own command, and the next one starts from there; COMPOSE is one
instruction. -/
theorem imageEqualsItsThreeCommands : Obligations.ImageEqualsItsThreeCommands := by
  intro s t k hi hp hdoc hrun hend
  have hs := hi.running (by rw [hp]; nofun) (by rw [hp]; decide)
  obtain ⟨ka, a, hassemble, ha, hcase⟩ := hi.assemble_beside hp hdoc hrun hend
  refine ⟨ka, a, by rw [hs.acceptedAs]; exact hassemble, ha, ?_⟩
  rcases hcase with ⟨herr, rfl⟩ | ⟨u, v, m, hu, rfl, hv, hiv, hm⟩
  · exact ⟨fun _ => rfl, fun hok => absurd (herr.symm.trans hok) nofun⟩
  refine ⟨fun herr => absurd (hu.noError.symm.trans herr) nofun, fun _ => ?_⟩
  obtain ⟨kb, b, hdecode, hb, hcase⟩ := lzwDecode_beside hv hiv hm hend
  refine ⟨kb, b, by rw [hu.complete_acceptedAs]; exact hdecode, hb, ?_⟩
  rcases hcase with ⟨herr, rfl⟩ | ⟨w, x, n, hw, rfl, hx, -, hn⟩
  · exact ⟨fun _ => rfl, fun hok => absurd (herr.symm.trans hok) nofun⟩
  refine ⟨fun herr => absurd (hw.noError.symm.trans herr) nofun, fun _ => ?_⟩
  rw [coreRun_none _ (composeBody_pending hx)] at hn
  cases hn
  rw [hw.complete_acceptedAs, coreStep_composeWord (s := w.withPending (.word 0x05)) rfl]
  exact composeBody_withPending hx _

end Sys2Proof.Machine
end
